-- ==== Sys2Proof/Word.lean ====
section
/-! DEFINITION. The word types of the PatrolCar CAN codec core: bytes, the 64-bit data buses, CAN identifiers and
command operands (`00_scope.md` R11 to R15, `30_encoding.md` R81 to R83). -/

namespace Sys2Proof

/-- A payload byte; bit 0 is the least significant bit (R11). -/
abbrev Byte := BitVec 8

/-- A 64-bit payload bus, `rx_data` or `tx_data`; byte i is bits 8i+7..8i (R12). -/
abbrev Bus := BitVec 64

/-- A CAN identifier as the 29-bit integer of `rx_id` and `tx_id` (R81, R82). -/
abbrev CanId := BitVec 29

/-- A drive-command operand: a two's-complement `s_32` integer of hundredths (R15, R83). -/
abbrev Centi := BitVec 32

end Sys2Proof
end

