-- ==== Sys2Proof/Syntax.lean ====
section
/-! DEFINITION. The operations of the core (one constructor of `Instr` per row of the opcode table, R96 to R99), the
select words that choose them, the Signal Table row format `SROW` (R86), and the input ports of one cycle. -/

namespace Sys2Proof

/-- The operands a decoder operation reads from the inbound frame port `RXF` (R81) besides `rx_id`, which selects it. -/
structure RxPayload where
  /-- `rx_ide`: the frame format bit, ignored by the decoder (R101). -/
  ide : Bool
  /-- `rx_len`: 0..8 legal, 9..15 read as 8 (R56). -/
  len : BitVec 4
  /-- `rx_data`: byte i is bits 8i+7..8i (R12). -/
  data : Bus
  deriving DecidableEq, Repr, Inhabited

/-- The gears of R151; the encoder never selects Park. -/
inductive Gear where
  | park | drive | neutral | reverse
  deriving DecidableEq, Repr, Inhabited

/-- The indicator states of R152. -/
inductive Indicator where
  | none | left | right
  deriving DecidableEq, Repr, Inhabited

/-- The three kinds of a Signal Table row (R87). -/
inductive RowKind where
  | num | enum | flag
  deriving DecidableEq, Repr, Inhabited

/-- `SROW`, one row of the Signal Table (R86). -/
structure SRow where
  sigId : Nat
  canId : CanId
  name : String
  unit : String
  kind : RowKind
  lo : Nat
  hi : Nat
  bitLo : Nat
  width : Nat
  signed : Bool
  /-- Linear transform in output units, NUM rows only (R94). -/
  mul : Int
  add : Int
  /-- Decimal places of the output value, NUM rows only: 0 or 2. -/
  dec : Nat
  /-- Length of the enumeration table, ENUM rows only. -/
  enumLen : Nat
  deriving DecidableEq, Repr

/-- The operations of the opcode table, one constructor per row. -/
inductive Instr where
  -- identifier 0x303
  | decVehicleGear (f : RxPayload)
  | decDriveStateMode (f : RxPayload)
  | decSpeedRequestKmh (f : RxPayload)
  -- identifier 0x314
  | decDirectionAngle (f : RxPayload)
  | decEpsControl (f : RxPayload)
  -- identifier 0x304
  | decVehicleSpeed (f : RxPayload)
  | decWheelAngle (f : RxPayload)
  | decBrakePressure (f : RxPayload)
  -- identifier 0x301
  | decBrakeLight (f : RxPayload)
  | decHeadLight (f : RxPayload)
  | decEmergencyButton (f : RxPayload)
  | decTouchSwitches (f : RxPayload)
  -- identifier 0x18F
  | decEpsCurrentAngle (f : RxPayload)
  | decEpsTemperature (f : RxPayload)
  -- identifier 0x060
  | decBusVoltage (f : RxPayload)
  | decBusCurrent (f : RxPayload)
  -- identifier 0x160
  | decDriveMode (f : RxPayload)
  | decBrakeRequest (f : RxPayload)
  | decSpeedRequestRpm (f : RxPayload)
  | decTorqueRequest (f : RxPayload)
  -- identifier 0x0A0
  | decBatterySoh (f : RxPayload)
  | decBatterySoc (f : RxPayload)
  | decBatteryVoltage (f : RxPayload)
  -- any other identifier
  | decUnknown (id : CanId) (f : RxPayload)
  -- the frame builders, selected by BURST_IDX
  | encF501
  | encF502
  | encF503
  | encF504
  | encF506
  -- the pure functions of every ENCODE
  | encGear
  | encInd
  | encSpdf
  | encStrf
  -- the commands; STOP and RSVD carry operand fields and ignore them (R84)
  | start (speed angle : Centi)
  | update (speed angle : Centi)
  | stop (speed angle : Centi)
  | rsvd (speed angle : Centi)
  -- the events
  | tick
  | burstSend
  | burstGap
  | reset
  deriving DecidableEq, Repr

/-- The words that select operations, one form for each `over` member of the opcode table (R99). The slot number of an
inbound word and the number of a pure function are the model's own: the table gives the rows of one identifier equal
selectors, and the four functions none (log entries 13 and 14). -/
inductive OpWord where
  /-- The inbound frame port, as one 98-bit word (log entry 12), seen by decoder slot `slot` (R88, R96). -/
  | rxf (slot : BitVec 2) (word : BitVec 98)
  /-- `BURST_IDX` (R97). -/
  | txf (idx : BitVec 3)
  /-- A pure function of the encoder, by number. -/
  | fn (k : BitVec 2)
  /-- The command word (R83, R98). -/
  | cw (word : BitVec 66)
  /-- The condition word of TICK: bit 1 is `ST`, bit 0 says that a tick is due (R99). -/
  | tick (cond : BitVec 2)
  /-- `SEQ` (R99). -/
  | seq (phase : BitVec 2)
  /-- `rst` (R99). -/
  | rst (level : BitVec 1)
  deriving DecidableEq, Repr

/-- The levels of all input ports in one cycle (R81, R82, R83, R250). -/
structure Pins where
  rst : Bool := false
  rxValid : Bool := false
  rxId : CanId := 0
  rx : RxPayload := ⟨false, 0, 0⟩
  cmdValid : Bool := false
  cmd : BitVec 66 := 0
  txReady : Bool := false
  txErr : Bool := false
  deriving DecidableEq, Repr, Inhabited

end Sys2Proof
end

