-- ==== Sys2Proof/Config.lean ====
section
/-! DEFINITION. The elaboration parameters of the core (`00_scope.md` R9, R10; `40_decoder.md` R140), the register widths
they give (`10_state.md` R20), and the two free constants of the model: the parameters of this machine and the inputs no
run has scheduled. Neither has a body, so no proof can learn anything of them (log entries 2 and 4). -/

namespace Sys2Proof

/-- `ROUND_TIE` (R9, R14). The default is the spec's; no statement relies on it. -/
inductive RoundTie where
  | halfEven | halfAway
  deriving DecidableEq, Repr, Inhabited

/-- The fields of `WC` (R10), before any check. The five templates hold byte i in bits 8i+7..8i. None of the values is
in the source; the defaults of the last six fields are the spec's (R166). -/
structure WireFields where
  tpl501 : Bus
  tpl502 : Bus
  tpl503 : Bus
  tpl504 : Bus
  tpl506 : Bus
  gearPark : Byte
  gearDrive : Byte
  gearNeutral : Byte
  gearReverse : Byte
  indLeft : Byte
  indRight : Byte
  txLen0 : BitVec 4 := 8
  txLen1 : BitVec 4 := 8
  txLen2 : BitVec 4 := 8
  txLen3 : BitVec 4 := 8
  txLen4 : BitVec 4 := 8
  txIde : Bool := false
  deriving DecidableEq, Repr

/-- The wire constants the spec does not refuse (R10, R166, U4): the indicator codes differ from each other and from
the code 0 of None, and no frame is shorter than the highest byte its builder writes. -/
def WireFields.wf (w : WireFields) : Bool :=
  w.indLeft != w.indRight && w.indLeft != 0#8 && w.indRight != 0#8 &&
  6 ≤ w.txLen1.toNat && 8 ≤ w.txLen3.toNat && 1 ≤ w.txLen4.toNat

/-- `WC`, the wire constants of a machine (R10): fields that pass the check. A `WC` the spec refuses cannot be written,
so no machine runs under one (R166, U4; log entry 6). -/
structure WireConstants extends WireFields where
  legal : toWireFields.wf = true := by decide
  deriving DecidableEq, Repr

/-- Some legal wire constants. They only show that legal ones exist, which the free constant `Config.params` needs; no
value of theirs is in the source, and nothing rests on them (log entry 24). -/
def WireConstants.inhabitant : WireConstants :=
  { tpl501 := 0, tpl502 := 0, tpl503 := 0, tpl504 := 0, tpl506 := 0, gearPark := 0, gearDrive := 0, gearNeutral := 0,
    gearReverse := 0, indLeft := 1, indRight := 2 }

/-- The label tables the source leaves open: `ENUM_LABEL[1]`, `ENUM_LABEL[16]` and `FLAG_LABEL` of the flag signals
other than 4. An empty list is a table that is not given (R140). DESIGN CHOICE: a list may have any length; entry k is the
label of the value k, also for the values 2 and 3 of Touch Switches, where R9 gives a flag table the indices 0 and 1 only
(log entry 20). -/
structure Labels where
  driveStateMode : List String := []
  driveMode : List String := []
  brakeLight : List String := []
  headLight : List String := []
  emergencyButton : List String := []
  touchSwitches : List String := []
  brakeRequest : List String := []
  deriving DecidableEq, Repr, Inhabited

/-- The elaboration parameters (R9). `PERIOD_CYCLES` is `periodLessOne + 1`, so that the value 0, which the spec refuses
(U5), cannot be written (log entry 5). -/
structure Params where
  periodLessOne : Nat
  gapCycles : Nat
  roundTie : RoundTie := .halfEven
  wc : WireConstants := WireConstants.inhabitant
  labels : Labels
  deriving DecidableEq, Repr, Inhabited

/-- `PERIOD_CYCLES`, at least 1 (R9). -/
def Params.period (p : Params) : Nat := p.periodLessOne + 1

/-- `TIMER_W = ceil(log2(PERIOD_CYCLES + 1))`, the width of `TIMER` (R20): the number of binary digits of
PERIOD_CYCLES. -/
def Params.timerW (p : Params) : Nat := Nat.log2 p.period + 1

/-- `GAP_W = max(1, ceil(log2(GAP_CYCLES + 1)))`, the width of `GAP_CNT` (R20): the number of binary digits of
GAP_CYCLES, the number 0 having one. -/
def Params.gapW (p : Params) : Nat := Nat.log2 p.gapCycles + 1

/-- The parameters of the machine that `State.reset` describes: free. -/
opaque Config.params : Params

/-- The inputs of cycle n where a run has scheduled none: free (R186: the schedule is an input). -/
opaque Config.inputAt : Nat → Pins

end Sys2Proof
end

