-- ==== Sys2Proof/WellFormed.lean ====
section
/-! DEFINITION. The checks the spec asks a model to make before it accepts a term: of an operation, of a Signal Table
(`40_decoder.md` R112), of the elaboration parameters (`00_scope.md` R9, R10, `41_encoder.md` R166; the check of the wire
constants is `WireFields.wf`) and of the code points of the sequencer (U18). -/

namespace Sys2Proof

/-- The eight identifiers of the Signal Table, in the order the table first names them (R61). -/
def knownIds : List CanId := [0x303#29, 0x314#29, 0x304#29, 0x301#29, 0x18F#29, 0x060#29, 0x160#29, 0x0A0#29]

/-- An operation is well formed unless it is DEC.UNKNOWN for an identifier of the table (R96). Every other operand
value is legal (R56, R101, R158). -/
def Instr.wf : Instr → Bool
  | .decUnknown id _ => !knownIds.contains id
  | _ => true

/-- Number of payload bytes of a row (R86). -/
def SRow.bytes (r : SRow) : Nat := r.hi - r.lo + 1

/-- The conditions R112 puts on one row, with the field ranges of R86. -/
def SRow.wf (r : SRow) : Bool :=
  r.lo ≤ r.hi && r.hi ≤ 7 && r.bytes ≤ 3 && 1 ≤ r.width && r.bitLo + r.width ≤ 8 * r.bytes &&
  (!r.signed || (r.kind == .num && r.bitLo == 0 && r.width == 8 * r.bytes)) && (r.dec == 0 || r.dec == 2)

/-- The first payload bit a row reads, counted over the whole payload. -/
def SRow.firstBit (r : SRow) : Nat := 8 * r.lo + r.bitLo

/-- Two rows do not clash: different identifiers, or different name or unit and disjoint bits (R112). -/
def SRow.compatible (q r : SRow) : Bool :=
  q.sigId != r.sigId &&
  (q.canId != r.canId ||
   ((q.name != r.name || q.unit != r.unit) &&
    (q.firstBit + q.width ≤ r.firstBit || r.firstBit + r.width ≤ q.firstBit)))

/-- Row numbers rise along the table, so that table order is ascending `sig_id` (R86, R110). -/
def ascending : List SRow → Bool
  | [] => true
  | r :: rest => rest.all (fun q => r.sigId < q.sigId) && ascending rest

/-- No two rows of the list clash. -/
def pairwiseCompatible : List SRow → Bool
  | [] => true
  | r :: rest => rest.all (fun q => r.compatible q) && pairwiseCompatible rest

/-- The well-formedness of a Signal Table (R112). -/
def tableWf (table : List SRow) : Bool :=
  table.all SRow.wf && ascending table && pairwiseCompatible table &&
  table.all (fun r => (table.filter fun q => q.canId == r.canId).length ≤ 4)

/-- Why parameters are refused (U4, U5). -/
inductive ParamRefusal where
  /-- `PERIOD_CYCLES = 0` (R9, U5). -/
  | periodIsZero
  /-- `IND_LEFT` or `IND_RIGHT` is 0, the code of None (R10, U4). -/
  | indicatorIsNone
  /-- `IND_LEFT = IND_RIGHT` (R10, U4). -/
  | indicatorsEqual
  /-- A `TX_LEN[k]` below the highest byte the builder of frame k writes (R166, U4). -/
  | frameTooShort
  deriving DecidableEq, Repr

/-- Which check wire constants that are refused fail first. -/
def WireFields.refusal (w : WireFields) : ParamRefusal :=
  if w.indLeft = 0#8 ∨ w.indRight = 0#8 then .indicatorIsNone
  else if w.indLeft = w.indRight then .indicatorsEqual
  else .frameTooShort

/-- The parameters of a machine from given values: the only way to a machine, refusing by name the values the spec
refuses (R9, R10, R166, U4, U5). -/
def Params.elaborate (periodCycles gapCycles : Nat) (roundTie : RoundTie) (w : WireFields) (labels : Labels) :
    Except ParamRefusal Params :=
  match periodCycles with
  | 0 => .error .periodIsZero
  | n + 1 =>
    if h : w.wf = true then .ok { periodLessOne := n, gapCycles, roundTie, wc := { w with legal := h }, labels }
    else .error w.refusal

/-- `SEQ` is WAIT, SEND or GAP (R41 (a), R103). -/
def seqLegal (seq : BitVec 2) : Bool := seq != 3#2

/-- `BURST_IDX` is at most 4 (R41 (b), R103). -/
def burstIdxLegal (idx : BitVec 3) : Bool := idx.toNat ≤ 4

end Sys2Proof
end

