-- ==== Sys2Proof/Decode.lean ====
section
/-! DEFINITION. Selecting the operation a word names (`30_encoding.md` R96 to R99), total on every word and refusing by
name, then the encoder written from the same formats, and the reading of an opcode-table word. -/

namespace Sys2Proof

/-- Why a select word names no operation. -/
inductive DecodeRefusal where
  /-- A decoder slot at or above the number of rows of the identifier: the slot holds no record (R88). -/
  | noRecordInSlot
  /-- `BURST_IDX` 5..7: no frame builder (R103). -/
  | noFrameBuilder
  /-- `SEQ` 0 or 3: no burst micro-step; 3 never occurs (R103). -/
  | noBurstStep
  /-- The condition word of TICK is not {ACTIVE, due} (R99). -/
  | tickNotDue
  /-- `rst = 0`: no reset (R250). -/
  | notReset
  deriving DecidableEq, Repr

/-! The fields of the port words. -/

/-- `cmd_op = CW[65:64]` (R83). -/
def cwOp (w : BitVec 66) : BitVec 2 := w.extractLsb' 64 2
/-- `cmd_speed = CW[63:32]` (R83). -/
def cwSpeed (w : BitVec 66) : Centi := w.extractLsb' 32 32
/-- `cmd_angle = CW[31:0]` (R83). -/
def cwAngle (w : BitVec 66) : Centi := w.extractLsb' 0 32
/-- A command word from its fields (R83). -/
def packCw (op : BitVec 2) (speed angle : Centi) : BitVec 66 := op ++ speed ++ angle

/-- `rx_id`, the low 29 bits of an inbound word; the order of the other fields is the model's (log entry 12). -/
def rxfId (w : BitVec 98) : CanId := w.extractLsb' 0 29
/-- `rx_ide`, `rx_len` and `rx_data` of an inbound word. -/
def rxfPayload (w : BitVec 98) : RxPayload :=
  { ide := w.getLsbD 29, len := w.extractLsb' 30 4, data := w.extractLsb' 34 64 }
/-- An inbound word from its fields. -/
def packRxf (id : CanId) (f : RxPayload) : BitVec 98 := f.data ++ f.len ++ BitVec.ofBool f.ide ++ id

/-- The decoder operations a frame with identifier `id` selects, in slot order (R88, R96). -/
def selectRx (id : CanId) (f : RxPayload) : List Instr :=
  if id = 0x303#29 then [.decVehicleGear f, .decDriveStateMode f, .decSpeedRequestKmh f]
  else if id = 0x314#29 then [.decDirectionAngle f, .decEpsControl f]
  else if id = 0x304#29 then [.decVehicleSpeed f, .decWheelAngle f, .decBrakePressure f]
  else if id = 0x301#29 then [.decBrakeLight f, .decHeadLight f, .decEmergencyButton f, .decTouchSwitches f]
  else if id = 0x18F#29 then [.decEpsCurrentAngle f, .decEpsTemperature f]
  else if id = 0x060#29 then [.decBusVoltage f, .decBusCurrent f]
  else if id = 0x160#29 then [.decDriveMode f, .decBrakeRequest f, .decSpeedRequestRpm f, .decTorqueRequest f]
  else if id = 0x0A0#29 then [.decBatterySoh f, .decBatterySoc f, .decBatteryVoltage f]
  else [.decUnknown id f]

/-- The frame builder `BURST_IDX` selects (R97, R165). -/
def selectTx (idx : BitVec 3) : Option Instr :=
  if idx = 0#3 then some .encF501
  else if idx = 1#3 then some .encF502
  else if idx = 2#3 then some .encF503
  else if idx = 3#3 then some .encF504
  else if idx = 4#3 then some .encF506
  else none

/-- The command a command word holds (R84, R98). -/
def selectCommand (w : BitVec 66) : Instr :=
  if cwOp w = 0#2 then .start (cwSpeed w) (cwAngle w)
  else if cwOp w = 1#2 then .update (cwSpeed w) (cwAngle w)
  else if cwOp w = 2#2 then .stop (cwSpeed w) (cwAngle w)
  else .rsvd (cwSpeed w) (cwAngle w)

/-- The pure functions, in the order of R150's pseudocode and R151 to R154. -/
def selectFn (k : BitVec 2) : Instr :=
  if k = 0#2 then .encGear else if k = 1#2 then .encInd else if k = 2#2 then .encSpdf else .encStrf

/-- The decoder of select words (R96 to R99). -/
def decode : OpWord → Except DecodeRefusal Instr
  | .rxf slot w =>
    match (selectRx (rxfId w) (rxfPayload w))[slot.toNat]? with
    | some i => .ok i
    | none => .error .noRecordInSlot
  | .txf idx =>
    match selectTx idx with
    | some i => .ok i
    | none => .error .noFrameBuilder
  | .fn k => .ok (selectFn k)
  | .cw w => .ok (selectCommand w)
  | .tick cond => if cond = 3#2 then .ok .tick else .error .tickNotDue
  | .seq phase =>
    if phase = 1#2 then .ok .burstSend
    else if phase = 2#2 then .ok .burstGap
    else .error .noBurstStep
  | .rst level => if level = 1#1 then .ok .reset else .error .notReset

/-- The operations a list of select words names, in order, or the first refusal. -/
def decodeAll : List OpWord → Except DecodeRefusal (List Instr)
  | [] => .ok []
  | w :: ws =>
    match decode w with
    | .error r => .error r
    | .ok i =>
      match decodeAll ws with
      | .error r => .error r
      | .ok is => .ok (i :: is)

/-- The select word of a well-formed operation (R83, R84, R88, R96 to R99). -/
def encode : Instr → OpWord
  | .decVehicleGear f => .rxf 0 (packRxf 0x303 f)
  | .decDriveStateMode f => .rxf 1 (packRxf 0x303 f)
  | .decSpeedRequestKmh f => .rxf 2 (packRxf 0x303 f)
  | .decDirectionAngle f => .rxf 0 (packRxf 0x314 f)
  | .decEpsControl f => .rxf 1 (packRxf 0x314 f)
  | .decVehicleSpeed f => .rxf 0 (packRxf 0x304 f)
  | .decWheelAngle f => .rxf 1 (packRxf 0x304 f)
  | .decBrakePressure f => .rxf 2 (packRxf 0x304 f)
  | .decBrakeLight f => .rxf 0 (packRxf 0x301 f)
  | .decHeadLight f => .rxf 1 (packRxf 0x301 f)
  | .decEmergencyButton f => .rxf 2 (packRxf 0x301 f)
  | .decTouchSwitches f => .rxf 3 (packRxf 0x301 f)
  | .decEpsCurrentAngle f => .rxf 0 (packRxf 0x18F f)
  | .decEpsTemperature f => .rxf 1 (packRxf 0x18F f)
  | .decBusVoltage f => .rxf 0 (packRxf 0x060 f)
  | .decBusCurrent f => .rxf 1 (packRxf 0x060 f)
  | .decDriveMode f => .rxf 0 (packRxf 0x160 f)
  | .decBrakeRequest f => .rxf 1 (packRxf 0x160 f)
  | .decSpeedRequestRpm f => .rxf 2 (packRxf 0x160 f)
  | .decTorqueRequest f => .rxf 3 (packRxf 0x160 f)
  | .decBatterySoh f => .rxf 0 (packRxf 0x0A0 f)
  | .decBatterySoc f => .rxf 1 (packRxf 0x0A0 f)
  | .decBatteryVoltage f => .rxf 2 (packRxf 0x0A0 f)
  | .decUnknown id f => .rxf 0 (packRxf id f)
  | .encF501 => .txf 0
  | .encF502 => .txf 1
  | .encF503 => .txf 2
  | .encF504 => .txf 3
  | .encF506 => .txf 4
  | .encGear => .fn 0
  | .encInd => .fn 1
  | .encSpdf => .fn 2
  | .encStrf => .fn 3
  | .start speed angle => .cw (packCw 0 speed angle)
  | .update speed angle => .cw (packCw 1 speed angle)
  | .stop speed angle => .cw (packCw 2 speed angle)
  | .rsvd speed angle => .cw (packCw 3 speed angle)
  | .tick => .tick 3
  | .burstSend => .seq 1
  | .burstGap => .seq 2
  | .reset => .rst 1

/-- The select word a word of the opcode table stands for, by its number of bits (log entry 13): none for a selector of
no bits is the first pure function; 1 bit is `rst`; 2 bits are `SEQ`, but for the value 3, which is TICK's condition
word; up to a byte is `BURST_IDX`; up to 32 bits an inbound frame; up to 72 bits a command word; more an inbound
frame with its payload. Bits the table gives no row are 0. -/
def tableOpWord (nbits w : Nat) : Option OpWord :=
  if nbits = 0 then some (.fn 0)
  else if nbits = 1 then some (.rst (BitVec.ofNat 1 w))
  else if nbits = 2 then (if w = 3 then some (.tick 3) else some (.seq (BitVec.ofNat 2 w)))
  else if nbits ≤ 8 then (if w < 8 then some (.txf (BitVec.ofNat 3 w)) else none)
  else if nbits ≤ 32 then some (.rxf 0 (BitVec.ofNat 98 w))
  else if nbits ≤ 72 then (if w < 2 ^ 66 then some (.cw (BitVec.ofNat 66 w)) else none)
  else some (.rxf 0 (BitVec.ofNat 98 w))

/-- The operation the decoder reads from a word of the opcode table. -/
def decodeTableWord (nbits w : Nat) : Option Instr :=
  match tableOpWord nbits w with
  | none => none
  | some op =>
    match decode op with
    | .ok i => some i
    | .error _ => none

end Sys2Proof
end

