-- ==== Sys2Proof/Machine/State.lean ====
section
/-! DEFINITION. The state of the core as plain data: the registers of `10_state.md` R20, the elaboration parameters, the
input ports, the outputs of the cycle last run, and the log of frames taken; the reset state (R42, R251); the
reasons a step can stop. -/

namespace Sys2Proof.Machine

/-- `ST`: the scheduler's two states (R24). -/
inductive SchedState where
  | idle | active
  deriving DecidableEq, Repr, Inhabited

/-- The code points of `SEQ` (R20); 3 never occurs (R103). -/
abbrev seqWait : BitVec 2 := 0#2
abbrev seqSend : BitVec 2 := 1#2
abbrev seqGap : BitVec 2 := 2#2

/-- The registers of the core, all of them (R20). -/
structure Regs where
  /-- `CMD_SPEED`, `CMD_ANGLE`: the stored command (R21). -/
  cmdSpeed : Centi
  cmdAngle : Centi
  /-- `BCMD_SPEED`, `BCMD_ANGLE`: the command the current burst encodes (R22). -/
  bcmdSpeed : Centi
  bcmdAngle : Centi
  /-- `ST` (R24). -/
  st : SchedState
  /-- `SEQ` (R24). -/
  seq : BitVec 2
  /-- `BURST_IDX` (R24). -/
  burstIdx : BitVec 3
  /-- `TIMER`, cycles left to the next tick (R28), a register of `Params.timerW` bits (R20; log entry 7). -/
  timer : Nat
  /-- `GAP_CNT`, cycles left in the current gap (R29), a register of `Params.gapW` bits (R20; log entry 7). -/
  gapCnt : Nat
  /-- `TICK_PEND` (R30). -/
  tickPend : Bool
  /-- `FLAGS` (R27). -/
  flags : BitVec 5
  deriving DecidableEq, Repr

/-- The two registers whose width depends on the parameters hold values of that width (R20). -/
def Regs.fits (p : Params) (r : Regs) : Bool := r.timer < 2 ^ p.timerW && r.gapCnt < 2 ^ p.gapW

/-- `err` of a record (R88, R220): 0 OK, 1 ENUM_OOB, 2 SHORT. -/
inductive DecodeError where
  | ok | enumOob | short
  deriving DecidableEq, Repr, Inhabited

/-- One record slot of `DREC` (R88). -/
structure Slot where
  v : Bool
  sigId : BitVec 5
  kind : RowKind
  /-- `val`, an `s_32` integer. -/
  val : BitVec 32
  dec : BitVec 2
  err : DecodeError
  deriving DecidableEq, Repr

/-- A slot with `v = 0`: all other fields 0 (R88). -/
def Slot.empty : Slot := { v := false, sigId := 0, kind := .num, val := 0, dec := 0, err := .ok }

/-- The decoder's output port (R88). -/
structure DecOut where
  valid : Bool
  known : Bool
  count : BitVec 3
  slot0 : Slot
  slot1 : Slot
  slot2 : Slot
  slot3 : Slot
  deriving DecidableEq, Repr

/-- The wires of one record slot, with the widths of R88. -/
structure SlotWires where
  v : BitVec 1
  sigId : BitVec 5
  kind : BitVec 2
  val : BitVec 32
  dec : BitVec 2
  err : BitVec 2
  deriving DecidableEq, Repr

/-- The wires of the decoder's output port, with the widths of R88. -/
structure DecWires where
  decValid : BitVec 1
  decKnown : BitVec 1
  decCount : BitVec 3
  slot0 : SlotWires
  slot1 : SlotWires
  slot2 : SlotWires
  slot3 : SlotWires
  deriving DecidableEq, Repr

/-- The decoder's outputs when `rx_valid = 0` (R143). -/
def DecOut.none : DecOut :=
  { valid := false, known := false, count := 0, slot0 := .empty, slot1 := .empty, slot2 := .empty, slot3 := .empty }

/-- The results of the pure encoder functions in one cycle: wires, no registers (R33; log entries 3 and 16). -/
structure EncOut where
  gear : Option Gear
  ind : Option Indicator
  spdf : Option Int
  strf : Option Int
  deriving DecidableEq, Repr

/-- The encoder is not evaluated in this cycle. -/
def EncOut.none : EncOut := { gear := Option.none, ind := Option.none, spdf := Option.none, strf := Option.none }

/-- An outbound frame, the fields of `TXF` (R82). -/
structure TxFrame where
  id : CanId
  ide : Bool
  len : BitVec 4
  data : Bus
  deriving DecidableEq, Repr

structure State where
  /-- The elaboration parameters; no operation writes them (R31; log entry 4). -/
  params : Params
  /-- The registers of R20. -/
  regs : Regs
  /-- The input ports in the current cycle (log entry 2). -/
  pins : Pins
  /-- The inputs of the following cycles, as far as they are scheduled (log entry 2). -/
  env : List Pins
  /-- The number of the current cycle (log entry 2). -/
  cycle : Nat
  /-- The decoder's output port in the cycle last run (R88; log entry 3). -/
  dec : DecOut
  /-- The encoder's wires in the cycle last run (log entry 3). -/
  enc : EncOut
  /-- The outbound port in the cycle last run; none is `tx_valid = 0` (R82; log entry 3). -/
  tx : Option TxFrame
  /-- The frames taken by the transport, oldest first (R8, R199). -/
  log : List TxFrame
  deriving DecidableEq, Repr

/-- Stops of the machine. The spec's own conditions never stop it (R230); these two stand where the spec refuses a
code point as a start state (U18; log entry 8). Both are safe: the model stops where the spec gives no behaviour. -/
inductive Fault where
  /-- `SEQ = 3`, raised by `step` (R103). Safe. -/
  | illegalSequencerCode
  /-- `BURST_IDX` 5..7 while a burst is in progress, raised by `step`, BURST.SEND and BURST.GAP (R103). Safe. -/
  | illegalBurstIndex
  deriving DecidableEq, Repr

/-- Refusals. All are safe: the model answers nothing where the spec gives no effect. -/
inductive Refusal where
  /-- An operation with no meaning yet: no arm of `exec` answers so in this model. Safe. -/
  | notModelled (mnemonic : String)
  /-- TICK, BURST.SEND or BURST.GAP executed in a state in which the event cannot happen (R184, R199, R200; log
  entry 10); raised by those three meanings and never reached by `step`. Safe. -/
  | notEnabled
  /-- A select word that names no operation; `step` fetches none (R96 to R99). Safe. -/
  | badSelectWord
  deriving DecidableEq, Repr

/-- Every register at its reset value (R42). -/
def Regs.reset : Regs :=
  { cmdSpeed := 0, cmdAngle := 0, bcmdSpeed := 0, bcmdAngle := 0, st := .idle, seq := seqWait, burstIdx := 0,
    timer := 0, gapCnt := 0, tickPend := false, flags := 0 }

/-- The machine right after reset (R42, R251): the registers at their reset values, an empty frame log, free parameters
and free inputs (log entries 2, 3, 4). -/
def State.reset : State :=
  { params := Config.params, regs := Regs.reset, pins := Config.inputAt 0, env := [], cycle := 0,
    dec := .none, enc := .none, tx := none, log := [] }

/-! The updates of a state; their field lemmas are in `Laws/State.lean`. -/

def State.withRegs (s : State) (r : Regs) : State := { s with regs := r }
def State.withPins (s : State) (p : Pins) : State := { s with pins := p }
def State.withDec (s : State) (d : DecOut) : State := { s with dec := d }
def State.withEnc (s : State) (e : EncOut) : State := { s with enc := e }
def State.withTx (s : State) (f : Option TxFrame) : State := { s with tx := f }
/-- The transport takes a frame: it enters the log (R199). -/
def State.logged (s : State) (f : TxFrame) : State := { s with log := s.log ++ [f] }

end Sys2Proof.Machine
end

