-- ==== Sys2Proof/Machine/Operands.lean ====
section
/-! DEFINITION. Payload access (`20_memory.md`), field assembly (`30_encoding.md` R92 to R95), rounding (R14) and the
pure functions of the encoder (`41_encoder.md` R151 to R156). -/

namespace Sys2Proof.Machine

/-! Bytes of a payload. -/

/-- Payload byte i of a data bus: bits 8i+7..8i (R12). -/
def byteAt (d : Bus) (i : Nat) : Byte := d.extractLsb' (8 * i) 8

/-- The data bus whose byte i is `f i` (R12). -/
def busOf (f : Nat → Byte) : Bus := f 7 ++ f 6 ++ f 5 ++ f 4 ++ f 3 ++ f 2 ++ f 1 ++ f 0

/-- `MemRead(lo, n)`: n payload bytes from index lo, little-endian, as an unsigned integer (R16, R52). -/
def memRead (d : Bus) (lo : Nat) : Nat → Nat
  | 0 => 0
  | n + 1 => (byteAt d lo).toNat + 256 * memRead d (lo + 1) n

/-- `MemWrite(f, i, n, v)`: bytes i..i+n-1 become the little-endian bytes of v, n in 1..2 (R16, R54). -/
def memWrite (d : Bus) (i n : Nat) (v : BitVec 16) : Bus :=
  busOf fun j => if i ≤ j ∧ j < i + n then v.extractLsb' (8 * (j - i)) 8 else byteAt d j

/-- `eff_len = min(rx_len, 8)` (R56). -/
def effLen (len : BitVec 4) : Nat := min len.toNat 8

/-! Fields of a Signal Table row. -/

/-- Number of payload bytes of a row, `hi - lo + 1` (R86, R92). -/
def rowBytes (r : SRow) : Nat := r.hi - r.lo + 1

/-- The field of a row: reassemble little-endian, shift, then mask (R92). -/
def fieldOf (r : SRow) (d : Bus) : Nat := (memRead d r.lo (rowBytes r) >>> r.bitLo) &&& (2 ^ r.width - 1)

/-- `sext(f)` at width w: two's complement of the field's own width (R13, R93). -/
def sextField (w f : Nat) : Int := if f < 2 ^ (w - 1) then (f : Int) else (f : Int) - 2 ^ w

/-- `fs` of a row: sign-extended where the row is signed (R93). -/
def signedField (r : SRow) (f : Nat) : Int := if r.signed then sextField r.width f else (f : Int)

/-- The linear transform, an exact integer in output units (R94). -/
def linear (r : SRow) (fs : Int) : Int := fs * r.mul + r.add

/-! Rounding and truncation. -/

/-- `rdiv10(n)`: n / 10 to the nearest integer, ties by `ROUND_TIE`, with the sign of n (R14). -/
def rdiv10 (tie : RoundTie) (n : Int) : Int :=
  let q := n.natAbs / 10
  let r := n.natAbs % 10
  let m : Nat :=
    if r < 5 then q
    else if 5 < r then q + 1
    else
      match tie with
      | .halfAway => q + 1
      | .halfEven => if q % 2 = 0 then q else q + 1
  if n < 0 then -(m : Int) else (m : Int)

/-- `trunc_16(n) = n mod 2^16`, the field placed in a frame (R13, R156). -/
def trunc16 (n : Int) : BitVec 16 := BitVec.ofInt 16 n

/-! The field functions of the encoder. -/

/-- `GEAR(speed_c, angle_c)`: the three tests in order, on the exact integers (R151). -/
def gearOf (speed angle : Centi) : Gear :=
  if speed.toInt < 0 then .reverse
  else if speed.toInt = 0 ∧ angle.toInt = 0 then .neutral
  else .drive

/-- `IND(angle_c)`: strict sign test, no dead-band (R152; `90_conflicts.md` C2). -/
def indicatorOf (angle : Centi) : Indicator :=
  if angle.toInt < 0 then .right
  else if 0 < angle.toInt then .left
  else .none

/-- `SPDF(speed_c) = rdiv10(abs(speed_c))`, before truncation (R153). -/
def spdf (tie : RoundTie) (speed : Centi) : Int := rdiv10 tie (speed.toInt.natAbs : Int)

/-- `STRF(angle_c) = rdiv10(angle_c + 3000)`, before truncation and without wrap (R154). -/
def strf (tie : RoundTie) (angle : Centi) : Int := rdiv10 tie (angle.toInt + 3000)

/-- `WC.GEAR_CODE[g]` (R10). -/
def gearCode (w : WireConstants) : Gear → Byte
  | .park => w.gearPark
  | .drive => w.gearDrive
  | .neutral => w.gearNeutral
  | .reverse => w.gearReverse

/-- The indicator code: 0 for None (R10, R164). -/
def indicatorCode (w : WireConstants) : Indicator → Byte
  | .none => 0#8
  | .left => w.indLeft
  | .right => w.indRight

end Sys2Proof.Machine
end

