-- ==== Sys2Proof/Machine/Flags.lean ====
section
/-! DEFINITION. The sticky flags (`10_state.md` R27, `60_exceptions.md` R220, R232) and the conditions the scheduler
computes for them (`41_encoder.md` R156, `42_scheduler.md` R206). -/

namespace Sys2Proof.Machine

/-- The five flags (R27). -/
inductive FlagBit where
  | txErr | illCmd | spdOvf | strOvf | cmdIgn
  deriving DecidableEq, Repr

/-- The bit of `FLAGS` a flag is (R27). -/
def flagIndex : FlagBit → Nat
  | .txErr => 0
  | .illCmd => 1
  | .spdOvf => 2
  | .strOvf => 3
  | .cmdIgn => 4

/-- Read one flag of `FLAGS`. -/
def flagSet (flags : BitVec 5) (b : FlagBit) : Bool := flags.getLsbD (flagIndex b)

/-- `flag F`: the one way a reported condition is taken, `FLAGS.F <- 1`, sticky (R16, R230, R232). Nothing clears a
flag but reset, and there is no return operation (R232). -/
def raiseFlag (b : FlagBit) (flags : BitVec 5) : BitVec 5 := flags ||| (1#5 <<< flagIndex b)

/-- `flag F` if a condition holds. -/
def raiseFlagIf (c : Bool) (b : FlagBit) (flags : BitVec 5) : BitVec 5 := if c then raiseFlag b flags else flags

/-- The overflow condition of an untruncated field: `X < 0 or X > 65535` (R156). -/
def fieldOverflows (x : Int) : Bool := x < 0 || 65535 < x

/-- The flags after a burst begins with the command `(speed, angle)` (R206). -/
def overflowFlags (tie : RoundTie) (speed angle : Centi) (flags : BitVec 5) : BitVec 5 :=
  raiseFlagIf (fieldOverflows (strf tie angle)) .strOvf
    (raiseFlagIf (fieldOverflows (spdf tie speed)) .spdOvf flags)

end Sys2Proof.Machine
end

