-- ==== Sys2Proof/Machine/SignalTable.lean ====
section
/-! DEFINITION. The Signal Table, a constant of the design (`10_state.md` R32, `40_decoder.md` R111): 23 rows over eight
identifiers, each row with the rule that gives it. Fields a kind does not use are 0 (R86). -/

namespace Sys2Proof.Machine

/-- An ENUM row: a masked field that indexes a table of four labels (R87, R111). -/
def enumRow (sigId : Nat) (canId : CanId) (name : String) (byte bitLo width : Nat) : SRow :=
  { sigId, canId, name, unit := "", kind := .enum, lo := byte, hi := byte, bitLo, width, signed := false,
    mul := 0, add := 0, dec := 0, enumLen := 4 }

/-- A FLAG row: the field's bits as they are (R87). -/
def flagRow (sigId : Nat) (canId : CanId) (name : String) (byte bitLo width : Nat) : SRow :=
  { sigId, canId, name, unit := "", kind := .flag, lo := byte, hi := byte, bitLo, width, signed := false,
    mul := 0, add := 0, dec := 0, enumLen := 0 }

/-- A NUM row: whole bytes lo..hi under a linear transform (R87, R92, R94). -/
def numRow (sigId : Nat) (canId : CanId) (name unit : String) (lo hi : Nat) (signed : Bool) (mul add : Int)
    (dec : Nat) : SRow :=
  { sigId, canId, name, unit, kind := .num, lo, hi, bitLo := 0, width := 8 * (hi - lo + 1), signed, mul, add, dec,
    enumLen := 0 }

/-- R117. -/
def rowVehicleGear : SRow := enumRow 0 0x303#29 "Vehicle Gear" 0 0 2
/-- R118. -/
def rowDriveStateMode : SRow := enumRow 1 0x303#29 "Drive State Mode" 1 0 2
/-- R119. -/
def rowSpeedRequestKmh : SRow := numRow 2 0x303#29 "Speed Request" "km/h" 2 3 false 10 (-8000) 2
/-- R120. -/
def rowDirectionAngle : SRow := numRow 3 0x314#29 "Direction Angle" "deg" 1 2 false 1 0 0
/-- R121. -/
def rowEpsControl : SRow := flagRow 4 0x314#29 "EPS Control" 0 0 1
/-- R122. -/
def rowVehicleSpeed : SRow := numRow 5 0x304#29 "Vehicle Speed" "km/h" 0 1 false 10 (-8000) 2
/-- R123. -/
def rowWheelAngle : SRow := numRow 6 0x304#29 "Wheel Angle" "deg" 4 5 false 10 (-3500) 2
/-- R124. -/
def rowBrakePressure : SRow := numRow 7 0x304#29 "Brake Pressure" "MPa" 2 3 false 1 0 2
/-- R125. -/
def rowBrakeLight : SRow := flagRow 8 0x301#29 "Brake Light" 5 0 1
/-- R126. -/
def rowHeadLight : SRow := flagRow 9 0x301#29 "Head Light" 1 7 1
/-- R127. -/
def rowEmergencyButton : SRow := flagRow 10 0x301#29 "Emergency Button" 0 0 1
/-- R128. -/
def rowTouchSwitches : SRow := flagRow 11 0x301#29 "Touch Switches" 1 4 2
/-- R129. -/
def rowEpsCurrentAngle : SRow := numRow 12 0x18F#29 "EPS Current Angle" "deg" 1 2 true 1 0 0
/-- R130. -/
def rowEpsTemperature : SRow := numRow 13 0x18F#29 "EPS Temperature" "°C" 6 6 true 1 0 0
/-- R131. -/
def rowBusVoltage : SRow := numRow 14 0x060#29 "Bus Voltage" "V" 0 1 false 10 0 2
/-- R132. -/
def rowBusCurrent : SRow := numRow 15 0x060#29 "Bus Current" "A" 2 3 false 10 (-100000) 2
/-- R133. -/
def rowDriveMode : SRow := enumRow 16 0x160#29 "Drive Mode" 0 1 2
/-- R134. -/
def rowBrakeRequest : SRow := flagRow 17 0x160#29 "Brake Request" 0 3 1
/-- R135. -/
def rowSpeedRequestRpm : SRow := numRow 18 0x160#29 "Speed Request" "RPM" 3 5 false 1 (-7000) 0
/-- R136. -/
def rowTorqueRequest : SRow := numRow 19 0x160#29 "Torque Request" "Nm" 1 2 false 10 (-100000) 2
/-- R137. -/
def rowBatterySoh : SRow := numRow 20 0x0A0#29 "Battery SOH" "%" 7 7 false 1 0 0
/-- R138. -/
def rowBatterySoc : SRow := numRow 21 0x0A0#29 "Battery SOC" "%" 4 4 false 40 0 2
/-- R139. -/
def rowBatteryVoltage : SRow := numRow 22 0x0A0#29 "Battery Voltage" "V" 2 3 false 10 0 2

/-- The Signal Table in ascending `sig_id` (R111). -/
def signalTable : List SRow :=
  [rowVehicleGear, rowDriveStateMode, rowSpeedRequestKmh, rowDirectionAngle,
   rowEpsControl, rowVehicleSpeed, rowWheelAngle, rowBrakePressure,
   rowBrakeLight, rowHeadLight, rowEmergencyButton, rowTouchSwitches,
   rowEpsCurrentAngle, rowEpsTemperature, rowBusVoltage, rowBusCurrent,
   rowDriveMode, rowBrakeRequest, rowSpeedRequestRpm, rowTorqueRequest,
   rowBatterySoh, rowBatterySoc, rowBatteryVoltage]

/-- The rows of one identifier, in table order, which is ascending `sig_id` (R110). -/
def rowsOf (table : List SRow) (id : CanId) : List SRow := table.filter fun r => r.canId == id

/-- `dec_count`: the number of rows of an identifier (R88). -/
def rowCount (table : List SRow) (id : CanId) : BitVec 3 := BitVec.ofNat 3 (rowsOf table id).length

end Sys2Proof.Machine
end

