-- ==== Sys2Proof/Machine/Ops.lean ====
section
/-! DEFINITION. The shared operations: decoding one row and driving its slot, reporting an exceptional condition, the
frame builders, and the register transfers of one clock edge of the scheduler. -/

namespace Sys2Proof.Machine

/-! ## The exceptional conditions of the decoder -/

/-- The record of a row before any test: `v`, `sig_id`, `kind` and `dec` of the row (R113, R221). -/
def openRecord (r : SRow) : Slot :=
  { v := true, sigId := BitVec.ofNat 5 r.sigId, kind := r.kind, val := 0,
    dec := if r.kind = .num then BitVec.ofNat 2 r.dec else 0, err := .ok }

/-- `raise DecodeError(k)`: the record gets `err = k` and `val = 0`, and nothing else changes (R16, R113, R221). -/
def raiseDecodeError (k : DecodeError) (rec : Slot) : Slot := { rec with err := k, val := 0 }

/-- `rec.val <- n; rec.err <- OK` (R113). -/
def deliver (n : Int) (rec : Slot) : Slot := { rec with val := BitVec.ofInt 32 n, err := .ok }

/-! ## Decoding -/

/-- `DECODE_ROW(r, eff_len, data)` (R113): SHORT is tested before extraction, ENUM_OOB after (R229). -/
def decodeRow (r : SRow) (len : Nat) (d : Bus) : Slot :=
  if len ≤ r.hi then raiseDecodeError .short (openRecord r)
  else
    match r.kind with
    | .num => deliver (linear r (signedField r (fieldOf r d))) (openRecord r)
    | .enum =>
      if r.enumLen ≤ fieldOf r d then raiseDecodeError .enumOob (openRecord r)
      else deliver (fieldOf r d : Int) (openRecord r)
    | .flag => deliver (fieldOf r d : Int) (openRecord r)

/-- Slot k of `DECODE`: the record of the k-th row of the identifier, or all zero (R110). -/
def decodeSlot (rows : List SRow) (k : Nat) (f : RxPayload) : Slot :=
  match rows[k]? with
  | some r => decodeRow r (effLen f.len) f.data
  | none => .empty

/-- `DECODE(rx_id, rx_len, rx_data)` over a Signal Table (R104, R110). -/
def decodeFrame (table : List SRow) (id : CanId) (f : RxPayload) : DecOut :=
  { valid := true, known := !(rowsOf table id).isEmpty, count := rowCount table id,
    slot0 := decodeSlot (rowsOf table id) 0 f, slot1 := decodeSlot (rowsOf table id) 1 f,
    slot2 := decodeSlot (rowsOf table id) 2 f, slot3 := decodeSlot (rowsOf table id) 3 f }

/-- Slot k of the port, k in 0..3; above 3 there is none. -/
def slotAt (d : DecOut) : Nat → Slot
  | 0 => d.slot0
  | 1 => d.slot1
  | 2 => d.slot2
  | 3 => d.slot3
  | _ => .empty

/-- Drive slot k of the port. -/
def setSlot (d : DecOut) (k : Nat) (x : Slot) : DecOut :=
  match k with
  | 0 => { d with slot0 := x }
  | 1 => { d with slot1 := x }
  | 2 => { d with slot2 := x }
  | 3 => { d with slot3 := x }
  | _ => d

/-- One row operation: drive slot k of the decoder's port with the row's record, and the summary outputs of its
identifier (R88, R113). -/
def publishRow (r : SRow) (k : Nat) (f : RxPayload) (s : State) : State :=
  s.withDec { setSlot s.dec k (decodeRow r (effLen f.len) f.data) with
    valid := true, known := true, count := rowCount signalTable r.canId }

/-- The empty result of an unknown identifier (R100, R116). -/
def publishUnknown (s : State) : State := s.withDec { DecOut.none with valid := true }

/-- The code of a kind on the port: 0 NUM, 1 ENUM, 2 FLAG (R88). -/
def kindCode : RowKind → BitVec 2
  | .num => 0#2
  | .enum => 1#2
  | .flag => 2#2

/-- The code of an error on the port: 0 OK, 1 ENUM_OOB, 2 SHORT (R88, R220). -/
def errCode : DecodeError → BitVec 2
  | .ok => 0#2
  | .enumOob => 1#2
  | .short => 2#2

/-- A record slot as its wires carry it (R88). -/
def slotWires (x : Slot) : SlotWires :=
  { v := BitVec.ofBool x.v, sigId := x.sigId, kind := kindCode x.kind, val := x.val, dec := x.dec,
    err := errCode x.err }

/-- The decoder's port as its wires carry it (R88). -/
def decWires (d : DecOut) : DecWires :=
  { decValid := BitVec.ofBool d.valid, decKnown := BitVec.ofBool d.known, decCount := d.count,
    slot0 := slotWires d.slot0, slot1 := slotWires d.slot1, slot2 := slotWires d.slot2, slot3 := slotWires d.slot3 }

/-! ## Building frames (`41_encoder.md` section 4) -/

/-- The steering field FA of a command (R150, R154, R156). -/
def steeringField (p : Params) (angle : Centi) : BitVec 16 := trunc16 (strf p.roundTie angle)

/-- The speed field FS of a command (R150, R153, R156). -/
def speedField (p : Params) (speed : Centi) : BitVec 16 := trunc16 (spdf p.roundTie speed)

/-- `F501` (R160). -/
def buildF501 (p : Params) : TxFrame :=
  { id := 0x501, ide := p.wc.txIde, len := p.wc.txLen0, data := p.wc.tpl501 }

/-- `F502(FA)` (R161). -/
def buildF502 (p : Params) (angle : Centi) : TxFrame :=
  { id := 0x502, ide := p.wc.txIde, len := p.wc.txLen1, data := memWrite p.wc.tpl502 4 2 (steeringField p angle) }

/-- `F503` (R162). -/
def buildF503 (p : Params) : TxFrame :=
  { id := 0x503, ide := p.wc.txIde, len := p.wc.txLen2, data := p.wc.tpl503 }

/-- `F504(g, FS)` (R163). -/
def buildF504 (p : Params) (speed angle : Centi) : TxFrame :=
  { id := 0x504, ide := p.wc.txIde, len := p.wc.txLen3,
    data := memWrite (memWrite p.wc.tpl504 3 1 ((gearCode p.wc (gearOf speed angle)).zeroExtend 16)) 6 2
      (speedField p speed) }

/-- `F506(i)` (R164). -/
def buildF506 (p : Params) (angle : Centi) : TxFrame :=
  { id := 0x506, ide := p.wc.txIde, len := p.wc.txLen4,
    data := memWrite p.wc.tpl506 0 1 ((indicatorCode p.wc (indicatorOf angle)).zeroExtend 16) }

/-- `ENCODE(speed_c, angle_c)`: the five frames in send order (R150, R165; `90_conflicts.md` C1). -/
def encodeSet (p : Params) (speed angle : Centi) : List TxFrame :=
  [buildF501 p, buildF502 p angle, buildF503 p, buildF504 p speed angle, buildF506 p angle]

/-- The frame at burst index k of `ENCODE` (R97, R199); none for the indices that never occur (R103). -/
def frameAt (p : Params) (speed angle : Centi) (idx : BitVec 3) : Option TxFrame :=
  (encodeSet p speed angle)[idx.toNat]?

/-- `BURST_IDX` names one of the five frames (R25, R103). -/
def frameIndexOk (idx : BitVec 3) : Bool := idx.toNat < 5

/-- `SEQ` is WAIT, SEND or GAP (R103). -/
def phaseOk (seq : BitVec 2) : Bool := seq.toNat < 3

/-- Drive the outbound port with a frame: `tx_valid = 1` (R82, R199). -/
def offer (f : TxFrame) (s : State) : State := s.withTx (some f)

/-! ## The clock edge of the scheduler (`42_scheduler.md` section 2) -/

/-- `tick_now`: the cycle with `TIMER = 1` in ACTIVE (R190, R191). -/
def tickNow (r : Regs) : Bool := r.st == .active && r.timer == 1

/-- `pend` (R190, R205). -/
def pendOf (r : Regs) : Bool := r.tickPend || tickNow r

/-- `n - 1` in a register of w bits: 0 goes to the greatest value (R13, R20; log entry 7). -/
def decrement (w n : Nat) : Nat := (n + (2 ^ w - 1)) % 2 ^ w

/-- `TIMER'` in a cycle without an accepted START (R191). -/
def timerNext (p : Params) (r : Regs) : Nat :=
  match r.st with
  | .idle => r.timer
  | .active => if r.timer = 1 then p.period else decrement p.timerW r.timer

/-- What every cycle without a START, an effective STOP or a serviced tick does to the trigger: the timer counts and
`TICK_PEND <- pend` (R191, R205). -/
def countCycle (p : Params) (r : Regs) : Regs := { r with timer := timerNext p r, tickPend := pendOf r }

/-- Burst begin with the command `(speed, angle)` (R197, R206). -/
def burstBegin (p : Params) (speed angle : Centi) (r : Regs) : Regs :=
  { r with seq := seqSend, burstIdx := 0, bcmdSpeed := speed, bcmdAngle := angle,
           flags := overflowFlags p.roundTie speed angle r.flags }

/-- After frame `BURST_IDX` and its gap: the next frame, or burst end (R200, R201, R202). -/
def nextFrame (r : Regs) : Regs :=
  if r.burstIdx = 4#3 then { r with seq := seqWait } else { r with seq := seqSend, burstIdx := r.burstIdx + 1#3 }

/-- The transport takes the offered frame: TXERR on a failed send, then the gap, or the next frame where there is none
(R199, R202). -/
def frameTaken (p : Params) (err : Bool) (r : Regs) : Regs :=
  let r := { r with flags := raiseFlagIf err .txErr r.flags }
  if 0 < p.gapCycles then { r with seq := seqGap, gapCnt := p.gapCycles } else nextFrame r

/-- One cycle of a gap (R200). -/
def gapStep (p : Params) (r : Regs) : Regs :=
  if r.gapCnt = 1 then nextFrame r else { r with gapCnt := decrement p.gapW r.gapCnt }

/-- `START` accepted (R193): the tick of the same cycle is dropped. -/
def acceptStart (p : Params) (speed angle : Centi) (r : Regs) : Regs :=
  burstBegin p speed angle
    { r with cmdSpeed := speed, cmdAngle := angle, st := .active, timer := p.period, tickPend := false }

/-- `UPDATE` accepted (R194): the tick of the same cycle is kept pending. -/
def acceptUpdate (p : Params) (speed angle : Centi) (r : Regs) : Regs :=
  match r.st with
  | .active => { countCycle p r with cmdSpeed := speed, cmdAngle := angle }
  | .idle => { countCycle p r with flags := raiseFlag .cmdIgn r.flags }

/-- `STOP` accepted (R195): in ACTIVE the zero command is sent and every tick is cancelled. -/
def acceptStop (p : Params) (r : Regs) : Regs :=
  match r.st with
  | .active => burstBegin p 0 0 { r with st := .idle, timer := timerNext p r, tickPend := false }
  | .idle => { countCycle p r with flags := raiseFlag .cmdIgn r.flags }

/-- `RSVD` accepted (R204). -/
def acceptRsvd (p : Params) (r : Regs) : Regs := { countCycle p r with flags := raiseFlag .illCmd r.flags }

/-- A tick is serviced (R198). -/
def serviceTick (p : Params) (r : Regs) : Regs :=
  burstBegin p r.cmdSpeed r.cmdAngle { r with timer := timerNext p r, tickPend := false }

/-- `cmd_ready = (SEQ = WAIT)` (R196). -/
def cmdReady (r : Regs) : Bool := r.seq == seqWait

/-- A command operation: its register transfer if the port is ready, and no effect while it is held (R196, R222 (d)). -/
def commandOp (accept : Regs → Regs) (s : State) : State :=
  if cmdReady s.regs then s.withRegs (accept s.regs) else s

/-- The reset edge: every register takes its reset value, nothing else of the cycle has effect (R42, R250). -/
def resetEdge (s : State) : State := s.withRegs Regs.reset

end Sys2Proof.Machine
end

