-- ==== Sys2Proof/Machine/Decoder.lean ====
section
/-! DEFINITION. The decoder family (`40_decoder.md`): one meaning per row of the Signal Table, each the row's instance of
`DECODE_ROW` in its slot (R88, R113), and the empty result of an unknown identifier. No row reads or writes a register
(R32), and the only errors are those of the record itself (R114, R115). -/

namespace Sys2Proof.Machine

/-- The outcome of an operation of this model. -/
abbrev Result := Host.Outcome State Fault Refusal

/-- `DEC.VEHICLE_GEAR` (R117), slot 0 of identifier 0x303. -/
def execDecVehicleGear (f : RxPayload) (s : State) : Result := .next (publishRow rowVehicleGear 0 f s)

/-- `DEC.DRIVE_STATE_MODE` (R118), slot 1 of identifier 0x303. -/
def execDecDriveStateMode (f : RxPayload) (s : State) : Result := .next (publishRow rowDriveStateMode 1 f s)

/-- `DEC.SPEED_REQUEST_KMH` (R119), slot 2 of identifier 0x303. -/
def execDecSpeedRequestKmh (f : RxPayload) (s : State) : Result := .next (publishRow rowSpeedRequestKmh 2 f s)

/-- `DEC.DIRECTION_ANGLE` (R120), slot 0 of identifier 0x314. -/
def execDecDirectionAngle (f : RxPayload) (s : State) : Result := .next (publishRow rowDirectionAngle 0 f s)

/-- `DEC.EPS_CONTROL` (R121), slot 1 of identifier 0x314. -/
def execDecEpsControl (f : RxPayload) (s : State) : Result := .next (publishRow rowEpsControl 1 f s)

/-- `DEC.VEHICLE_SPEED` (R122), slot 0 of identifier 0x304. -/
def execDecVehicleSpeed (f : RxPayload) (s : State) : Result := .next (publishRow rowVehicleSpeed 0 f s)

/-- `DEC.WHEEL_ANGLE` (R123), slot 1 of identifier 0x304. -/
def execDecWheelAngle (f : RxPayload) (s : State) : Result := .next (publishRow rowWheelAngle 1 f s)

/-- `DEC.BRAKE_PRESSURE` (R124), slot 2 of identifier 0x304. -/
def execDecBrakePressure (f : RxPayload) (s : State) : Result := .next (publishRow rowBrakePressure 2 f s)

/-- `DEC.BRAKE_LIGHT` (R125), slot 0 of identifier 0x301. -/
def execDecBrakeLight (f : RxPayload) (s : State) : Result := .next (publishRow rowBrakeLight 0 f s)

/-- `DEC.HEAD_LIGHT` (R126), slot 1 of identifier 0x301. -/
def execDecHeadLight (f : RxPayload) (s : State) : Result := .next (publishRow rowHeadLight 1 f s)

/-- `DEC.EMERGENCY_BUTTON` (R127), slot 2 of identifier 0x301. -/
def execDecEmergencyButton (f : RxPayload) (s : State) : Result := .next (publishRow rowEmergencyButton 2 f s)

/-- `DEC.TOUCH_SWITCHES` (R128), slot 3 of identifier 0x301. -/
def execDecTouchSwitches (f : RxPayload) (s : State) : Result := .next (publishRow rowTouchSwitches 3 f s)

/-- `DEC.EPS_CURRENT_ANGLE` (R129), slot 0 of identifier 0x18F. -/
def execDecEpsCurrentAngle (f : RxPayload) (s : State) : Result := .next (publishRow rowEpsCurrentAngle 0 f s)

/-- `DEC.EPS_TEMPERATURE` (R130), slot 1 of identifier 0x18F. -/
def execDecEpsTemperature (f : RxPayload) (s : State) : Result := .next (publishRow rowEpsTemperature 1 f s)

/-- `DEC.BUS_VOLTAGE` (R131), slot 0 of identifier 0x060. -/
def execDecBusVoltage (f : RxPayload) (s : State) : Result := .next (publishRow rowBusVoltage 0 f s)

/-- `DEC.BUS_CURRENT` (R132), slot 1 of identifier 0x060. -/
def execDecBusCurrent (f : RxPayload) (s : State) : Result := .next (publishRow rowBusCurrent 1 f s)

/-- `DEC.DRIVE_MODE` (R133), slot 0 of identifier 0x160. -/
def execDecDriveMode (f : RxPayload) (s : State) : Result := .next (publishRow rowDriveMode 0 f s)

/-- `DEC.BRAKE_REQUEST` (R134), slot 1 of identifier 0x160. -/
def execDecBrakeRequest (f : RxPayload) (s : State) : Result := .next (publishRow rowBrakeRequest 1 f s)

/-- `DEC.SPEED_REQUEST_RPM` (R135), slot 2 of identifier 0x160. -/
def execDecSpeedRequestRpm (f : RxPayload) (s : State) : Result := .next (publishRow rowSpeedRequestRpm 2 f s)

/-- `DEC.TORQUE_REQUEST` (R136), slot 3 of identifier 0x160. -/
def execDecTorqueRequest (f : RxPayload) (s : State) : Result := .next (publishRow rowTorqueRequest 3 f s)

/-- `DEC.BATTERY_SOH` (R137), slot 0 of identifier 0x0A0. -/
def execDecBatterySoh (f : RxPayload) (s : State) : Result := .next (publishRow rowBatterySoh 0 f s)

/-- `DEC.BATTERY_SOC` (R138), slot 1 of identifier 0x0A0. -/
def execDecBatterySoc (f : RxPayload) (s : State) : Result := .next (publishRow rowBatterySoc 1 f s)

/-- `DEC.BATTERY_VOLTAGE` (R139), slot 2 of identifier 0x0A0. -/
def execDecBatteryVoltage (f : RxPayload) (s : State) : Result := .next (publishRow rowBatteryVoltage 2 f s)

/-- `DEC.UNKNOWN` (R100, R116): whatever the identifier and the payload, the result is empty and no error. -/
def execDecUnknown (_id : CanId) (_f : RxPayload) (s : State) : Result := .next (publishUnknown s)

end Sys2Proof.Machine
end

