-- ==== Sys2Proof/Machine/Encoder.lean ====
section
/-! DEFINITION. The encoder family (`41_encoder.md`). Its input is always the burst command `(BCMD_SPEED, BCMD_ANGLE)`.
The pure functions show their result on the encoder's wires; a frame builder drives the outbound port with its frame
(R199). No operation of the family reads or writes any other state, or sets a flag (R150). -/

namespace Sys2Proof.Machine

/-- `ENC.F501` (R160). -/
def execEncF501 (s : State) : Result := .next (offer (buildF501 s.params) s)

/-- `ENC.F502` (R161). -/
def execEncF502 (s : State) : Result := .next (offer (buildF502 s.params s.regs.bcmdAngle) s)

/-- `ENC.F503` (R162). -/
def execEncF503 (s : State) : Result := .next (offer (buildF503 s.params) s)

/-- `ENC.F504` (R163). -/
def execEncF504 (s : State) : Result :=
  .next (offer (buildF504 s.params s.regs.bcmdSpeed s.regs.bcmdAngle) s)

/-- `ENC.F506` (R164). -/
def execEncF506 (s : State) : Result := .next (offer (buildF506 s.params s.regs.bcmdAngle) s)

/-- `ENC.GEAR` (R151). -/
def execEncGear (s : State) : Result :=
  .next (s.withEnc { s.enc with gear := some (gearOf s.regs.bcmdSpeed s.regs.bcmdAngle) })

/-- `ENC.IND` (R152). -/
def execEncInd (s : State) : Result :=
  .next (s.withEnc { s.enc with ind := some (indicatorOf s.regs.bcmdAngle) })

/-- `ENC.SPDF` (R153). -/
def execEncSpdf (s : State) : Result :=
  .next (s.withEnc { s.enc with spdf := some (spdf s.params.roundTie s.regs.bcmdSpeed) })

/-- `ENC.STRF` (R154). -/
def execEncStrf (s : State) : Result :=
  .next (s.withEnc { s.enc with strf := some (strf s.params.roundTie s.regs.bcmdAngle) })

end Sys2Proof.Machine
end

