-- ==== Sys2Proof/Machine/Scheduler.lean ====
section
/-! DEFINITION. The command and event family (`42_scheduler.md` section 2, `70_reset_and_hazards.md` R250): each meaning
is the clock edge of the cycle in which the command is accepted or the event happens, the trigger's counting
included. A command is held, with no effect, while a burst is in progress (R196; log entry 11). -/

namespace Sys2Proof.Machine

/-- `START` (R181, R193). -/
def execStart (speed angle : Centi) (s : State) : Result :=
  .next (commandOp (acceptStart s.params speed angle) s)

/-- `UPDATE` (R182, R194). -/
def execUpdate (speed angle : Centi) (s : State) : Result :=
  .next (commandOp (acceptUpdate s.params speed angle) s)

/-- `STOP`, which ignores its operands (R84, R183, R195). -/
def execStop (_speed _angle : Centi) (s : State) : Result := .next (commandOp (acceptStop s.params) s)

/-- `RSVD`, the reserved `cmd_op = 3`, which ignores its operands (R84, R102, R187, R204). -/
def execRsvd (_speed _angle : Centi) (s : State) : Result := .next (commandOp (acceptRsvd s.params) s)

/-- The code of `ST` (R20). -/
def stCode : SchedState → BitVec 1
  | .idle => 0#1
  | .active => 1#1

/-- A tick is due: `pend = 1` in a WAIT cycle with no command accepted (R99, R198). -/
def tickDue (s : State) : Bool := pendOf s.regs && cmdReady s.regs && !s.pins.cmdValid

/-- The condition word of TICK, {ST, tick due} (R99). -/
def tickWord (s : State) : BitVec 2 := stCode s.regs.st ++ BitVec.ofBool (tickDue s)

/-- `TICK` (R184, R198): enabled when its condition word is {ACTIVE, due}; a TICK in IDLE does not exist. -/
def execTick (s : State) : Result :=
  if tickWord s = 3#2 then .next (s.withRegs (serviceTick s.params s.regs)) else .refused .notEnabled

/-- `BURST.SEND` (R199, R202): in a cycle with `tx_ready = 1` the frame is taken and enters the log; otherwise only the
trigger counts. -/
def execBurstSend (s : State) : Result :=
  if s.regs.seq = seqSend then
    match frameAt s.params s.regs.bcmdSpeed s.regs.bcmdAngle s.regs.burstIdx with
    | some f =>
      .next (if s.pins.txReady then
          (s.logged f).withRegs (frameTaken s.params s.pins.txErr (countCycle s.params s.regs))
        else s.withRegs (countCycle s.params s.regs))
    | none => .fault .illegalBurstIndex
  else .refused .notEnabled

/-- `BURST.GAP` (R200, R201). -/
def execBurstGap (s : State) : Result :=
  if s.regs.seq = seqGap then
    if frameIndexOk s.regs.burstIdx then .next (s.withRegs (gapStep s.params (countCycle s.params s.regs)))
    else .fault .illegalBurstIndex
  else .refused .notEnabled

/-- `RESET` (R250). -/
def execReset (s : State) : Result := .next (resetEdge s)

end Sys2Proof.Machine
end

