-- ==== Sys2Proof/Machine/Dispatch.lean ====
section
/-! DEFINITION. The meaning of every operation of the opcode table, one arm each. -/

namespace Sys2Proof.Machine

def exec (i : Instr) (s : State) : Host.Outcome State Fault Refusal :=
  match i with
  | .decVehicleGear f => Sys2Proof.Machine.execDecVehicleGear f s
  | .decDriveStateMode f => Sys2Proof.Machine.execDecDriveStateMode f s
  | .decSpeedRequestKmh f => Sys2Proof.Machine.execDecSpeedRequestKmh f s
  | .decDirectionAngle f => Sys2Proof.Machine.execDecDirectionAngle f s
  | .decEpsControl f => Sys2Proof.Machine.execDecEpsControl f s
  | .decVehicleSpeed f => Sys2Proof.Machine.execDecVehicleSpeed f s
  | .decWheelAngle f => Sys2Proof.Machine.execDecWheelAngle f s
  | .decBrakePressure f => Sys2Proof.Machine.execDecBrakePressure f s
  | .decBrakeLight f => Sys2Proof.Machine.execDecBrakeLight f s
  | .decHeadLight f => Sys2Proof.Machine.execDecHeadLight f s
  | .decEmergencyButton f => Sys2Proof.Machine.execDecEmergencyButton f s
  | .decTouchSwitches f => Sys2Proof.Machine.execDecTouchSwitches f s
  | .decEpsCurrentAngle f => Sys2Proof.Machine.execDecEpsCurrentAngle f s
  | .decEpsTemperature f => Sys2Proof.Machine.execDecEpsTemperature f s
  | .decBusVoltage f => Sys2Proof.Machine.execDecBusVoltage f s
  | .decBusCurrent f => Sys2Proof.Machine.execDecBusCurrent f s
  | .decDriveMode f => Sys2Proof.Machine.execDecDriveMode f s
  | .decBrakeRequest f => Sys2Proof.Machine.execDecBrakeRequest f s
  | .decSpeedRequestRpm f => Sys2Proof.Machine.execDecSpeedRequestRpm f s
  | .decTorqueRequest f => Sys2Proof.Machine.execDecTorqueRequest f s
  | .decBatterySoh f => Sys2Proof.Machine.execDecBatterySoh f s
  | .decBatterySoc f => Sys2Proof.Machine.execDecBatterySoc f s
  | .decBatteryVoltage f => Sys2Proof.Machine.execDecBatteryVoltage f s
  | .decUnknown id f => Sys2Proof.Machine.execDecUnknown id f s
  | .encF501 => Sys2Proof.Machine.execEncF501 s
  | .encF502 => Sys2Proof.Machine.execEncF502 s
  | .encF503 => Sys2Proof.Machine.execEncF503 s
  | .encF504 => Sys2Proof.Machine.execEncF504 s
  | .encF506 => Sys2Proof.Machine.execEncF506 s
  | .encGear => Sys2Proof.Machine.execEncGear s
  | .encInd => Sys2Proof.Machine.execEncInd s
  | .encSpdf => Sys2Proof.Machine.execEncSpdf s
  | .encStrf => Sys2Proof.Machine.execEncStrf s
  | .start speed angle => Sys2Proof.Machine.execStart speed angle s
  | .update speed angle => Sys2Proof.Machine.execUpdate speed angle s
  | .stop speed angle => Sys2Proof.Machine.execStop speed angle s
  | .rsvd speed angle => Sys2Proof.Machine.execRsvd speed angle s
  | .tick => Sys2Proof.Machine.execTick s
  | .burstSend => Sys2Proof.Machine.execBurstSend s
  | .burstGap => Sys2Proof.Machine.execBurstGap s
  | .reset => Sys2Proof.Machine.execReset s

end Sys2Proof.Machine
end

