-- ==== Sys2Proof/Machine/Cycle.lean ====
section
/-! DEFINITION. One clock cycle around the operations: which select words the cycle fetches, how they run one after
another, what a cycle without an operation does, and the passage to the next cycle's inputs (R190, R229). -/

namespace Sys2Proof.Machine

/-- The decoder's words: the inbound frame, once for each of its rows, or once for an unknown identifier (R96, R110);
nothing without a frame (R143). The decoder works in every cycle, reset cycles too (R62, R253). -/
def fetchDecoder (p : Pins) : List OpWord :=
  if p.rxValid then
    (List.range (selectRx p.rxId p.rx).length).map fun k => .rxf (BitVec.ofNat 2 k) (packRxf p.rxId p.rx)
  else []

/-- The encoder's words: in SEND the four functions and the builder of frame `BURST_IDX` (R97, R99, R199). An index
that never occurs is not looked up in a cycle whose edge resets it. -/
def fetchEncoder (s : State) : List OpWord :=
  if s.regs.seq = seqSend then
    [.fn 0, .fn 1, .fn 2, .fn 3] ++
      (if s.pins.rst && !frameIndexOk s.regs.burstIdx then [] else [.txf s.regs.burstIdx])
  else []

/-- The scheduler's word: `rst` first; then in WAIT an accepted command, then a due tick; in SEND and GAP the burst
micro-step (R190, R203, R229). -/
def fetchScheduler (s : State) : List OpWord :=
  if s.pins.rst then [.rst 1]
  else if s.regs.seq = seqWait then
    if s.pins.cmdValid then [.cw s.pins.cmd]
    else if tickWord s = 3#2 then [.tick (tickWord s)]
    else []
  else [.seq s.regs.seq]

/-- All select words of a cycle. The decoder and the encoder write no register, so their order does not matter. -/
def fetch (s : State) : List OpWord := fetchDecoder s.pins ++ fetchEncoder s ++ fetchScheduler s

/-- Run operations one after another. -/
def runAll : List Instr → State → Result
  | [], s => .next s
  | i :: is, s =>
    match exec i s with
    | .next t => runAll is t
    | .fault r => .fault r
    | .refused r => .refused r

/-- At the start of a cycle the output ports carry nothing yet (R143, R207). -/
def beginCycle (s : State) : State := ((s.withDec .none).withEnc .none).withTx none

/-- A WAIT cycle with no command and no tick: only the trigger counts (R190, R191, R205). -/
def quietCycle (s : State) : State := s.withRegs (countCycle s.params s.regs)

/-- The inputs of the next cycle: the next scheduled ones, or the free ones (log entry 2). -/
def nextPins (s : State) : Pins :=
  match s.env with
  | p :: _ => p
  | [] => Config.inputAt (s.cycle + 1)

/-- The clock edge is past: the next cycle's inputs are at the ports. -/
def endCycle (s : State) : State := { s with pins := nextPins s, env := s.env.tail, cycle := s.cycle + 1 }

/-- The code points the spec refuses as a start state (R103, U18). A reset edge is past them. -/
def startStateFault (s : State) : Option Fault :=
  if s.pins.rst then none
  else if !phaseOk s.regs.seq then some .illegalSequencerCode
  else if s.regs.seq ≠ seqWait ∧ frameIndexOk s.regs.burstIdx = false then some .illegalBurstIndex
  else none

/-- Run the operations of a cycle, and count a quiet one. -/
def runCycle (s : State) (is : List Instr) : Result :=
  match runAll is (beginCycle s) with
  | .next t => .next (endCycle (if (fetchScheduler s).isEmpty then quietCycle t else t))
  | .fault r => .fault r
  | .refused r => .refused r

/-- One clock cycle (R190). -/
def clockCycle (s : State) : Result :=
  match startStateFault s with
  | some f => .fault f
  | none =>
    match decodeAll (fetch s) with
    | .ok is => runCycle s is
    | .error _ => .refused .badSelectWord

/-! The status outputs, functions of the registers (R40, R82). -/

/-- `st_active`. -/
def stActive (s : State) : Bool := s.regs.st == .active
/-- `busy`. -/
def busy (s : State) : Bool := s.regs.seq != seqWait
/-- `tx_valid`. -/
def txValid (s : State) : Bool := s.regs.seq == seqSend
/-- `rx_ready`, constant 1 (R62). -/
def rxReady (_ : State) : Bool := true

/-- Put a select word where a cycle fetches it: at the port, in the register or in the condition it is read from, with
every other input at rest (log entry 15). -/
def presentWord (s : State) : OpWord → State
  | .rxf _ w => s.withPins { ({} : Pins) with rxValid := true, rxId := rxfId w, rx := rxfPayload w }
  | .txf idx => (s.withPins {}).withRegs { s.regs with seq := seqSend, burstIdx := idx }
  | .fn _ => (s.withPins {}).withRegs { s.regs with seq := seqSend }
  | .cw w => (s.withPins { ({} : Pins) with cmdValid := true, cmd := w }).withRegs { s.regs with seq := seqWait }
  | .tick _ => (s.withPins {}).withRegs { s.regs with st := .active, seq := seqWait, tickPend := true }
  | .seq phase => (s.withPins {}).withRegs { s.regs with seq := phase }
  | .rst level => s.withPins { ({} : Pins) with rst := level == 1 }

/-- The state that runs a word of the opcode table next. -/
def presentTableWord (s : State) (nbits w : Nat) : State :=
  match tableOpWord nbits w with
  | some op => presentWord s op
  | none => s

end Sys2Proof.Machine
end

