-- ==== Sys2Proof/Machine/Step.lean ====
section
/-! DEFINITION. The step of the machine, one clock cycle, and where an opcode-table word is put for it to run. -/

namespace Sys2Proof.Machine

/-- One step is one clock cycle (R190). -/
def step (s : State) : Host.Outcome State Fault Refusal := clockCycle s

/-- `s` with the word of the opcode table where the next step fetches it (log entry 15). -/
def State.withFetchWord (s : State) (nbits w : Nat) : State := presentTableWord s nbits w

end Sys2Proof.Machine
end

