-- ==== Sys2Proof/Machine/EventLevel.lean ====
section
/-! DEFINITION. The event level (`10_state.md` R43, `42_scheduler.md` R180 to R189): the source's own machine, in which
every burst is one atomic step, and the reading of a cycle-level state at that level (R208). -/

namespace Sys2Proof.Machine

/-- The state at the event level: `(ST, CMD, FLAGS)` and the log of frames sent (R43, R180). -/
structure EventState where
  st : SchedState
  cmdSpeed : Centi
  cmdAngle : Centi
  flags : BitVec 5
  log : List TxFrame
  deriving DecidableEq, Repr

/-- The events (R180). -/
inductive Event where
  | start (speed angle : Centi)
  | update (speed angle : Centi)
  | stop
  | rsvd
  | tick
  deriving DecidableEq, Repr

/-- The event-level state after reset (R251): Idle, no flag, an empty log; `CMD` has no meaning in it. -/
def eventReset : EventState := { st := .idle, cmdSpeed := 0, cmdAngle := 0, flags := 0, log := [] }

/-- `burst(c)`: the five frames enter the log, the overflow flags are set, and TXERR if a send failed (R180, R189). -/
def eventBurst (p : Params) (speed angle : Centi) (sendFailed : Bool) (e : EventState) : EventState :=
  { e with log := e.log ++ encodeSet p speed angle,
           flags := raiseFlagIf sendFailed .txErr (overflowFlags p.roundTie speed angle e.flags) }

/-- One event (R181 to R184, R187); none where the event cannot happen: a TICK in Idle. `sendFailed` says whether the
transport failed a frame of the burst. -/
def eventStep (p : Params) (sendFailed : Bool) (ev : Event) (e : EventState) : Option EventState :=
  match ev with
  | .start speed angle =>
    some { eventBurst p speed angle sendFailed e with cmdSpeed := speed, cmdAngle := angle, st := .active }
  | .update speed angle =>
    match e.st with
    | .active => some { e with cmdSpeed := speed, cmdAngle := angle }
    | .idle => some { e with flags := raiseFlag .cmdIgn e.flags }
  | .stop =>
    match e.st with
    | .active => some { eventBurst p 0 0 sendFailed e with st := .idle }
    | .idle => some { e with flags := raiseFlag .cmdIgn e.flags }
  | .rsvd => some { e with flags := raiseFlag .illCmd e.flags }
  | .tick =>
    match e.st with
    | .active => some (eventBurst p e.cmdSpeed e.cmdAngle sendFailed e)
    | .idle => none

/-- A run of events, each with the transport's answer to its burst. -/
def eventRun (p : Params) : List (Event × Bool) → EventState → Option EventState
  | [], e => some e
  | (ev, failed) :: rest, e =>
    match eventStep p failed ev e with
    | some e' => eventRun p rest e'
    | none => none

/-- How many sets an event adds to the log (R188). -/
def setsOf (st : SchedState) : Event → Nat
  | .start _ _ => 1
  | .tick => 1
  | .stop => if st = .active then 1 else 0
  | .update _ _ => 0
  | .rsvd => 0

/-- The state of `ST` after an event (R181, R183). -/
def stAfter (st : SchedState) : Event → SchedState
  | .start _ _ => .active
  | .stop => .idle
  | .update _ _ => st
  | .rsvd => st
  | .tick => st

/-- The number of sets a sequence of events adds to the log (R188). -/
def setsOfRun : SchedState → List (Event × Bool) → Nat
  | _, [] => 0
  | st, (ev, _) :: rest => setsOf st ev + setsOfRun (stAfter st ev) rest

/-! ## Reading a cycle-level state at the event level (R208) -/

/-- The frames of the burst in progress that are still to be taken: from `BURST_IDX` in SEND, after it in GAP. -/
def framesToCome (p : Params) (r : Regs) : List TxFrame :=
  if r.seq = seqSend then (encodeSet p r.bcmdSpeed r.bcmdAngle).drop r.burstIdx.toNat
  else if r.seq = seqGap then (encodeSet p r.bcmdSpeed r.bcmdAngle).drop (r.burstIdx.toNat + 1)
  else []

/-- A cycle-level state read at the event level: the burst in progress counts as sent (R208). `willFail` says whether
the transport fails a frame of that burst that is still to be taken, for which the event level has TXERR set with the
burst and the cycle level sets it with the frame (R189, R199; log entry 23). -/
def asEvent (willFail : Bool) (s : State) : EventState :=
  { st := s.regs.st, cmdSpeed := s.regs.cmdSpeed, cmdAngle := s.regs.cmdAngle,
    flags := raiseFlagIf willFail .txErr s.regs.flags, log := s.log ++ framesToCome s.params s.regs }

/-- The transport fails the frame of this cycle (R199). -/
def failsNow (s : State) : Bool := !s.pins.rst && s.regs.seq == seqSend && s.pins.txReady && s.pins.txErr

/-- The event of a command (R98, R208). -/
def commandEvent (w : BitVec 66) : Event :=
  if cwOp w = 0#2 then .start (cwSpeed w) (cwAngle w)
  else if cwOp w = 1#2 then .update (cwSpeed w) (cwAngle w)
  else if cwOp w = 2#2 then .stop
  else .rsvd

/-- The event a cycle is read as: its accepted command or serviced tick, at most one (R208). -/
def eventOf (s : State) : Option Event :=
  if s.pins.rst then none
  else if s.regs.seq = seqWait then
    if s.pins.cmdValid then some (commandEvent s.pins.cmd)
    else if tickWord s = 3#2 then some .tick
    else none
  else none

end Sys2Proof.Machine
end

