-- ==== Sys2Proof/Machine/Format.lean ====
section
/-! DEFINITION. The formatted value string of a record (`40_decoder.md` R140, R141), its name and unit (R89, R142).
These are functions of a record, not hardware outputs (R89). -/

namespace Sys2Proof.Machine

/-- The decimal digits of n, no leading zeros, "0" for zero (R141). -/
def decimal (n : Nat) : String := String.ofList (Nat.toDigits 10 n)

/-- The last two decimal digits of n. -/
def twoDigits (n : Nat) : String := decimal (n / 10 % 10) ++ decimal (n % 10)

/-- The sign of a printed value (R141). -/
def signOf (n : Int) : String := if n < 0 then "-" else ""

/-- A value with no decimal places (R141). -/
def formatInteger (n : Int) : String := signOf n ++ decimal n.natAbs

/-- A value of hundredths with two decimal places (R141). -/
def formatCenti (n : Int) : String := signOf n ++ decimal (n.natAbs / 100) ++ "." ++ twoDigits (n.natAbs % 100)

/-- `ENUM_LABEL[s]`: fixed for signal 0, open for 1 and 16 (R9, R140). -/
def enumLabels (l : Labels) (sig : Nat) : List String :=
  if sig = 0 then ["Park", "Drive", "Neutral", "Reverse"]
  else if sig = 1 then l.driveStateMode
  else if sig = 16 then l.driveMode
  else []

/-- `FLAG_LABEL[s]`: fixed for signal 4, open for the other flag signals (R9, R140). DESIGN CHOICE: the list of Touch
Switches (signal 11) may also label its values 2 and 3, beyond the indices 0 and 1 of R9 (log entry 20). -/
def flagLabels (l : Labels) (sig : Nat) : List String :=
  if sig = 4 then ["Stops", "Works"]
  else if sig = 8 then l.brakeLight
  else if sig = 9 then l.headLight
  else if sig = 10 then l.emergencyButton
  else if sig = 11 then l.touchSwitches
  else if sig = 17 then l.brakeRequest
  else []

/-- The label if one is given, else the number (R140, R141). DESIGN CHOICE: a label is given exactly for the indices of the
list, shorter or longer than the table R9 describes (log entry 20). -/
def labelled (labels : List String) (n : Nat) : String :=
  match labels[n]? with
  | some label => label
  | none => decimal n

/-- `fmt(rec)`: no string for a failed record (R141), nor for an empty slot. DESIGN CHOICE: a NUM record with `dec` 1 or 3,
for which R141 gives no string and which no operation makes (R88, U18), prints as one with `dec = 0` (log entry 28). -/
def fmt (l : Labels) (rec : Slot) : Option String :=
  if rec.v = true ∧ rec.err = .ok then
    match rec.kind with
    | .num => some (if rec.dec = 2 then formatCenti rec.val.toInt else formatInteger rec.val.toInt)
    | .enum => some (labelled (enumLabels l rec.sigId.toNat) rec.val.toNat)
    | .flag => some (labelled (flagLabels l rec.sigId.toNat) rec.val.toNat)
  else none

/-- The row a record came from, by `sig_id` (R89). -/
def rowOfRecord (rec : Slot) : Option SRow := if rec.v then signalTable[rec.sigId.toNat]? else none

/-- The name of a record (R89, R142). -/
def recordName (rec : Slot) : Option String := (rowOfRecord rec).map SRow.name

/-- The unit of a record (R142). -/
def recordUnit (rec : Slot) : Option String := (rowOfRecord rec).map SRow.unit

end Sys2Proof.Machine
end

