-- ==== Sys2Proof/Safety.lean ====
section
/-! DEFINITION. What counts as a good state and a good run: the invariants of `10_state.md` R41, the inputs a run will
see, and runs of the machine. -/

namespace Sys2Proof.Machine

/-- The invariants R41 (a) to (g) of the registers; (h), that a flag stays set, is about steps. -/
structure Inv (p : Params) (r : Regs) : Prop where
  /-- (a) `SEQ` is WAIT, SEND or GAP. -/
  phase : r.seq = seqWait ∨ r.seq = seqSend ∨ r.seq = seqGap
  /-- (b) `BURST_IDX <= 4`. -/
  index : r.burstIdx.toNat ≤ 4
  /-- (c) a pending tick only in ACTIVE. -/
  pending : r.tickPend = true → r.st = .active
  /-- (d) in ACTIVE the timer is in 1..PERIOD_CYCLES. -/
  timer : r.st = .active → 1 ≤ r.timer ∧ r.timer ≤ p.period
  /-- (e) in GAP the gap counter is in 1..GAP_CYCLES. -/
  gap : r.seq = seqGap → 1 ≤ r.gapCnt ∧ r.gapCnt ≤ p.gapCycles
  /-- (f) the only burst that runs in IDLE is a STOP burst. -/
  stopBurst : r.st = .idle → r.seq ≠ seqWait → r.bcmdSpeed = 0 ∧ r.bcmdAngle = 0
  /-- (g) a burst in ACTIVE encodes the stored command. -/
  activeBurst : r.st = .active → r.seq ≠ seqWait → r.bcmdSpeed = r.cmdSpeed ∧ r.bcmdAngle = r.cmdAngle

/-- A state whose registers satisfy R41. -/
def State.Good (s : State) : Prop := Inv s.params s.regs

/-- The outcome is a next state. -/
def Runs (o : Result) : Prop := ∃ t, o = .next t

/-- The inputs the state will see n cycles from now (log entry 2). -/
def inputIn (s : State) : Nat → Pins
  | 0 => s.pins
  | n + 1 =>
    match s.env[n]? with
    | some p => p
    | none => Config.inputAt (s.cycle + (n + 1))

/-- n clock cycles. -/
def run (n : Nat) (s : State) : Result := Sys2Proof.core.run n s

/-- No reset in the next n cycles. -/
def NoReset (s : State) (n : Nat) : Prop := ∀ k < n, (inputIn s k).rst = false

/-- The transport takes what is offered in each of the next n cycles. -/
def AlwaysReady (s : State) (n : Nat) : Prop := ∀ k < n, (inputIn s k).txReady = true

/-! The terms the statements about single operations use. -/

/-- Between `s` and `t` only the decoder's port changed, and of its records only slot k; the summary outputs are those
of an identifier with `count` rows (R88). -/
def DrivesSlot (k count : Nat) (s t : State) : Prop :=
  t = s.withDec t.dec ∧ t.dec.valid = true ∧ t.dec.known = true ∧ t.dec.count.toNat = count ∧
  ∀ j < 4, j ≠ k → slotAt t.dec j = slotAt s.dec j

/-- The fields of a record that do not depend on the payload (R113, R221). -/
def RecordIs (x : Slot) (sig : Nat) (kind : RowKind) (dec : Nat) : Prop :=
  x.v = true ∧ x.sigId.toNat = sig ∧ x.kind = kind ∧ x.dec.toNat = dec

/-- The value of a record: SHORT where the payload has fewer than `need` bytes, `val` otherwise (R113, R114). -/
def ValueIs (x : Slot) (len : BitVec 4) (need : Nat) (val : Int) : Prop :=
  (len.toNat < need → x.err = .short ∧ x.val = 0) ∧ (need ≤ len.toNat → x.err = .ok ∧ x.val.toInt = val)

/-- The whole effect of a row operation, in every state: it completes, changes the decoder's port alone, leaves its
record in slot k (R110, R113), and the record prints as `shown`, or as nothing where it failed (R141). -/
def RowEffect (i : Instr) (f : RxPayload) (k count sig : Nat) (kind : RowKind) (dec need : Nat) (val : Int)
    (shown : Labels → Int → String) : Prop :=
  ∀ s : State, ∃ t, exec i s = .next t ∧ DrivesSlot k count s t ∧ RecordIs (slotAt t.dec k) sig kind dec ∧
    ValueIs (slotAt t.dec k) f.len need val ∧
    ∀ l, fmt l (slotAt t.dec k) = if need ≤ f.len.toNat then some (shown l val) else none

/-- A number of hundredths (R141). -/
def asCenti (_ : Labels) (n : Int) : String := formatCenti n

/-- An integer (R141). -/
def asInteger (_ : Labels) (n : Int) : String := formatInteger n

/-- A label, or the number where none is given (R140, R141). -/
def asLabel (labels : Labels → List String) (l : Labels) (n : Int) : String := labelled (labels l) n.toNat

/-- Payload byte i as an integer. -/
def byteInt (f : RxPayload) (i : Nat) : Int := ((byteAt f.data i).toNat : Int)

/-- Payload bytes i, i+1 as an unsigned little-endian integer. -/
def wordInt (f : RxPayload) (i : Nat) : Int := byteInt f i + 256 * byteInt f (i + 1)

/-- A counter of w bits that is not 0 goes down by one. -/
def CountsDown (w n n' : Nat) : Prop := 1 ≤ n → n < 2 ^ w → n' = n - 1

/-- `TIMER` in a cycle without an accepted START (R191). -/
def TimerCounts (p : Params) (r r' : Regs) : Prop :=
  (r.st = .idle → r'.timer = r.timer) ∧ (r.st = .active → r.timer = 1 → r'.timer = p.period) ∧
  (r.st = .active → r.timer ≠ 1 → CountsDown p.timerW r.timer r'.timer)

/-- `pend` of a cycle (R190). -/
def Pending (r : Regs) : Prop := r.tickPend = true ∨ (r.st = .active ∧ r.timer = 1)

/-- The flags after a burst begins with `(speed, angle)`, the others unchanged (R206). -/
def BurstFlags (tie : RoundTie) (speed angle : Centi) (f g : BitVec 5) : Prop :=
  ∀ b, flagSet g b = true ↔ flagSet f b = true ∨ (b = .spdOvf ∧ 65535 < spdf tie speed) ∨
    (b = .strOvf ∧ (strf tie angle < 0 ∨ 65535 < strf tie angle))

/-- Exactly one flag is raised (R232). -/
def Raises (b : FlagBit) (f g : BitVec 5) : Prop := ∀ c, flagSet g c = true ↔ flagSet f c = true ∨ c = b

/-- A burst has begun with `(speed, angle)` (R197, R206). -/
def BurstBegun (p : Params) (speed angle : Centi) (r r' : Regs) : Prop :=
  r'.seq = seqSend ∧ r'.burstIdx = 0 ∧ r'.bcmdSpeed = speed ∧ r'.bcmdAngle = angle ∧
  BurstFlags p.roundTie speed angle r.flags r'.flags

/-- The position, the burst command and the gap counter are unchanged. -/
def BurstKept (r r' : Regs) : Prop :=
  r'.seq = r.seq ∧ r'.burstIdx = r.burstIdx ∧ r'.bcmdSpeed = r.bcmdSpeed ∧ r'.bcmdAngle = r.bcmdAngle ∧
  r'.gapCnt = r.gapCnt

/-- `ST` and the stored command are unchanged. -/
def CommandKept (r r' : Regs) : Prop :=
  r'.st = r.st ∧ r'.cmdSpeed = r.cmdSpeed ∧ r'.cmdAngle = r.cmdAngle

/-- The position after frame `BURST_IDX` and its gap: the next frame, or burst end (R200, R201, R202). -/
def MovesOn (r r' : Regs) : Prop :=
  (r.burstIdx = 4#3 → r'.seq = seqWait ∧ r'.burstIdx = 4#3) ∧
  (r.burstIdx ≠ 4#3 → r'.seq = seqSend ∧ r'.burstIdx.toNat = r.burstIdx.toNat + 1)

/-- An encoder operation completes, and drives the outbound port alone with a frame that satisfies P (R199). -/
def Offers (i : Instr) (s : State) (P : TxFrame → Prop) : Prop :=
  ∃ fr, exec i s = .next (s.withTx (some fr)) ∧ P fr

/-- The header of a frame built under the wire constants `w` (R166). -/
def HeaderIs (w : WireConstants) (fr : TxFrame) (id : CanId) (len : BitVec 4) : Prop :=
  fr.id = id ∧ fr.ide = w.txIde ∧ fr.len = len

/-- Bytes lo, lo+1 of a bus as a little-endian number. -/
def wireWord (d : Bus) (lo : Nat) : Nat := (byteAt d lo).toNat + 256 * (byteAt d (lo + 1)).toNat

/-- The cycle accepts a command with this `cmd_op` (R192). -/
def Accepts (s : State) (op : BitVec 2) : Prop :=
  s.pins.rst = false ∧ s.regs.seq = seqWait ∧ s.pins.cmdValid = true ∧ cwOp s.pins.cmd = op

/-- The cycle services a tick (R198). -/
def ServicesTick (s : State) : Prop :=
  s.pins.rst = false ∧ s.regs.seq = seqWait ∧ s.pins.cmdValid = false ∧ Pending s.regs

/-- The cycle takes the offered frame (R199). -/
def TakesFrame (s : State) : Prop := s.pins.rst = false ∧ s.regs.seq = seqSend ∧ s.pins.txReady = true

/-- In each of the next n cycles, no command of these operations is presented. -/
def NoCommand (s : State) (n : Nat) (ops : List (BitVec 2)) : Prop :=
  ∀ k < n, (inputIn s k).cmdValid = true → cwOp (inputIn s k).cmd ∉ ops

/-- The transport fails, within the next n cycles, a frame of the burst in progress that is still to be taken; false in
WAIT, where there is no burst. -/
def burstFails : Nat → State → Bool
  | 0, _ => false
  | n + 1, s =>
    s.regs.seq != seqWait && (failsNow s ||
      match step s with
      | .next t => burstFails n t
      | _ => false)

/-- The events of the next n cycles, in cycle order, each with whether the transport fails a frame of its burst within
them (R189, R208). -/
def eventsOfRun : Nat → State → List (Event × Bool)
  | 0, _ => []
  | n + 1, s =>
    match step s with
    | .next t => ((eventOf s).toList.map fun e => (e, burstFails n t)) ++ eventsOfRun n t
    | _ => []

/-- The outcome of an operation, carried to the end of its cycle. -/
def finish : Result → Result
  | .next t => .next (endCycle t)
  | .fault r => .fault r
  | .refused r => .refused r

end Sys2Proof.Machine
end

