-- ==== Sys2Proof/Certificates/Slice0/Obligations.lean ====
section
/-! DEFINITION. The statements for the provers. The terms they use are in `Safety.lean`. -/

open Sys2Proof Sys2Proof.Machine

/-! ## Payload access -/

/-- R52, R53: `MemRead` is the little-endian sum of its bytes, and byte i of a bus is bits 8i+7..8i (R12). -/
def Obligations.MemReadIsLittleEndian : Prop :=
  ∀ (d : Bus) (lo n : Nat), 1 ≤ n → n ≤ 3 → lo + n ≤ 8 →
    memRead d lo n = ((List.range n).map fun k => (byteAt d (lo + k)).toNat * 256 ^ k).sum ∧
    memRead d lo n = d.toNat / 2 ^ (8 * lo) % 2 ^ (8 * n) ∧
    memRead d lo 1 = (byteAt d lo).toNat

/-- R54: `MemWrite` puts the low byte at the lower index and touches no other byte. -/
def Obligations.MemWriteIsLittleEndian : Prop :=
  ∀ (d : Bus) (lo : Nat) (v : BitVec 16),
    (lo ≤ 7 → ∀ j < 8, (byteAt (memWrite d lo 1 v) j).toNat = if j = lo then v.toNat % 256 else (byteAt d j).toNat) ∧
    (lo ≤ 6 → ∀ j < 8, (byteAt (memWrite d lo 2 v) j).toNat =
      if j = lo then v.toNat % 256 else if j = lo + 1 then v.toNat / 256 else (byteAt d j).toNat)

/-! ## The decoder

That a row operation writes its record into the port the state holds, and leaves the other slots as they were, is the
model's way to hold a combinational output (log entry 3); the records are the spec's. -/

/-- The records of R117 to R119. That the state holds the port and that its other slots stay as they were is the model's
choice (log entry 3). -/
def Obligations.RowsOf303 : Prop := ∀ f : RxPayload,
  RowEffect (.decVehicleGear f) f 0 3 0 .enum 0 1 (byteInt f 0 % 4)
    (asLabel fun _ => ["Park", "Drive", "Neutral", "Reverse"]) ∧
  RowEffect (.decDriveStateMode f) f 1 3 1 .enum 0 2 (byteInt f 1 % 4) (asLabel Labels.driveStateMode) ∧
  RowEffect (.decSpeedRequestKmh f) f 2 3 2 .num 2 4 (wordInt f 2 * 10 - 8000) asCenti

/-- The records of R120, R121. That the state holds the port and that its other slots stay as they were is the model's
choice (log entry 3). -/
def Obligations.RowsOf314 : Prop := ∀ f : RxPayload,
  RowEffect (.decDirectionAngle f) f 0 2 3 .num 0 3 (wordInt f 1) asInteger ∧
  RowEffect (.decEpsControl f) f 1 2 4 .flag 0 1 (byteInt f 0 % 2) (asLabel fun _ => ["Stops", "Works"])

/-- The records of R122 to R124. That the state holds the port and that its other slots stay as they were is the model's
choice (log entry 3). -/
def Obligations.RowsOf304 : Prop := ∀ f : RxPayload,
  RowEffect (.decVehicleSpeed f) f 0 3 5 .num 2 2 (wordInt f 0 * 10 - 8000) asCenti ∧
  RowEffect (.decWheelAngle f) f 1 3 6 .num 2 6 (wordInt f 4 * 10 - 3500) asCenti ∧
  RowEffect (.decBrakePressure f) f 2 3 7 .num 2 4 (wordInt f 2) asCenti

/-- The records of R125 to R128. That the state holds the port and that its other slots stay as they were is the model's
choice (log entry 3), and so is a label for the values 2 and 3 of Touch Switches (log entry 20). -/
def Obligations.RowsOf301 : Prop := ∀ f : RxPayload,
  RowEffect (.decBrakeLight f) f 0 4 8 .flag 0 6 (byteInt f 5 % 2) (asLabel Labels.brakeLight) ∧
  RowEffect (.decHeadLight f) f 1 4 9 .flag 0 2 (byteInt f 1 / 128) (asLabel Labels.headLight) ∧
  RowEffect (.decEmergencyButton f) f 2 4 10 .flag 0 1 (byteInt f 0 % 2) (asLabel Labels.emergencyButton) ∧
  RowEffect (.decTouchSwitches f) f 3 4 11 .flag 0 2 (byteInt f 1 / 16 % 4) (asLabel Labels.touchSwitches)

/-- The records of R129, R130. That the state holds the port and that its other slots stay as they were is the model's
choice (log entry 3). -/
def Obligations.RowsOf18F : Prop := ∀ f : RxPayload,
  RowEffect (.decEpsCurrentAngle f) f 0 2 12 .num 0 3
    (if wordInt f 1 < 32768 then wordInt f 1 else wordInt f 1 - 65536) asInteger ∧
  RowEffect (.decEpsTemperature f) f 1 2 13 .num 0 7
    (if byteInt f 6 < 128 then byteInt f 6 else byteInt f 6 - 256) asInteger

/-- The records of R131, R132. That the state holds the port and that its other slots stay as they were is the model's
choice (log entry 3). -/
def Obligations.RowsOf060 : Prop := ∀ f : RxPayload,
  RowEffect (.decBusVoltage f) f 0 2 14 .num 2 2 (wordInt f 0 * 10) asCenti ∧
  RowEffect (.decBusCurrent f) f 1 2 15 .num 2 4 (wordInt f 2 * 10 - 100000) asCenti

/-- The records of R133 to R136. That the state holds the port and that its other slots stay as they were is the model's
choice (log entry 3). -/
def Obligations.RowsOf160 : Prop := ∀ f : RxPayload,
  RowEffect (.decDriveMode f) f 0 4 16 .enum 0 1 (byteInt f 0 / 2 % 4) (asLabel Labels.driveMode) ∧
  RowEffect (.decBrakeRequest f) f 1 4 17 .flag 0 1 (byteInt f 0 / 8 % 2) (asLabel Labels.brakeRequest) ∧
  RowEffect (.decSpeedRequestRpm f) f 2 4 18 .num 0 6
    (byteInt f 3 + 256 * byteInt f 4 + 65536 * byteInt f 5 - 7000) asInteger ∧
  RowEffect (.decTorqueRequest f) f 3 4 19 .num 2 3 (wordInt f 1 * 10 - 100000) asCenti

/-- The records of R137 to R139. That the state holds the port and that its other slots stay as they were is the model's
choice (log entry 3). -/
def Obligations.RowsOf0A0 : Prop := ∀ f : RxPayload,
  RowEffect (.decBatterySoh f) f 0 3 20 .num 0 8 (byteInt f 7) asInteger ∧
  RowEffect (.decBatterySoc f) f 1 3 21 .num 2 5 (byteInt f 4 * 40) asCenti ∧
  RowEffect (.decBatteryVoltage f) f 2 3 22 .num 2 4 (wordInt f 2 * 10) asCenti

/-- R100: an identifier that is none of the eight gives the empty result, no flag and no change of state. -/
def Obligations.UnknownIdentifierIsEmpty : Prop :=
  ∀ (id : CanId) (f : RxPayload) (s : State),
    id ∉ [0x303#29, 0x314#29, 0x304#29, 0x301#29, 0x18F#29, 0x060#29, 0x160#29, 0x0A0#29] →
    selectRx id f = [.decUnknown id f] ∧
    ∃ t, exec (.decUnknown id f) s = .next t ∧ t = s.withDec t.dec ∧ t.dec = decodeFrame signalTable id f ∧
      t.dec.valid = true ∧ t.dec.known = false ∧ t.dec.count = 0 ∧ ∀ k < 4, slotAt t.dec k = Slot.empty

/-- R110, R143 (and R253: reset cycles too): the decoder's outputs of a cycle, from the frame at the port. -/
def Obligations.CycleDecodesTheFrameAtThePort : Prop :=
  ∀ s t : State, step s = .next t →
    (s.pins.rxValid = false →
      t.dec.valid = false ∧ t.dec.known = false ∧ t.dec.count = 0 ∧ (∀ k < 4, slotAt t.dec k = Slot.empty) ∧
      ∀ k < 4, slotWires (slotAt t.dec k) = { v := 0, sigId := 0, kind := 0, val := 0, dec := 0, err := 0 }) ∧
    (s.pins.rxValid = true →
      (decWires t.dec).decValid = 1 ∧ t.dec.valid = true ∧ (t.dec.known = true ↔ s.pins.rxId ∈ knownIds) ∧
      t.dec.count.toNat = (rowsOf signalTable s.pins.rxId).length ∧
      (∀ k r, (rowsOf signalTable s.pins.rxId)[k]? = some r →
        slotAt t.dec k = decodeRow r (min s.pins.rx.len.toNat 8) s.pins.rx.data) ∧
      ∀ k < 4, (rowsOf signalTable s.pins.rxId).length ≤ k → slotAt t.dec k = Slot.empty)

/-- R116: over every well-formed Signal Table, frames that agree on the effective length and on the bits the readable
rows of the identifier read decode alike. -/
def Obligations.DecodingReadsOnlyTheBitsOfItsRows : Prop :=
  ∀ (table : List SRow) (id : CanId) (f g : RxPayload), tableWf table = true → effLen f.len = effLen g.len →
    (∀ r ∈ table, r.canId = id → r.hi < effLen f.len →
      ∀ b, r.firstBit ≤ b → b < r.firstBit + r.width → f.data.getLsbD b = g.data.getLsbD b) →
    decodeFrame table id f = decodeFrame table id g

/-- R113, R114, R115, R221: what makes a record fail, over every row, and what a failed record holds; R88: the codes of
`kind` and `err` on the wires; and R115: the authoritative table never reports ENUM_OOB. -/
def Obligations.RecordsFailExactlyOnTheirCauses : Prop :=
  (∀ (r : SRow) (len : Nat) (d : Bus),
    (decodeRow r len d).v = true ∧ (decodeRow r len d).sigId = BitVec.ofNat 5 r.sigId ∧
    (decodeRow r len d).kind = r.kind ∧
    (decodeRow r len d).dec = (if r.kind = .num then BitVec.ofNat 2 r.dec else 0) ∧
    ((decodeRow r len d).err = .short ↔ len ≤ r.hi) ∧
    ((decodeRow r len d).err = .enumOob ↔ r.hi < len ∧ r.kind = .enum ∧ r.enumLen ≤ fieldOf r d) ∧
    ((decodeRow r len d).err ≠ .ok → (decodeRow r len d).val = 0) ∧
    ((slotWires (decodeRow r len d)).kind = 0#2 ↔ r.kind = .num) ∧
    ((slotWires (decodeRow r len d)).kind = 1#2 ↔ r.kind = .enum) ∧
    ((slotWires (decodeRow r len d)).kind = 2#2 ↔ r.kind = .flag) ∧
    ((slotWires (decodeRow r len d)).err = 2#2 ↔ len ≤ r.hi) ∧
    ((slotWires (decodeRow r len d)).err = 1#2 ↔ r.hi < len ∧ r.kind = .enum ∧ r.enumLen ≤ fieldOf r d) ∧
    (slotWires (decodeRow r len d)).err ≠ 3#2) ∧
  ∀ (id : CanId) (f : RxPayload) (k : Nat), (slotAt (decodeFrame signalTable id f) k).err ≠ .enumOob

/-- R115, R221: replacing one row of a table by another of the same identifier, failing or not, changes that row's slot
alone. -/
def Obligations.RowErrorsAreIsolated : Prop :=
  ∀ (table : List SRow) (i : Nat) (q r : SRow) (f : RxPayload), table[i]? = some q → r.canId = q.canId →
    ∀ id : CanId,
      (decodeFrame (table.set i r) id f).known = (decodeFrame table id f).known ∧
      (decodeFrame (table.set i r) id f).count = (decodeFrame table id f).count ∧
      ∀ k, (q.canId ≠ id ∨ k ≠ (rowsOf (table.take i) id).length) →
        slotAt (decodeFrame (table.set i r) id f) k = slotAt (decodeFrame table id f) k

/-- R94: in every row of the table the value is the exact linear transform and never wraps, with the magnitudes the
rule gives. -/
def Obligations.DecodedValuesNeverWrap : Prop :=
  ∀ r ∈ signalTable, ∀ (len : Nat) (d : Bus), r.hi < len → r.kind = .num →
    (decodeRow r len d).val.toInt =
      (if r.signed ∧ 2 ^ (r.width - 1) ≤ fieldOf r d then (fieldOf r d : Int) - 2 ^ r.width else (fieldOf r d : Int)) *
        r.mul + r.add ∧
    (r.dec = 0 → (decodeRow r len d).val.toInt.natAbs ≤ 16770215) ∧
    (r.dec = 2 → (decodeRow r len d).val.toInt.natAbs ≤ 655350)

/-- R141: the formatted value string, with what "decimal digits, no leading zeros" means spelled out. -/
def Obligations.FormattedValueStrings : Prop :=
  (∀ (l : Labels) (x : Slot), x.v = true →
    (x.err ≠ .ok → fmt l x = none) ∧
    (x.err = .ok → x.kind = .num → x.dec = 0 →
      fmt l x = some ((if x.val.toInt < 0 then "-" else "") ++ decimal x.val.toInt.natAbs)) ∧
    (x.err = .ok → x.kind = .num → x.dec = 2 →
      ∀ w a b : Nat, a < 10 → b < 10 → x.val.toInt.natAbs = 100 * w + 10 * a + b →
        fmt l x = some ((if x.val.toInt < 0 then "-" else "") ++ decimal w ++ "." ++ decimal a ++ decimal b)) ∧
    (x.err = .ok → x.kind = .enum →
      (∀ label, (enumLabels l x.sigId.toNat)[x.val.toNat]? = some label → fmt l x = some label) ∧
      ((enumLabels l x.sigId.toNat)[x.val.toNat]? = none → fmt l x = some (decimal x.val.toNat))) ∧
    (x.err = .ok → x.kind = .flag →
      (∀ label, (flagLabels l x.sigId.toNat)[x.val.toNat]? = some label → fmt l x = some label) ∧
      ((flagLabels l x.sigId.toNat)[x.val.toNat]? = none → fmt l x = some (decimal x.val.toNat)))) ∧
  (∀ q b : Nat, 0 < q → b < 10 → decimal (10 * q + b) = decimal q ++ decimal b) ∧
  (List.range 10).map decimal = ["0", "1", "2", "3", "4", "5", "6", "7", "8", "9"]

/-! ## The encoder -/

/-- R14. -/
def Obligations.RoundingToTenths : Prop :=
  ∀ (tie : RoundTie) (n : Int),
    (n.natAbs % 10 < 5 → (rdiv10 tie n).natAbs = n.natAbs / 10) ∧
    (5 < n.natAbs % 10 → (rdiv10 tie n).natAbs = n.natAbs / 10 + 1) ∧
    (n.natAbs % 10 = 5 → tie = .halfAway → (rdiv10 tie n).natAbs = n.natAbs / 10 + 1) ∧
    (n.natAbs % 10 = 5 → tie = .halfEven → (n.natAbs / 10) % 2 = 0 → (rdiv10 tie n).natAbs = n.natAbs / 10) ∧
    (n.natAbs % 10 = 5 → tie = .halfEven → (n.natAbs / 10) % 2 = 1 → (rdiv10 tie n).natAbs = n.natAbs / 10 + 1) ∧
    (0 ≤ n → 0 ≤ rdiv10 tie n) ∧ (n ≤ 0 → rdiv10 tie n ≤ 0) ∧ rdiv10 tie (-n) = -rdiv10 tie n ∧
    (10 * rdiv10 tie n - n).natAbs ≤ 5

/-- R151, R152: the two selections from the burst command, and that they change nothing but the encoder's wires, which
the model holds (log entries 3 and 16). -/
def Obligations.GearAndIndicatorSelection : Prop :=
  ∀ s : State, ∃ (g : Gear) (i : Indicator),
    exec .encGear s = .next (s.withEnc { s.enc with gear := some g }) ∧
    exec .encInd s = .next (s.withEnc { s.enc with ind := some i }) ∧
    (g = .reverse ↔ s.regs.bcmdSpeed.toInt < 0) ∧
    (g = .neutral ↔ s.regs.bcmdSpeed = 0 ∧ s.regs.bcmdAngle = 0) ∧
    (g = .drive ↔ 0 ≤ s.regs.bcmdSpeed.toInt ∧ ¬(s.regs.bcmdSpeed = 0 ∧ s.regs.bcmdAngle = 0)) ∧ g ≠ .park ∧
    (i = .right ↔ s.regs.bcmdAngle.toInt < 0) ∧ (i = .left ↔ 0 < s.regs.bcmdAngle.toInt) ∧
    (i = .none ↔ s.regs.bcmdAngle = 0)

/-- R153, R154: the untruncated fields and their ranges; nothing but the encoder's wires changes
(log entries 3 and 16). -/
def Obligations.UntruncatedFields : Prop :=
  ∀ s : State, ∃ x y : Int,
    exec .encSpdf s = .next (s.withEnc { s.enc with spdf := some x }) ∧
    x = rdiv10 s.params.roundTie (s.regs.bcmdSpeed.toInt.natAbs : Int) ∧ 0 ≤ x ∧ x ≤ 214748365 ∧
    exec .encStrf s = .next (s.withEnc { s.enc with strf := some y }) ∧
    y = rdiv10 s.params.roundTie (s.regs.bcmdAngle.toInt + 3000) ∧ -214748065 ≤ y ∧ y ≤ 214748665

/-- R156, R226: the operands at which a field overflows, and the field a frame carries. -/
def Obligations.FieldOverflowThresholds : Prop :=
  ∀ (tie : RoundTie) (speed angle : Centi),
    (fieldOverflows (spdf tie speed) = true ↔ 655355 ≤ speed.toInt.natAbs) ∧
    (fieldOverflows (strf tie angle) = true ↔
      652355 ≤ angle.toInt ∨ angle.toInt ≤ (match tie with | .halfEven => -3006 | .halfAway => -3005)) ∧
    (∀ x : Int, ((trunc16 x).toNat : Int) = x % 65536 ∧
      (fieldOverflows x = false → ((trunc16 x).toNat : Int) = x))

/-- R226: without an overflow, the fields on the wire are the command to within half a unit of the field. -/
def Obligations.WireFieldsFollowTheCommand : Prop :=
  ∀ (p : Params) (speed angle : Centi),
    (speed.toInt.natAbs < 655355 →
      (10 * (wireWord (buildF504 p speed angle).data 6 : Int) - speed.toInt.natAbs).natAbs ≤ 5) ∧
    (-3004 ≤ angle.toInt → angle.toInt < 652355 →
      (10 * (wireWord (buildF502 p angle).data 4 : Int) - (angle.toInt + 3000)).natAbs ≤ 5)

/-- R160, R162: the constant frames. -/
def Obligations.ConstantFrames : Prop :=
  ∀ s : State,
    Offers .encF501 s (fun fr => HeaderIs s.params.wc fr 0x501 s.params.wc.txLen0 ∧
      ∀ i < 8, byteAt fr.data i = byteAt s.params.wc.tpl501 i) ∧
    Offers .encF503 s (fun fr => HeaderIs s.params.wc fr 0x503 s.params.wc.txLen2 ∧
      ∀ i < 8, byteAt fr.data i = byteAt s.params.wc.tpl503 i)

/-- R161: the steering frame. -/
def Obligations.SteeringFrame : Prop :=
  ∀ s : State,
    Offers .encF502 s fun fr => HeaderIs s.params.wc fr 0x502 s.params.wc.txLen1 ∧
      (wireWord fr.data 4 : Int) = rdiv10 s.params.roundTie (s.regs.bcmdAngle.toInt + 3000) % 65536 ∧
      ∀ i < 8, i ≠ 4 → i ≠ 5 → byteAt fr.data i = byteAt s.params.wc.tpl502 i

/-- R163: the drive frame. -/
def Obligations.DriveFrame : Prop :=
  ∀ s : State,
    Offers .encF504 s fun fr => HeaderIs s.params.wc fr 0x504 s.params.wc.txLen3 ∧
      (s.regs.bcmdSpeed.toInt < 0 → byteAt fr.data 3 = s.params.wc.gearReverse) ∧
      (s.regs.bcmdSpeed = 0 ∧ s.regs.bcmdAngle = 0 → byteAt fr.data 3 = s.params.wc.gearNeutral) ∧
      (0 ≤ s.regs.bcmdSpeed.toInt → ¬(s.regs.bcmdSpeed = 0 ∧ s.regs.bcmdAngle = 0) →
        byteAt fr.data 3 = s.params.wc.gearDrive) ∧
      (wireWord fr.data 6 : Int) = rdiv10 s.params.roundTie (s.regs.bcmdSpeed.toInt.natAbs : Int) % 65536 ∧
      ∀ i < 8, i ≠ 3 → i ≠ 6 → i ≠ 7 → byteAt fr.data i = byteAt s.params.wc.tpl504 i

/-- R164, and R10: under all wire constants a machine can have, byte 0 tells the sign of the angle. -/
def Obligations.IndicatorFrame : Prop :=
  (∀ s : State,
    Offers .encF506 s fun fr => HeaderIs s.params.wc fr 0x506 s.params.wc.txLen4 ∧
      (s.regs.bcmdAngle = 0 → byteAt fr.data 0 = 0) ∧
      (0 < s.regs.bcmdAngle.toInt → byteAt fr.data 0 = s.params.wc.indLeft) ∧
      (s.regs.bcmdAngle.toInt < 0 → byteAt fr.data 0 = s.params.wc.indRight) ∧
      ∀ i < 8, i ≠ 0 → byteAt fr.data i = byteAt s.params.wc.tpl506 i) ∧
  ∀ (p : Params) (a b : Centi),
    (byteAt (buildF506 p a).data 0 = byteAt (buildF506 p b).data 0 ↔ a.toInt.sign = b.toInt.sign)

/-- R167, R168: what each frame of a set depends on, and the set of a stop. -/
def Obligations.FramesDependOnTheirFields : Prop :=
  (∀ (p : Params) (speed angle speed' angle' : Centi),
    (encodeSet p speed angle)[0]? = (encodeSet p speed' angle')[0]? ∧
    (encodeSet p speed angle)[2]? = (encodeSet p speed' angle')[2]? ∧
    (angle = angle' → (encodeSet p speed angle)[1]? = (encodeSet p speed' angle')[1]?) ∧
    (angle.toInt.sign = angle'.toInt.sign → (encodeSet p speed angle)[4]? = (encodeSet p speed' angle')[4]?) ∧
    (speed = speed' → (angle = 0 ↔ angle' = 0) →
      (encodeSet p speed angle)[3]? = (encodeSet p speed' angle')[3]?)) ∧
  ∀ p : Params, wireWord (buildF502 p 0).data 4 = 300 ∧ wireWord (buildF504 p 0 0).data 6 = 0 ∧
    byteAt (buildF504 p 0 0).data 3 = p.wc.gearNeutral ∧ byteAt (buildF506 p 0).data 0 = 0

/-- R165, R82, R97, R207: what the outbound port offers in a cycle. -/
def Obligations.OfferedFrames : Prop :=
  (∀ (p : Params) (speed angle : Centi), (encodeSet p speed angle).map TxFrame.id =
    [0x501#29, 0x502#29, 0x503#29, 0x504#29, 0x506#29]) ∧
  ∀ s t : State, step s = .next t →
    (s.regs.seq ≠ seqSend → t.tx = none) ∧
    (s.regs.seq = seqSend → t.tx = (encodeSet s.params s.regs.bcmdSpeed s.regs.bcmdAngle)[s.regs.burstIdx.toNat]?)

/-! ## The commands and events -/

/-- R193, R197. -/
def Obligations.StartAccepted : Prop :=
  ∀ (s : State) (speed angle : Centi), s.regs.seq = seqWait →
    ∃ r, exec (.start speed angle) s = .next (s.withRegs r) ∧
      r.cmdSpeed = speed ∧ r.cmdAngle = angle ∧ r.st = .active ∧ r.timer = s.params.period ∧ r.tickPend = false ∧
      r.gapCnt = s.regs.gapCnt ∧ BurstBegun s.params speed angle s.regs r

/-- R194. -/
def Obligations.UpdateAccepted : Prop :=
  ∀ (s : State) (speed angle : Centi), s.regs.seq = seqWait →
    ∃ r, exec (.update speed angle) s = .next (s.withRegs r) ∧ BurstKept s.regs r ∧ r.st = s.regs.st ∧
      TimerCounts s.params s.regs r ∧ (r.tickPend = true ↔ Pending s.regs) ∧
      (s.regs.st = .active → r.cmdSpeed = speed ∧ r.cmdAngle = angle ∧ r.flags = s.regs.flags) ∧
      (s.regs.st = .idle → CommandKept s.regs r ∧ r.tickPend = s.regs.tickPend ∧
        Raises .cmdIgn s.regs.flags r.flags)

/-- R195, and R206 for its burst: the zero command overflows nothing. -/
def Obligations.StopAccepted : Prop :=
  ∀ (s : State) (speed angle : Centi), s.regs.seq = seqWait →
    ∃ r, exec (.stop speed angle) s = .next (s.withRegs r) ∧
      r.cmdSpeed = s.regs.cmdSpeed ∧ r.cmdAngle = s.regs.cmdAngle ∧ r.gapCnt = s.regs.gapCnt ∧ r.st = .idle ∧
      TimerCounts s.params s.regs r ∧
      (s.regs.st = .active → r.tickPend = false ∧ BurstBegun s.params 0 0 s.regs r ∧ r.flags = s.regs.flags) ∧
      (s.regs.st = .idle → BurstKept s.regs r ∧ r.tickPend = s.regs.tickPend ∧ Raises .cmdIgn s.regs.flags r.flags)

/-- R204, R102. -/
def Obligations.RsvdAccepted : Prop :=
  ∀ (s : State) (speed angle : Centi), s.regs.seq = seqWait →
    ∃ r, exec (.rsvd speed angle) s = .next (s.withRegs r) ∧ BurstKept s.regs r ∧ CommandKept s.regs r ∧
      TimerCounts s.params s.regs r ∧ (r.tickPend = true ↔ Pending s.regs) ∧ Raises .illCmd s.regs.flags r.flags

/-- R196, R192: while a burst is in progress no command has an effect, and a cycle does not depend on the command port;
without `cmd_valid` it never depends on the command word. That a held command executed by itself leaves the state as it
is, the timer included, is the model's choice (log entry 11). -/
def Obligations.CommandsAreHeldDuringABurst : Prop :=
  (∀ (s : State) (speed angle : Centi), s.regs.seq ≠ seqWait →
    exec (.start speed angle) s = .next s ∧ exec (.update speed angle) s = .next s ∧
    exec (.stop speed angle) s = .next s ∧ exec (.rsvd speed angle) s = .next s) ∧
  (∀ (s : State) (v : Bool) (w : BitVec 66), s.regs.seq ≠ seqWait →
    step (s.withPins { s.pins with cmdValid := v, cmd := w }) = step s) ∧
  ∀ (s : State) (w : BitVec 66), s.pins.cmdValid = false → step (s.withPins { s.pins with cmd := w }) = step s

/-- R198. -/
def Obligations.TickServiced : Prop :=
  ∀ s : State, s.regs.seq = seqWait → s.pins.cmdValid = false → s.regs.st = .active → Pending s.regs →
    ∃ r, exec .tick s = .next (s.withRegs r) ∧ CommandKept s.regs r ∧ TimerCounts s.params s.regs r ∧
      r.tickPend = false ∧ r.gapCnt = s.regs.gapCnt ∧ BurstBegun s.params s.regs.cmdSpeed s.regs.cmdAngle s.regs r

/-- R199, R202: a frame is taken; while the transport is not ready, only `TIMER` and `TICK_PEND` change, whatever
`tx_err` is. -/
def Obligations.BurstSendTakesTheFrameOrWaits : Prop :=
  ∀ s : State, s.regs.seq = seqSend → s.regs.burstIdx.toNat ≤ 4 →
    (s.pins.txReady = true → ∃ fr r,
      (encodeSet s.params s.regs.bcmdSpeed s.regs.bcmdAngle)[s.regs.burstIdx.toNat]? = some fr ∧
      exec .burstSend s = .next ((s.logged fr).withRegs r) ∧ CommandKept s.regs r ∧ TimerCounts s.params s.regs r ∧
      (r.tickPend = true ↔ Pending s.regs) ∧
      r.bcmdSpeed = s.regs.bcmdSpeed ∧ r.bcmdAngle = s.regs.bcmdAngle ∧
      (s.pins.txErr = true → Raises .txErr s.regs.flags r.flags) ∧ (s.pins.txErr = false → r.flags = s.regs.flags) ∧
      (0 < s.params.gapCycles →
        r.seq = seqGap ∧ r.gapCnt = s.params.gapCycles ∧ r.burstIdx = s.regs.burstIdx) ∧
      (s.params.gapCycles = 0 → r.gapCnt = s.regs.gapCnt ∧ MovesOn s.regs r)) ∧
    (s.pins.txReady = false → ∃ r, exec .burstSend s = .next (s.withRegs r) ∧ BurstKept s.regs r ∧
      CommandKept s.regs r ∧ TimerCounts s.params s.regs r ∧ (r.tickPend = true ↔ Pending s.regs) ∧
      r.flags = s.regs.flags)

/-- R200, R201. -/
def Obligations.BurstGapCounts : Prop :=
  ∀ s : State, s.regs.seq = seqGap → s.regs.burstIdx.toNat ≤ 4 →
    ∃ r, exec .burstGap s = .next (s.withRegs r) ∧ CommandKept s.regs r ∧ TimerCounts s.params s.regs r ∧
      (r.tickPend = true ↔ Pending s.regs) ∧ r.flags = s.regs.flags ∧
      r.bcmdSpeed = s.regs.bcmdSpeed ∧ r.bcmdAngle = s.regs.bcmdAngle ∧
      (s.regs.gapCnt = 1 → r.gapCnt = 1 ∧ MovesOn s.regs r) ∧
      (s.regs.gapCnt ≠ 1 → CountsDown s.params.gapW s.regs.gapCnt r.gapCnt ∧ r.seq = s.regs.seq ∧
        r.burstIdx = s.regs.burstIdx)

/-- R42, R250, R252, R253: a reset edge, from every state, illegal code points included. -/
def Obligations.ResetFromEveryState : Prop :=
  (∀ s : State, exec .reset s = .next (s.withRegs
    { cmdSpeed := 0, cmdAngle := 0, bcmdSpeed := 0, bcmdAngle := 0, st := .idle, seq := seqWait, burstIdx := 0,
      timer := 0, gapCnt := 0, tickPend := false, flags := 0 })) ∧
  ∀ s : State, s.pins.rst = true → ∃ t, step s = .next t ∧
    t.regs.cmdSpeed = 0 ∧ t.regs.cmdAngle = 0 ∧ t.regs.bcmdSpeed = 0 ∧ t.regs.bcmdAngle = 0 ∧ t.regs.st = .idle ∧
    t.regs.seq = seqWait ∧ t.regs.burstIdx = 0 ∧ t.regs.timer = 0 ∧ t.regs.gapCnt = 0 ∧ t.regs.tickPend = false ∧
    t.regs.flags = 0 ∧ t.log = s.log ∧ t.params = s.params ∧
    stActive t = false ∧ busy t = false ∧ cmdReady t.regs = true ∧ txValid t = false ∧
    (s.pins.rxValid = true → t.dec = decodeFrame signalTable s.pins.rxId s.pins.rx)

/-- The model's choice, log entries 8 and 10: the three event operations stop by name where the event cannot happen
(R184, R199, R200) and at code points the spec refuses (R103). -/
def Obligations.EventsOutsideTheirCondition : Prop :=
  ∀ s : State,
    (s.regs.st = .idle ∨ s.regs.seq ≠ seqWait ∨ s.pins.cmdValid = true ∨ ¬Pending s.regs →
      exec .tick s = .refused .notEnabled) ∧
    (s.regs.seq ≠ seqSend → exec .burstSend s = .refused .notEnabled) ∧
    (s.regs.seq = seqSend → 5 ≤ s.regs.burstIdx.toNat → exec .burstSend s = .fault .illegalBurstIndex) ∧
    (s.regs.seq ≠ seqGap → exec .burstGap s = .refused .notEnabled) ∧
    (s.regs.seq = seqGap → 5 ≤ s.regs.burstIdx.toNat → exec .burstGap s = .fault .illegalBurstIndex) ∧
    (s.pins.rst = false → s.regs.seq = 3#2 → step s = .fault .illegalSequencerCode) ∧
    (s.pins.rst = false → s.regs.seq = seqSend ∨ s.regs.seq = seqGap → 5 ≤ s.regs.burstIdx.toNat →
      step s = .fault .illegalBurstIndex)

/-! ## The step -/

/-- A step runs the operations its select words decode to, all well formed, and nothing else: in general, and for the
cycles with one scheduler operation and no inbound frame, where it is `exec` of it from the state with empty outputs,
then the passage to the next inputs (`finish`). One step is one clock cycle (log entry 1). The quiet cycle leaves out
the state IDLE with a pending tick, which never occurs (R41 (c); log entry 9). -/
def Obligations.StepRunsTheDecodedOperations : Prop :=
  (∀ s : State, startStateFault s = none →
    ∃ is, decodeAll (fetch s) = .ok is ∧ (∀ i ∈ is, i.wf = true) ∧ step s = runCycle s is) ∧
  ∀ s : State, s.pins.rxValid = false →
    (s.pins.rst = true → s.regs.seq ≠ seqSend → step s = finish (exec .reset (beginCycle s))) ∧
    (s.pins.rst = false → s.regs.seq = seqWait →
      (∀ i, decode (.cw s.pins.cmd) = .ok i → s.pins.cmdValid = true → step s = finish (exec i (beginCycle s))) ∧
      (∀ i, decode (.tick (tickWord s)) = .ok i → s.pins.cmdValid = false →
        step s = finish (exec i (beginCycle s))) ∧
      (tickWord s ≠ 3#2 → s.pins.cmdValid = false → (s.regs.tickPend = true → s.regs.st = .active) → step s = .next (endCycle (quietCycle (beginCycle s))))) ∧
    (s.pins.rst = false → s.regs.seq = seqGap → s.regs.burstIdx.toNat ≤ 4 →
      ∀ i, decode (.seq s.regs.seq) = .ok i → step s = finish (exec i (beginCycle s))) ∧
    (s.pins.rst = false → s.regs.seq = seqSend →
      ∀ b i, decode (.txf s.regs.burstIdx) = .ok b → decode (.seq s.regs.seq) = .ok i →
        step s = finish (runAll [.encGear, .encInd, .encSpdf, .encStrf, b, i] (beginCycle s)))

/-- From every good state, under every input, the machine goes on: no condition of the spec stops it (R230). -/
def Obligations.GoodStatesAlwaysStep : Prop :=
  ∀ s : State, s.Good → ∃ t, step s = .next t

/-- R41, all of (a) to (h): true of the reset values under every parameter, and kept by every step of every good state,
under every input. -/
def Obligations.StepKeepsTheInvariants : Prop :=
  (∀ p : Params, Inv p Regs.reset) ∧
  ∀ s t : State, s.Good → step s = .next t → t.Good ∧
    (s.pins.rst = false → ∀ b, flagSet s.regs.flags b = true → flagSet t.regs.flags b = true)

/-- The reset state is good, whatever the parameters (R41, R42). -/
def Obligations.ResetStateIsGood : Prop := State.reset.Good

/-- R232: nothing but reset clears a flag, neither an operation nor a cycle. -/
def Obligations.FlagsAreSticky : Prop :=
  (∀ (i : Instr) (s t : State), exec i s = .next t → i ≠ .reset →
    ∀ b, flagSet s.regs.flags b = true → flagSet t.regs.flags b = true) ∧
  ∀ s t : State, step s = .next t → s.pins.rst = false →
    ∀ b, flagSet s.regs.flags b = true → flagSet t.regs.flags b = true

/-- R27, R220: a cycle sets a flag exactly on its cause. -/
def Obligations.FlagsHaveTheirCauses : Prop :=
  ∀ s t : State, step s = .next t → s.pins.rst = false →
    (flagSet t.regs.flags .txErr = true ↔
      flagSet s.regs.flags .txErr = true ∨ (TakesFrame s ∧ s.pins.txErr = true)) ∧
    (flagSet t.regs.flags .illCmd = true ↔ flagSet s.regs.flags .illCmd = true ∨ Accepts s 3#2) ∧
    (flagSet t.regs.flags .cmdIgn = true ↔
      flagSet s.regs.flags .cmdIgn = true ∨ (s.regs.st = .idle ∧ (Accepts s 1#2 ∨ Accepts s 2#2))) ∧
    (flagSet t.regs.flags .spdOvf = true ↔ flagSet s.regs.flags .spdOvf = true ∨
      (s.regs.seq = seqWait ∧ t.regs.seq = seqSend ∧ 655355 ≤ t.regs.bcmdSpeed.toInt.natAbs)) ∧
    (flagSet t.regs.flags .strOvf = true ↔ flagSet s.regs.flags .strOvf = true ∨
      (s.regs.seq = seqWait ∧ t.regs.seq = seqSend ∧ (strf s.params.roundTie t.regs.bcmdAngle < 0 ∨
        65535 < strf s.params.roundTie t.regs.bcmdAngle)))

/-- R20, R21, R22, R25, R197: which cycles write `ST`, the stored command and the burst command, and the three causes of
a burst. -/
def Obligations.WhatWritesTheCommandRegisters : Prop :=
  ∀ s t : State, s.Good → step s = .next t → s.pins.rst = false →
    (t.regs.st ≠ s.regs.st → (Accepts s 0#2 ∧ t.regs.st = .active) ∨ (Accepts s 2#2 ∧ t.regs.st = .idle)) ∧
    (¬Accepts s 0#2 → ¬(Accepts s 1#2 ∧ s.regs.st = .active) →
      t.regs.cmdSpeed = s.regs.cmdSpeed ∧ t.regs.cmdAngle = s.regs.cmdAngle) ∧
    (s.regs.seq = seqWait → (t.regs.seq = seqSend ↔
      Accepts s 0#2 ∨ (Accepts s 2#2 ∧ s.regs.st = .active) ∨ ServicesTick s)) ∧
    (¬(s.regs.seq = seqWait ∧ t.regs.seq = seqSend) →
      t.regs.bcmdSpeed = s.regs.bcmdSpeed ∧ t.regs.bcmdAngle = s.regs.bcmdAngle)

/-- R191, R205: the next value of `TIMER` and of `TICK_PEND` in every cycle. -/
def Obligations.TimerAndPendingTick : Prop :=
  ∀ s t : State, s.Good → step s = .next t → s.pins.rst = false →
    (Accepts s 0#2 → t.regs.timer = s.params.period) ∧
    (¬Accepts s 0#2 → TimerCounts s.params s.regs t.regs) ∧
    (t.regs.tickPend = true ↔
      Pending s.regs ∧ ¬Accepts s 0#2 ∧ ¬(Accepts s 2#2 ∧ s.regs.st = .active) ∧ ¬ServicesTick s)

/-- R199, R8, R31: the log grows by exactly the frames taken, and no parameter changes. -/
def Obligations.LogGrowsByTheTakenFrames : Prop :=
  ∀ s t : State, step s = .next t → t.params = s.params ∧ (¬TakesFrame s → t.log = s.log) ∧
    (TakesFrame s → ∃ fr, (encodeSet s.params s.regs.bcmdSpeed s.regs.bcmdAngle)[s.regs.burstIdx.toNat]? = some fr ∧
      t.tx = some fr ∧ t.log = s.log ++ [fr])

/-- R32, R68: the inbound port has no influence on the scheduler or on any frame sent, and the registers have none on a
decode. -/
def Obligations.DecoderAndSchedulerAreIndependent : Prop :=
  (∀ (s s' t t' : State) (v : Bool) (id : CanId) (f : RxPayload), s'.regs = s.regs → s'.params = s.params →
    s'.log = s.log → s'.pins = { s.pins with rxValid := v, rxId := id, rx := f } →
    step s = .next t → step s' = .next t' → t'.regs = t.regs ∧ t'.tx = t.tx ∧ t'.enc = t.enc ∧ t'.log = t.log) ∧
  ∀ s s' t t' : State, s'.pins.rxValid = s.pins.rxValid → s'.pins.rxId = s.pins.rxId →
    s'.pins.rx.len = s.pins.rx.len → s'.pins.rx.data = s.pins.rx.data →
    step s = .next t → step s' = .next t' → t'.dec = t.dec

/-- R73: a frame that is offered and not taken is offered again, unchanged. -/
def Obligations.OfferedFrameIsStable : Prop :=
  ∀ s t u : State, step s = .next t → step t = .next u → s.pins.rst = false → s.regs.seq = seqSend →
    s.pins.txReady = false → (∃ fr, t.tx = some fr ∧ u.tx = some fr) ∧ t.log = s.log

/-! ## Agreement with the event level, and timing -/

/-- R208, one cycle: a cycle that accepts no command and services no tick changes nothing the event level sees, and any
other cycle is its event, all of `FLAGS` included. `willFail` stands for what the transport will answer to the frames
that are still to be taken after the cycle, and there are none in WAIT (R189, R199; log entry 23). -/
def Obligations.CycleRefinesTheEventLevel : Prop :=
  ∀ (s t : State) (willFail : Bool), s.Good → s.pins.rst = false → step s = .next t →
    (t.regs.seq = seqWait → willFail = false) →
    (eventOf s = none → asEvent willFail t = asEvent (failsNow s || willFail) s) ∧
    (∀ ev, eventOf s = some ev →
      eventStep s.params willFail ev (asEvent false s) = some (asEvent willFail t))

/-- R208, every run: after any number of cycles without reset, `(ST, CMD, FLAGS)` and the log are those of the event
level run on the accepted commands and serviced ticks, in cycle order, each with the transport's answer to its burst
(R189; log entry 23). Between two states in WAIT nothing is left to read into a state: the registers and the log
themselves agree, all five flags included. -/
def Obligations.RunsRefineTheEventLevel : Prop :=
  ∀ (n : Nat) (s : State), s.Good → NoReset s n →
    ∃ t, run n s = .next t ∧
      eventRun s.params (eventsOfRun n s) (asEvent (burstFails n s) s) = some (asEvent false t) ∧
      (s.regs.seq = seqWait → t.regs.seq = seqWait →
        eventRun s.params (eventsOfRun n s)
            { st := s.regs.st, cmdSpeed := s.regs.cmdSpeed, cmdAngle := s.regs.cmdAngle, flags := s.regs.flags,
              log := s.log } =
          some { st := t.regs.st, cmdSpeed := t.regs.cmdSpeed, cmdAngle := t.regs.cmdAngle, flags := t.regs.flags,
                 log := t.log })

/-- R188. -/
def Obligations.EventRunsCountSets : Prop :=
  (∀ (p : Params) (evs : List (Event × Bool)) (e e' : EventState), eventRun p evs e = some e' →
    ∃ added, e'.log = e.log ++ added ∧ added.length = 5 * setsOfRun e.st evs) ∧
  ∀ (p : Params) (speed angle : Centi) (a b : Bool) (e : EventState), e.st = .idle →
    ∃ e', eventRun p [(.start speed angle, a), (.stop, b)] e = some e' ∧ e'.st = .idle ∧
      e'.log = e.log ++ (encodeSet p speed angle ++ encodeSet p 0 0)

/-- R209, R66: a burst under a transport that is always ready. Cycle 0 here is the cycle after the burst's beginning;
the frame of index k is offered in cycle k * (1 + GAP_CYCLES) and nothing in the cycles between, no command is accepted
on the way, and the machine is in WAIT after 5 * (1 + GAP_CYCLES) cycles with exactly the five frames added. -/
def Obligations.BurstTiming : Prop :=
  ∀ s : State, s.Good → s.regs.seq = seqSend → s.regs.burstIdx = 0 →
    NoReset s (5 * (1 + s.params.gapCycles)) → AlwaysReady s (5 * (1 + s.params.gapCycles)) →
    (∀ m < 5 * (1 + s.params.gapCycles), ∃ t u, run m s = .next t ∧ step t = .next u ∧ cmdReady t.regs = false ∧
      u.tx = if m % (1 + s.params.gapCycles) = 0 then
        (encodeSet s.params s.regs.bcmdSpeed s.regs.bcmdAngle)[m / (1 + s.params.gapCycles)]? else none) ∧
    ∃ t, run (5 * (1 + s.params.gapCycles)) s = .next t ∧ t.regs.seq = seqWait ∧ t.regs.burstIdx = 4#3 ∧
      t.log = s.log ++ encodeSet s.params s.regs.bcmdSpeed s.regs.bcmdAngle

/-- R191, R28: while no START or STOP comes, ticks fall exactly every PERIOD_CYCLES cycles, whatever the bursts do. -/
def Obligations.TicksAreOnePeriodApart : Prop :=
  ∀ (n : Nat) (s : State), s.Good → s.regs.st = .active → NoReset s n → NoCommand s n [0#2, 2#2] →
    ∃ t, run n s = .next t ∧ t.regs.st = .active ∧
      (tickNow t.regs = true ↔ (n + 1) % s.params.period = s.regs.timer % s.params.period)

/-- R184, R198, R265: an active machine in WAIT that is left alone begins a burst of its stored command within the
cycles its timer still counts. -/
def Obligations.HeartbeatBurst : Prop :=
  ∀ s : State, s.Good → s.regs.st = .active → s.regs.seq = seqWait → NoReset s s.regs.timer →
    NoCommand s s.regs.timer [0#2, 1#2, 2#2, 3#2] →
    ∃ n t, 1 ≤ n ∧ n ≤ s.regs.timer ∧ run n s = .next t ∧ t.regs.seq = seqSend ∧ t.regs.burstIdx = 0 ∧
      t.regs.bcmdSpeed = s.regs.cmdSpeed ∧ t.regs.bcmdAngle = s.regs.cmdAngle ∧ t.log = s.log

/-- R183, R239: in Idle, until the next START, no tick happens and nothing is sent. -/
def Obligations.IdleStaysSilent : Prop :=
  ∀ (n : Nat) (s : State), s.Good → s.regs.st = .idle → s.regs.seq = seqWait → NoCommand s n [0#2] →
    ∃ t, run n s = .next t ∧ t.regs.st = .idle ∧ t.regs.seq = seqWait ∧ t.regs.tickPend = false ∧ t.log = s.log

/-! ## The select words -/

/-- Decoding the select word of a well-formed operation gives it back, every operand at every value (R83, R84, R88,
R96 to R99; the order of the fields of an inbound word and the numbers of the slots and functions are the model's: log
entries 12 and 14). -/
def Obligations.DecodeOfEncode : Prop := ∀ i : Instr, i.wf = true → decode (encode i) = .ok i

/-- Every select word has at most one reading, which is well formed and encodes to that word. The port words are those
of R83, R97, R98 and R99; that a slot number, a function number and an inbound word of 98 bits determine the operation is
the model's choice, since R99 gives the rows of one identifier equal selectors and the pure functions none (log entries 12
and 14). -/
def Obligations.EncodeOfDecode : Prop := ∀ (w : OpWord) (i : Instr), decode w = .ok i → i.wf = true ∧ encode i = w

/-- A few words of the opcode table, read by the decoder (R96 to R99); which operation a word that stands for several
is read as is the model's choice (log entry 13). -/
def Obligations.TableWords : Prop :=
  decodeTableWord 32 0x303 = some (.decVehicleGear ⟨false, 0, 0⟩) ∧
  decodeTableWord 32 0x505 = some (.decUnknown 0x505 ⟨false, 0, 0⟩) ∧
  decodeTableWord 8 3 = some .encF504 ∧ decodeTableWord 8 5 = none ∧
  decodeTableWord 72 0x20000000000000000 = some (.stop 0 0) ∧
  decodeTableWord 72 0x1000003E8FFFFFE70 = some (.update 1000 (-400)) ∧
  decodeTableWord 2 1 = some .burstSend ∧ decodeTableWord 2 3 = some .tick ∧ decodeTableWord 1 1 = some .reset

/-! ## The parameters -/

/-- R9, R10, R166: elaboration refuses exactly the parameters the spec refuses (U4, U5) and takes the others as they are,
so every machine has wire constants the spec accepts; R20: the widths of `TIMER` and `GAP_CNT`, which every step keeps.
That the parameters are legal by their type and the counters are numbers within these widths is the model's choice, and
so is where a counter goes from 0, which no run counts down from (log entries 5, 6 and 7). -/
def Obligations.ParametersAndCounterWidths : Prop :=
  (∀ (period gap : Nat) (tie : RoundTie) (w : WireFields) (labels : Labels),
    ((∃ p, Params.elaborate period gap tie w labels = .ok p) ↔
      1 ≤ period ∧ w.indLeft ≠ w.indRight ∧ w.indLeft ≠ 0 ∧ w.indRight ≠ 0 ∧
      6 ≤ w.txLen1.toNat ∧ 8 ≤ w.txLen3.toNat ∧ 1 ≤ w.txLen4.toNat) ∧
    ∀ p, Params.elaborate period gap tie w labels = .ok p →
      p.period = period ∧ p.gapCycles = gap ∧ p.roundTie = tie ∧ p.wc.toWireFields = w ∧ p.labels = labels) ∧
  (∀ p : Params,
    p.wc.indLeft ≠ p.wc.indRight ∧ p.wc.indLeft ≠ 0 ∧ p.wc.indRight ≠ 0 ∧
    6 ≤ p.wc.txLen1.toNat ∧ 8 ≤ p.wc.txLen3.toNat ∧ 1 ≤ p.wc.txLen4.toNat ∧
    p.timerW = Nat.clog 2 (p.period + 1) ∧ p.gapW = max 1 (Nat.clog 2 (p.gapCycles + 1))) ∧
  Regs.reset.fits State.reset.params = true ∧
  ∀ s t : State, step s = .next t →
    (s.regs.fits s.params = true → t.regs.fits t.params = true) ∧
    (s.pins.rst = false → s.regs.st = .active → s.regs.timer = 0 → ¬Accepts s 0#2 →
      t.regs.timer = 2 ^ s.params.timerW - 1) ∧
    (s.pins.rst = false → s.regs.seq = seqGap → s.regs.gapCnt = 0 → t.regs.gapCnt = 2 ^ s.params.gapW - 1)
end

