-- ==== Sys2Proof/Laws/Operands.lean ====
section
/-! SUPPORT. Payload bytes, field extraction and rounding: what each operation answers. -/

namespace Sys2Proof.Machine

/-- Byte i of a bus built from bytes is the i-th of them (R12). -/
theorem byteAt_busOf (f : Nat → Byte) (i : Nat) (h : i < 8) : byteAt (busOf f) i = f i := by
  have h8 : i = 0 ∨ i = 1 ∨ i = 2 ∨ i = 3 ∨ i = 4 ∨ i = 5 ∨ i = 6 ∨ i = 7 := by omega
  apply BitVec.eq_of_getLsbD_eq
  intro j hj
  rcases h8 with rfl | rfl | rfl | rfl | rfl | rfl | rfl | rfl <;>
    simp only [byteAt, busOf, BitVec.getLsbD_extractLsb', BitVec.getLsbD_append, hj, decide_true, Bool.true_and] <;>
    repeat' split
  all_goals first | (exfalso; omega) | (congr 1; omega)

/-- A bus is determined by its eight bytes. -/
theorem bus_ext (d e : Bus) (h : ∀ i < 8, byteAt d i = byteAt e i) : d = e := by
  ext j hj
  have hb := congrArg (fun b : Byte => b.getLsbD (j % 8)) (h (j / 8) (by omega))
  simp only [byteAt, BitVec.getLsbD_extractLsb', Nat.mod_lt j (by omega : 0 < 8), decide_true, Bool.true_and] at hb
  have e8 : 8 * (j / 8) + j % 8 = j := Nat.div_add_mod j 8
  rw [e8] at hb
  simpa [BitVec.getLsbD_eq_getElem hj] using hb

/-- What `MemWrite` leaves in byte j (R54). -/
theorem byteAt_memWrite (d : Bus) (i n : Nat) (v : BitVec 16) (j : Nat) (h : j < 8) :
    byteAt (memWrite d i n v) j = if i ≤ j ∧ j < i + n then v.extractLsb' (8 * (j - i)) 8 else byteAt d j := by
  simp [memWrite, byteAt_busOf _ j h]

/-- `MemRead` of one, two and three bytes (R52, R53). -/
theorem memRead_one (d : Bus) (i : Nat) : memRead d i 1 = (byteAt d i).toNat := by simp [memRead]

theorem memRead_two (d : Bus) (i : Nat) :
    memRead d i 2 = (byteAt d i).toNat + 256 * (byteAt d (i + 1)).toNat := by simp [memRead]

theorem memRead_three (d : Bus) (i : Nat) :
    memRead d i 3 =
      (byteAt d i).toNat + 256 * ((byteAt d (i + 1)).toNat + 256 * (byteAt d (i + 1 + 1)).toNat) := by
  simp [memRead]

/-- A read of n bytes has 8n bits (R52). -/
theorem memRead_lt (d : Bus) (i n : Nat) : memRead d i n < 256 ^ n := by
  induction n generalizing i with
  | zero => simp [memRead]
  | succ n ih =>
    have h := ih (i + 1)
    have hb := (byteAt d i).isLt
    rw [memRead, Nat.pow_succ]
    omega

/-- The field of a row by division and remainder (R92). -/
theorem fieldOf_eq (r : SRow) (d : Bus) : fieldOf r d = memRead d r.lo (rowBytes r) / 2 ^ r.bitLo % 2 ^ r.width := by
  rw [fieldOf, Nat.and_two_pow_sub_one_eq_mod, Nat.shiftRight_eq_div_pow]

theorem fieldOf_lt (r : SRow) (d : Bus) : fieldOf r d < 2 ^ r.width := by
  rw [fieldOf_eq]
  exact Nat.mod_lt _ (Nat.two_pow_pos _)

/-- `MemRead` sees only the bytes it reads. -/
theorem memRead_congr (d e : Bus) (i n : Nat) (h : ∀ j, i ≤ j → j < i + n → byteAt d j = byteAt e j) :
    memRead d i n = memRead e i n := by
  induction n generalizing i with
  | zero => rfl
  | succ n ih =>
    rw [memRead, memRead, h i (Nat.le_refl i) (by omega), ih (i + 1) fun j h1 h2 => h j (by omega) (by omega)]

/-- The effective length is the length up to 8 (R56). -/
theorem effLen_le (len : BitVec 4) (hi : Nat) (h : hi < 8) : effLen len ≤ hi ↔ len.toNat ≤ hi := by
  unfold effLen
  omega

end Sys2Proof.Machine
end

