-- ==== Sys2Proof/Laws/State.lean ====
section
/-! SUPPORT. The fields of a state after each update, so that no later proof unfolds one. -/

namespace Sys2Proof.Machine

/-! The code points of `SEQ` differ (R20). -/

@[simp] theorem seqSend_ne_wait : seqSend ≠ seqWait := by decide
@[simp] theorem seqGap_ne_wait : seqGap ≠ seqWait := by decide
@[simp] theorem seqGap_ne_send : seqGap ≠ seqSend := by decide
@[simp] theorem seqWait_ne_send : seqWait ≠ seqSend := by decide
@[simp] theorem seqWait_ne_gap : seqWait ≠ seqGap := by decide
@[simp] theorem seqSend_ne_gap : seqSend ≠ seqGap := by decide

variable (s : State)

@[simp] theorem State.withRegs_params (r : Regs) : (s.withRegs r).params = s.params := rfl
@[simp] theorem State.withRegs_regs (r : Regs) : (s.withRegs r).regs = r := rfl
@[simp] theorem State.withRegs_pins (r : Regs) : (s.withRegs r).pins = s.pins := rfl
@[simp] theorem State.withRegs_env (r : Regs) : (s.withRegs r).env = s.env := rfl
@[simp] theorem State.withRegs_cycle (r : Regs) : (s.withRegs r).cycle = s.cycle := rfl
@[simp] theorem State.withRegs_dec (r : Regs) : (s.withRegs r).dec = s.dec := rfl
@[simp] theorem State.withRegs_enc (r : Regs) : (s.withRegs r).enc = s.enc := rfl
@[simp] theorem State.withRegs_tx (r : Regs) : (s.withRegs r).tx = s.tx := rfl
@[simp] theorem State.withRegs_log (r : Regs) : (s.withRegs r).log = s.log := rfl

@[simp] theorem State.withPins_params (p : Pins) : (s.withPins p).params = s.params := rfl
@[simp] theorem State.withPins_regs (p : Pins) : (s.withPins p).regs = s.regs := rfl
@[simp] theorem State.withPins_pins (p : Pins) : (s.withPins p).pins = p := rfl
@[simp] theorem State.withPins_env (p : Pins) : (s.withPins p).env = s.env := rfl
@[simp] theorem State.withPins_cycle (p : Pins) : (s.withPins p).cycle = s.cycle := rfl
@[simp] theorem State.withPins_dec (p : Pins) : (s.withPins p).dec = s.dec := rfl
@[simp] theorem State.withPins_enc (p : Pins) : (s.withPins p).enc = s.enc := rfl
@[simp] theorem State.withPins_tx (p : Pins) : (s.withPins p).tx = s.tx := rfl
@[simp] theorem State.withPins_log (p : Pins) : (s.withPins p).log = s.log := rfl

@[simp] theorem State.withDec_params (d : DecOut) : (s.withDec d).params = s.params := rfl
@[simp] theorem State.withDec_regs (d : DecOut) : (s.withDec d).regs = s.regs := rfl
@[simp] theorem State.withDec_pins (d : DecOut) : (s.withDec d).pins = s.pins := rfl
@[simp] theorem State.withDec_env (d : DecOut) : (s.withDec d).env = s.env := rfl
@[simp] theorem State.withDec_cycle (d : DecOut) : (s.withDec d).cycle = s.cycle := rfl
@[simp] theorem State.withDec_dec (d : DecOut) : (s.withDec d).dec = d := rfl
@[simp] theorem State.withDec_enc (d : DecOut) : (s.withDec d).enc = s.enc := rfl
@[simp] theorem State.withDec_tx (d : DecOut) : (s.withDec d).tx = s.tx := rfl
@[simp] theorem State.withDec_log (d : DecOut) : (s.withDec d).log = s.log := rfl

@[simp] theorem State.withEnc_params (e : EncOut) : (s.withEnc e).params = s.params := rfl
@[simp] theorem State.withEnc_regs (e : EncOut) : (s.withEnc e).regs = s.regs := rfl
@[simp] theorem State.withEnc_pins (e : EncOut) : (s.withEnc e).pins = s.pins := rfl
@[simp] theorem State.withEnc_env (e : EncOut) : (s.withEnc e).env = s.env := rfl
@[simp] theorem State.withEnc_cycle (e : EncOut) : (s.withEnc e).cycle = s.cycle := rfl
@[simp] theorem State.withEnc_dec (e : EncOut) : (s.withEnc e).dec = s.dec := rfl
@[simp] theorem State.withEnc_enc (e : EncOut) : (s.withEnc e).enc = e := rfl
@[simp] theorem State.withEnc_tx (e : EncOut) : (s.withEnc e).tx = s.tx := rfl
@[simp] theorem State.withEnc_log (e : EncOut) : (s.withEnc e).log = s.log := rfl

@[simp] theorem State.withTx_params (f : Option TxFrame) : (s.withTx f).params = s.params := rfl
@[simp] theorem State.withTx_regs (f : Option TxFrame) : (s.withTx f).regs = s.regs := rfl
@[simp] theorem State.withTx_pins (f : Option TxFrame) : (s.withTx f).pins = s.pins := rfl
@[simp] theorem State.withTx_env (f : Option TxFrame) : (s.withTx f).env = s.env := rfl
@[simp] theorem State.withTx_cycle (f : Option TxFrame) : (s.withTx f).cycle = s.cycle := rfl
@[simp] theorem State.withTx_dec (f : Option TxFrame) : (s.withTx f).dec = s.dec := rfl
@[simp] theorem State.withTx_enc (f : Option TxFrame) : (s.withTx f).enc = s.enc := rfl
@[simp] theorem State.withTx_tx (f : Option TxFrame) : (s.withTx f).tx = f := rfl
@[simp] theorem State.withTx_log (f : Option TxFrame) : (s.withTx f).log = s.log := rfl

@[simp] theorem State.logged_params (f : TxFrame) : (s.logged f).params = s.params := rfl
@[simp] theorem State.logged_regs (f : TxFrame) : (s.logged f).regs = s.regs := rfl
@[simp] theorem State.logged_pins (f : TxFrame) : (s.logged f).pins = s.pins := rfl
@[simp] theorem State.logged_env (f : TxFrame) : (s.logged f).env = s.env := rfl
@[simp] theorem State.logged_cycle (f : TxFrame) : (s.logged f).cycle = s.cycle := rfl
@[simp] theorem State.logged_dec (f : TxFrame) : (s.logged f).dec = s.dec := rfl
@[simp] theorem State.logged_enc (f : TxFrame) : (s.logged f).enc = s.enc := rfl
@[simp] theorem State.logged_tx (f : TxFrame) : (s.logged f).tx = s.tx := rfl
@[simp] theorem State.logged_log (f : TxFrame) : (s.logged f).log = s.log ++ [f] := rfl

@[simp] theorem beginCycle_params : (beginCycle s).params = s.params := rfl
@[simp] theorem beginCycle_regs : (beginCycle s).regs = s.regs := rfl
@[simp] theorem beginCycle_pins : (beginCycle s).pins = s.pins := rfl
@[simp] theorem beginCycle_env : (beginCycle s).env = s.env := rfl
@[simp] theorem beginCycle_cycle : (beginCycle s).cycle = s.cycle := rfl
@[simp] theorem beginCycle_dec : (beginCycle s).dec = DecOut.none := rfl
@[simp] theorem beginCycle_enc : (beginCycle s).enc = EncOut.none := rfl
@[simp] theorem beginCycle_tx : (beginCycle s).tx = none := rfl
@[simp] theorem beginCycle_log : (beginCycle s).log = s.log := rfl

@[simp] theorem endCycle_params : (endCycle s).params = s.params := rfl
@[simp] theorem endCycle_regs : (endCycle s).regs = s.regs := rfl
@[simp] theorem endCycle_pins : (endCycle s).pins = nextPins s := rfl
@[simp] theorem endCycle_env : (endCycle s).env = s.env.tail := rfl
@[simp] theorem endCycle_cycle : (endCycle s).cycle = s.cycle + 1 := rfl
@[simp] theorem endCycle_dec : (endCycle s).dec = s.dec := rfl
@[simp] theorem endCycle_enc : (endCycle s).enc = s.enc := rfl
@[simp] theorem endCycle_tx : (endCycle s).tx = s.tx := rfl
@[simp] theorem endCycle_log : (endCycle s).log = s.log := rfl

@[simp] theorem quietCycle_params : (quietCycle s).params = s.params := rfl
@[simp] theorem quietCycle_regs : (quietCycle s).regs = countCycle s.params s.regs := rfl
@[simp] theorem quietCycle_pins : (quietCycle s).pins = s.pins := rfl
@[simp] theorem quietCycle_env : (quietCycle s).env = s.env := rfl
@[simp] theorem quietCycle_cycle : (quietCycle s).cycle = s.cycle := rfl
@[simp] theorem quietCycle_dec : (quietCycle s).dec = s.dec := rfl
@[simp] theorem quietCycle_enc : (quietCycle s).enc = s.enc := rfl
@[simp] theorem quietCycle_tx : (quietCycle s).tx = s.tx := rfl
@[simp] theorem quietCycle_log : (quietCycle s).log = s.log := rfl

@[simp] theorem State.withRegs_self : s.withRegs s.regs = s := rfl
@[simp] theorem State.withDec_self : s.withDec s.dec = s := rfl
@[simp] theorem State.withRegs_withRegs (q r : Regs) : (s.withRegs q).withRegs r = s.withRegs r := rfl
@[simp] theorem State.withDec_withDec (d e : DecOut) : (s.withDec d).withDec e = s.withDec e := rfl

end Sys2Proof.Machine
end

