-- ==== Sys2Proof/Laws/Ops.lean ====
section
/-! SUPPORT. What each shared operation can do, once: records and slots, flags, and the register transfers of one
clock edge. -/

namespace Sys2Proof.Machine

/-! Records and slots. -/

theorem decodeRow_short (r : SRow) (len : Nat) (d : Bus) (h : len ≤ r.hi) :
    decodeRow r len d = raiseDecodeError .short (openRecord r) := by simp [decodeRow, h]

theorem decodeRow_num (r : SRow) (len : Nat) (d : Bus) (h : r.hi < len) (hk : r.kind = .num) :
    decodeRow r len d = deliver (linear r (signedField r (fieldOf r d))) (openRecord r) := by
  simp [decodeRow, Nat.not_le.mpr h, hk]

theorem decodeRow_flag (r : SRow) (len : Nat) (d : Bus) (h : r.hi < len) (hk : r.kind = .flag) :
    decodeRow r len d = deliver (fieldOf r d : Int) (openRecord r) := by
  simp [decodeRow, Nat.not_le.mpr h, hk]

theorem decodeRow_enum (r : SRow) (len : Nat) (d : Bus) (h : r.hi < len) (hk : r.kind = .enum)
    (hf : fieldOf r d < r.enumLen) : decodeRow r len d = deliver (fieldOf r d : Int) (openRecord r) := by
  simp [decodeRow, Nat.not_le.mpr h, hk, Nat.not_le.mpr hf]

theorem decodeRow_enumOob (r : SRow) (len : Nat) (d : Bus) (h : r.hi < len) (hk : r.kind = .enum)
    (hf : r.enumLen ≤ fieldOf r d) : decodeRow r len d = raiseDecodeError .enumOob (openRecord r) := by
  simp [decodeRow, Nat.not_le.mpr h, hk, hf]

theorem slotAt_setSlot (d : DecOut) (k j : Nat) (x : Slot) (hk : k < 4) :
    slotAt (setSlot d k x) j = if j = k then x else slotAt d j := by
  have h4 : k = 0 ∨ k = 1 ∨ k = 2 ∨ k = 3 := by omega
  rcases h4 with rfl | rfl | rfl | rfl <;>
    rcases j with _ | _ | _ | _ | j <;> simp [slotAt, setSlot]

/-- A row operation changes the decoder's port alone. -/
theorem publishRow_frame (r : SRow) (k : Nat) (f : RxPayload) (s : State) :
    publishRow r k f s = s.withDec (publishRow r k f s).dec := rfl

/-! Flags. -/

theorem flagSet_raiseFlag (b c : FlagBit) (f : BitVec 5) :
    flagSet (raiseFlag b f) c = (flagSet f c || b == c) := by
  cases b <;> cases c <;> simp [flagSet, raiseFlag, flagIndex]

theorem flagSet_raiseFlagIf (g : Bool) (b c : FlagBit) (f : BitVec 5) :
    flagSet (raiseFlagIf g b f) c = (flagSet f c || (g && b == c)) := by
  cases g <;> simp [raiseFlagIf, flagSet_raiseFlag]

/-- Which flags a burst begin sets (R206). -/
theorem flagSet_overflowFlags (tie : RoundTie) (speed angle : Centi) (f : BitVec 5) (c : FlagBit) :
    flagSet (overflowFlags tie speed angle f) c =
      (flagSet f c || (fieldOverflows (spdf tie speed) && FlagBit.spdOvf == c) ||
        (fieldOverflows (strf tie angle) && FlagBit.strOvf == c)) := by
  simp [overflowFlags, flagSet_raiseFlagIf]

/-- `FLAGS` is determined by its five flags. -/
theorem flags_ext (f g : BitVec 5) (h : ∀ c, flagSet f c = flagSet g c) : f = g := by
  have h0 := h .txErr
  have h1 := h .illCmd
  have h2 := h .spdOvf
  have h3 := h .strOvf
  have h4 := h .cmdIgn
  simp only [flagSet, flagIndex] at h0 h1 h2 h3 h4
  apply BitVec.eq_of_getLsbD_eq
  intro i hi
  have h5 : i = 0 ∨ i = 1 ∨ i = 2 ∨ i = 3 ∨ i = 4 := by omega
  rcases h5 with rfl | rfl | rfl | rfl | rfl <;> assumption

/-! The widths of the counters (R20). -/

/-- PERIOD_CYCLES fits the timer. -/
theorem period_lt (p : Params) : p.period < 2 ^ p.timerW := Nat.lt_log2_self

/-- GAP_CYCLES fits the gap counter. -/
theorem gapCycles_lt (p : Params) : p.gapCycles < 2 ^ p.gapW := Nat.lt_log2_self

/-- A counter stays within its width. -/
theorem decrement_lt (w n : Nat) : decrement w n < 2 ^ w := Nat.mod_lt _ (Nat.two_pow_pos w)

/-- A counter that is not 0 goes down by one. -/
theorem decrement_of_pos (w n : Nat) (h1 : 1 ≤ n) (h2 : n < 2 ^ w) : decrement w n = n - 1 := by
  have h : n + (2 ^ w - 1) = (n - 1) + 2 ^ w := by omega
  rw [decrement, h, Nat.add_mod_right, Nat.mod_eq_of_lt (by omega)]

/-- A counter at 0 goes to its greatest value. -/
theorem decrement_zero (w : Nat) : decrement w 0 = 2 ^ w - 1 := by
  have h := Nat.two_pow_pos w
  rw [decrement, Nat.zero_add, Nat.mod_eq_of_lt (by omega)]

/-! The wires of the decoder's port. -/

@[simp] theorem slotWires_empty :
    slotWires Slot.empty = { v := 0, sigId := 0, kind := 0, val := 0, dec := 0, err := 0 } := rfl

/-- The code of a kind tells the kind. -/
theorem kindCode_inj (a b : RowKind) (h : kindCode a = kindCode b) : a = b := by
  cases a <;> cases b <;> first | rfl | exact absurd h (by decide)

/-- The code of an error tells the error. -/
theorem errCode_inj (a b : DecodeError) (h : errCode a = errCode b) : a = b := by
  cases a <;> cases b <;> first | rfl | exact absurd h (by decide)

/-! The register transfers. -/

/-- Where `SEQ` and `BURST_IDX` go after a frame (R200, R201, R202). -/
theorem nextFrame_cases (r : Regs) :
    (r.burstIdx = 4#3 ∧ nextFrame r = { r with seq := seqWait }) ∨
      (r.burstIdx ≠ 4#3 ∧ nextFrame r = { r with seq := seqSend, burstIdx := r.burstIdx + 1#3 }) := by
  by_cases h : r.burstIdx = 4#3
  · exact .inl ⟨h, by simp [nextFrame, h]⟩
  · exact .inr ⟨h, by simp [nextFrame, h]⟩

/-- What the taking of a frame does (R199, R202). -/
theorem frameTaken_cases (p : Params) (err : Bool) (r : Regs) :
    (0 < p.gapCycles ∧ frameTaken p err r =
        { r with flags := raiseFlagIf err .txErr r.flags, seq := seqGap, gapCnt := p.gapCycles }) ∨
      (p.gapCycles = 0 ∧ frameTaken p err r = nextFrame { r with flags := raiseFlagIf err .txErr r.flags }) := by
  by_cases h : 0 < p.gapCycles
  · exact .inl ⟨h, by simp [frameTaken, h]⟩
  · exact .inr ⟨by omega, by simp [frameTaken, h]⟩

/-- What a gap cycle does (R200). -/
theorem gapStep_cases (p : Params) (r : Regs) :
    (r.gapCnt = 1 ∧ gapStep p r = nextFrame r) ∨
      (r.gapCnt ≠ 1 ∧ gapStep p r = { r with gapCnt := decrement p.gapW r.gapCnt }) := by
  by_cases h : r.gapCnt = 1
  · exact .inl ⟨h, by simp [gapStep, h]⟩
  · exact .inr ⟨h, by simp [gapStep, h]⟩

/-- A command operation either is accepted or is held (R196). -/
theorem commandOp_cases (accept : Regs → Regs) (s : State) :
    (s.regs.seq = seqWait ∧ commandOp accept s = s.withRegs (accept s.regs)) ∨
      (s.regs.seq ≠ seqWait ∧ commandOp accept s = s) := by
  by_cases h : s.regs.seq = seqWait <;> simp [commandOp, cmdReady, h]

/-- The frame at an index (R97, R165). -/
theorem frameAt_some (p : Params) (speed angle : Centi) (idx : BitVec 3) (h : frameIndexOk idx = true) :
    ∃ f, frameAt p speed angle idx = some f := by
  have h5 : idx.toNat < 5 := by simpa [frameIndexOk] using h
  exact ⟨(encodeSet p speed angle)[idx.toNat]'(by simpa [encodeSet] using h5), by
    simp [frameAt, List.getElem?_eq_getElem (show idx.toNat < (encodeSet p speed angle).length by
      simpa [encodeSet] using h5)]⟩

end Sys2Proof.Machine
end

