-- ==== Sys2Proof/Laws/Cycle.lean ====
section
/-! SUPPORT. What one step can do, said once (`step_eq`): the registers, outputs and log after a cycle as functions of
the state before it. Every later fact about a step is read off this. -/

namespace Sys2Proof.Machine

/-! ## Inbound words -/

theorem rxfId_packRxf (id : CanId) (f : RxPayload) : rxfId (packRxf id f) = id := by
  apply BitVec.eq_of_getLsbD_eq
  intro i hi
  simp only [rxfId, packRxf, BitVec.getLsbD_extractLsb', BitVec.getLsbD_append, hi, decide_true, Bool.true_and,
    Nat.zero_add, if_true]

theorem rxfPayload_packRxf (id : CanId) (f : RxPayload) : rxfPayload (packRxf id f) = f := by
  obtain ⟨ide, len, data⟩ := f
  simp only [rxfPayload, packRxf, RxPayload.mk.injEq]
  refine ⟨?_, ?_, ?_⟩
  · simp only [BitVec.getLsbD_append, Nat.lt_irrefl, if_false, Nat.sub_self]
    simp
  · apply BitVec.eq_of_getLsbD_eq
    intro i hi
    simp only [BitVec.getLsbD_extractLsb', BitVec.getLsbD_append, hi, decide_true, Bool.true_and]
    repeat' split
    all_goals first | (exfalso; omega) | (congr 1; omega)
  · apply BitVec.eq_of_getLsbD_eq
    intro i hi
    simp only [BitVec.getLsbD_extractLsb', BitVec.getLsbD_append, hi, decide_true, Bool.true_and]
    repeat' split
    all_goals first | (exfalso; omega) | (congr 1; omega)

theorem packRxf_surj (w : BitVec 98) : packRxf (rxfId w) (rxfPayload w) = w := by
  apply BitVec.eq_of_getLsbD_eq
  intro i hi
  simp only [packRxf, rxfId, rxfPayload, BitVec.getLsbD_append, BitVec.getLsbD_extractLsb', BitVec.getLsbD_ofBool]
  repeat' split
  all_goals first
    | (have e : i = 29 := by omega
       subst e; simp)
    | (rw [decide_eq_true (by omega), Bool.true_and]; congr 1; omega)

/-! ## Decoding and running lists -/

theorem decodeAll_append (a b : List OpWord) (x y : List Instr) (ha : decodeAll a = .ok x) (hb : decodeAll b = .ok y) :
    decodeAll (a ++ b) = .ok (x ++ y) := by
  induction a generalizing x with
  | nil =>
    simp only [decodeAll, Except.ok.injEq] at ha
    subst ha
    simpa using hb
  | cons w ws ih =>
    simp only [decodeAll] at ha
    cases hw : decode w with
    | error r => simp [hw] at ha
    | ok i =>
      cases hs : decodeAll ws with
      | error r => simp [hw, hs] at ha
      | ok is =>
        simp only [hw, hs, Except.ok.injEq] at ha
        subst ha
        simp [decodeAll, hw, ih is hs]

theorem runAll_append (a b : List Instr) (s t : State) (h : runAll a s = .next t) :
    runAll (a ++ b) s = runAll b t := by
  induction a generalizing s with
  | nil =>
    simp only [runAll, Host.Outcome.next.injEq] at h
    subst h
    rfl
  | cons i is ih =>
    simp only [runAll] at h
    cases hi : exec i s with
    | next u =>
      rw [hi] at h
      simp only [List.cons_append, runAll, hi]
      exact ih u h
    | fault r => simp [hi] at h
    | refused r => simp [hi] at h

theorem runAll_one (i : Instr) (s : State) : runAll [i] s = exec i s := by
  cases h : exec i s <;> simp [runAll, h]

/-! ## The decoder's part of a cycle -/

/-- The decoder's outputs of a cycle (R110, R143). -/
def decOut (p : Pins) : DecOut := if p.rxValid then decodeFrame signalTable p.rxId p.rx else .none

theorem selectRx_length (id : CanId) (f : RxPayload) : 1 ≤ (selectRx id f).length ∧ (selectRx id f).length ≤ 4 := by
  unfold selectRx
  repeat' split
  all_goals simp

/-- The decoder's words decode to the operations of the frame's identifier, in slot order (R96). -/
theorem decodeAll_fetchDecoder (p : Pins) (h : p.rxValid = true) :
    decodeAll (fetchDecoder p) = .ok (selectRx p.rxId p.rx) := by
  have hw : ∀ k : BitVec 2, decode (.rxf k (packRxf p.rxId p.rx)) =
      match (selectRx p.rxId p.rx)[k.toNat]? with
      | some i => .ok i
      | none => .error .noRecordInSlot := by
    intro k
    cases hk : (selectRx p.rxId p.rx)[k.toNat]? <;> simp only [decode, rxfId_packRxf, rxfPayload_packRxf, hk]
  obtain ⟨h1, h4⟩ := selectRx_length p.rxId p.rx
  simp only [fetchDecoder, h, if_true]
  generalize selectRx p.rxId p.rx = is at *
  match is, h1, h4 with
  | [a], _, _ => simp [List.range_succ, decodeAll, hw]
  | [a, b], _, _ => simp [List.range_succ, decodeAll, hw]
  | [a, b, c], _, _ => simp [List.range_succ, decodeAll, hw]
  | [a, b, c, d], _, _ => simp [List.range_succ, decodeAll, hw]

/-- The rows of an identifier, by name (R96, R111). -/
theorem rowsOf_unknown (id : CanId) (h : knownIds.contains id = false) : rowsOf signalTable id = [] := by
  simp only [knownIds, List.contains_cons, List.contains_nil, Bool.or_false, Bool.or_eq_false_iff,
    beq_eq_false_iff_ne] at h
  obtain ⟨h1, h2, h3, h4, h5, h6, h7, h8⟩ := h
  simp only [rowsOf, List.filter_eq_nil_iff, beq_iff_eq, signalTable, List.forall_mem_cons]
  refine ⟨?_, ?_, ?_, ?_, ?_, ?_, ?_, ?_, ?_, ?_, ?_, ?_, ?_, ?_, ?_, ?_, ?_, ?_, ?_, ?_, ?_, ?_, ?_, by simp⟩ <;>
    intro e <;> subst e <;> simp_all [numRow, enumRow, flagRow, rowVehicleGear, rowDriveStateMode, rowSpeedRequestKmh,
      rowDirectionAngle, rowEpsControl, rowVehicleSpeed, rowWheelAngle, rowBrakePressure, rowBrakeLight, rowHeadLight,
      rowEmergencyButton, rowTouchSwitches, rowEpsCurrentAngle, rowEpsTemperature, rowBusVoltage, rowBusCurrent,
      rowDriveMode, rowBrakeRequest, rowSpeedRequestRpm, rowTorqueRequest, rowBatterySoh, rowBatterySoc,
      rowBatteryVoltage]

theorem rowsOf_303 : rowsOf signalTable 0x303#29 = [rowVehicleGear, rowDriveStateMode, rowSpeedRequestKmh] := by rfl
theorem rowsOf_314 : rowsOf signalTable 0x314#29 = [rowDirectionAngle, rowEpsControl] := by rfl
theorem rowsOf_304 : rowsOf signalTable 0x304#29 = [rowVehicleSpeed, rowWheelAngle, rowBrakePressure] := by rfl
theorem rowsOf_301 :
    rowsOf signalTable 0x301#29 = [rowBrakeLight, rowHeadLight, rowEmergencyButton, rowTouchSwitches] := by rfl
theorem rowsOf_18F : rowsOf signalTable 0x18F#29 = [rowEpsCurrentAngle, rowEpsTemperature] := by rfl
theorem rowsOf_060 : rowsOf signalTable 0x060#29 = [rowBusVoltage, rowBusCurrent] := by rfl
theorem rowsOf_160 :
    rowsOf signalTable 0x160#29 = [rowDriveMode, rowBrakeRequest, rowSpeedRequestRpm, rowTorqueRequest] := by rfl
theorem rowsOf_0A0 : rowsOf signalTable 0x0A0#29 = [rowBatterySoh, rowBatterySoc, rowBatteryVoltage] := by rfl

/-- The rows of one identifier run one after another leave the port as `DECODE` gives it (R110). -/
theorem runAll_selectRx (id : CanId) (f : RxPayload) (s : State) (h : s.dec = DecOut.none) :
    runAll (selectRx id f) s = .next (s.withDec (decodeFrame signalTable id f)) := by
  by_cases k1 : id = 0x303#29
  · subst k1
    simp only [decodeFrame, rowCount, rowsOf_303]
    simp [selectRx, runAll, exec, execDecVehicleGear, execDecDriveStateMode, execDecSpeedRequestKmh, publishRow, h,
      setSlot, DecOut.none, decodeSlot, rowVehicleGear, rowDriveStateMode, rowSpeedRequestKmh, enumRow, numRow, rowCount,
      rowsOf_303]
  by_cases k2 : id = 0x314#29
  · subst k2
    simp only [decodeFrame, rowCount, rowsOf_314]
    simp [selectRx, runAll, exec, execDecDirectionAngle, execDecEpsControl, publishRow, h, setSlot, DecOut.none,
      decodeSlot, rowDirectionAngle, rowEpsControl, flagRow, numRow, rowCount, rowsOf_314]
  by_cases k3 : id = 0x304#29
  · subst k3
    simp only [decodeFrame, rowCount, rowsOf_304]
    simp [selectRx, runAll, exec, execDecVehicleSpeed, execDecWheelAngle, execDecBrakePressure, publishRow, h, setSlot,
      DecOut.none, decodeSlot, rowVehicleSpeed, rowWheelAngle, rowBrakePressure, numRow, rowCount, rowsOf_304]
  by_cases k4 : id = 0x301#29
  · subst k4
    simp only [decodeFrame, rowCount, rowsOf_301]
    simp [selectRx, runAll, exec, execDecBrakeLight, execDecHeadLight, execDecEmergencyButton, execDecTouchSwitches,
      publishRow, h, setSlot, DecOut.none, decodeSlot, rowBrakeLight, rowHeadLight, rowEmergencyButton,
      rowTouchSwitches, flagRow, rowCount, rowsOf_301]
  by_cases k5 : id = 0x18F#29
  · subst k5
    simp only [decodeFrame, rowCount, rowsOf_18F]
    simp [selectRx, runAll, exec, execDecEpsCurrentAngle, execDecEpsTemperature, publishRow, h, setSlot, DecOut.none,
      decodeSlot, rowEpsCurrentAngle, rowEpsTemperature, numRow, rowCount, rowsOf_18F]
  by_cases k6 : id = 0x060#29
  · subst k6
    simp only [decodeFrame, rowCount, rowsOf_060]
    simp [selectRx, runAll, exec, execDecBusVoltage, execDecBusCurrent, publishRow, h, setSlot, DecOut.none, decodeSlot,
      rowBusVoltage, rowBusCurrent, numRow, rowCount, rowsOf_060]
  by_cases k7 : id = 0x160#29
  · subst k7
    simp only [decodeFrame, rowCount, rowsOf_160]
    simp [selectRx, runAll, exec, execDecDriveMode, execDecBrakeRequest, execDecSpeedRequestRpm, execDecTorqueRequest,
      publishRow, h, setSlot, DecOut.none, decodeSlot, rowDriveMode, rowBrakeRequest, rowSpeedRequestRpm,
      rowTorqueRequest, numRow, enumRow, flagRow, rowCount, rowsOf_160]
  by_cases k8 : id = 0x0A0#29
  · subst k8
    simp only [decodeFrame, rowCount, rowsOf_0A0]
    simp [selectRx, runAll, exec, execDecBatterySoh, execDecBatterySoc, execDecBatteryVoltage, publishRow, h, setSlot,
      DecOut.none, decodeSlot, rowBatterySoh, rowBatterySoc, rowBatteryVoltage, numRow, rowCount, rowsOf_0A0]
  have hr : rowsOf signalTable id = [] :=
    rowsOf_unknown id (by
      simp only [knownIds, List.contains_cons, List.contains_nil, Bool.or_false, Bool.or_eq_false_iff,
        beq_eq_false_iff_ne]
      exact ⟨k1, k2, k3, k4, k5, k6, k7, k8⟩)
  simp [selectRx, k1, k2, k3, k4, k5, k6, k7, k8, runAll, exec, execDecUnknown, publishUnknown, decodeFrame, rowCount,
    hr, decodeSlot, DecOut.none]

/-! ## The encoder's part of a cycle -/

/-- The encoder's wires of a cycle (R150). -/
def encOut (s : State) : EncOut :=
  if s.regs.seq = seqSend then
    { gear := some (gearOf s.regs.bcmdSpeed s.regs.bcmdAngle), ind := some (indicatorOf s.regs.bcmdAngle),
      spdf := some (spdf s.params.roundTie s.regs.bcmdSpeed), strf := some (strf s.params.roundTie s.regs.bcmdAngle) }
  else .none

/-- The outbound port of a cycle (R82, R199, R207). -/
def txOut (s : State) : Option TxFrame :=
  if s.regs.seq = seqSend then frameAt s.params s.regs.bcmdSpeed s.regs.bcmdAngle s.regs.burstIdx else none

/-- The operations of the encoder in a cycle. -/
def encoderOps (s : State) : List Instr :=
  if s.regs.seq = seqSend then
    [.encGear, .encInd, .encSpdf, .encStrf] ++ (selectTx s.regs.burstIdx).toList
  else []

theorem frameIndexOk_iff (idx : BitVec 3) :
    frameIndexOk idx = true ↔ idx = 0#3 ∨ idx = 1#3 ∨ idx = 2#3 ∨ idx = 3#3 ∨ idx = 4#3 := by
  revert idx; decide

theorem decodeAll_fetchEncoder (s : State) (h : startStateFault s = none) :
    decodeAll (fetchEncoder s) = .ok (encoderOps s) := by
  by_cases hs : s.regs.seq = seqSend
  · cases hi : frameIndexOk s.regs.burstIdx with
    | true =>
      have hw : decodeAll [.txf s.regs.burstIdx] = .ok (selectTx s.regs.burstIdx).toList := by
        rcases (frameIndexOk_iff _).mp hi with e | e | e | e | e <;> rw [e] <;> rfl
      simp only [fetchEncoder, encoderOps, hs, hi, if_true, Bool.not_true, Bool.and_false, Bool.false_eq_true, if_false]
      exact decodeAll_append _ _ _ _ rfl hw
    | false =>
      have hr : s.pins.rst = true := by
        by_contra hr
        simp [startStateFault, hr, hs, hi, phaseOk] at h
      have hn : selectTx s.regs.burstIdx = none := by
        generalize s.regs.burstIdx = idx at hi
        revert idx; decide
      simp [fetchEncoder, encoderOps, hs, hi, hr, hn, decodeAll, decode, selectFn]
  · simp [fetchEncoder, encoderOps, hs, decodeAll]

theorem runAll_encoderOps (s t : State) (hr : t.regs = s.regs) (hp : t.params = s.params) (he : t.enc = .none)
    (ht : t.tx = none) : runAll (encoderOps s) t = .next ((t.withEnc (encOut s)).withTx (txOut s)) := by
  obtain ⟨params, regs, pins, env, cycle, dec, enc, tx, log⟩ := t
  simp only at hr hp he ht
  subst hr hp he ht
  by_cases hs : s.regs.seq = seqSend
  · cases hi : frameIndexOk s.regs.burstIdx with
    | true =>
      rcases (frameIndexOk_iff _).mp hi with e | e | e | e | e <;>
        simp [encoderOps, encOut, txOut, hs, e, selectTx, runAll, exec, execEncGear, execEncInd, execEncSpdf,
          execEncStrf, execEncF501, execEncF502, execEncF503, execEncF504, execEncF506, offer, frameAt, encodeSet,
          State.withEnc, State.withTx, EncOut.none]
    | false =>
      have hn : selectTx s.regs.burstIdx = none ∧ 5 ≤ s.regs.burstIdx.toNat := by
        generalize s.regs.burstIdx = idx at hi
        revert idx; decide
      have hf : frameAt s.params s.regs.bcmdSpeed s.regs.bcmdAngle s.regs.burstIdx = none := by
        simp [frameAt, encodeSet, hn.2]
      simp [encoderOps, encOut, txOut, hs, hn.1, hf, runAll, exec, execEncGear, execEncInd, execEncSpdf, execEncStrf,
        State.withEnc, State.withTx, EncOut.none]
  · simp [encoderOps, encOut, txOut, hs, runAll, State.withEnc, State.withTx]

/-! ## The scheduler's part of a cycle -/

/-- The registers after an accepted command (R193 to R195, R204). -/
def commandRegs (p : Params) (w : BitVec 66) (r : Regs) : Regs :=
  if cwOp w = 0#2 then acceptStart p (cwSpeed w) (cwAngle w) r
  else if cwOp w = 1#2 then acceptUpdate p (cwSpeed w) (cwAngle w) r
  else if cwOp w = 2#2 then acceptStop p r
  else acceptRsvd p r

/-- The registers after a cycle (R190). -/
def nextRegs (s : State) : Regs :=
  if s.pins.rst then Regs.reset
  else if s.regs.seq = seqWait then
    if s.pins.cmdValid then commandRegs s.params s.pins.cmd s.regs
    else if tickWord s = 3#2 then serviceTick s.params s.regs
    else countCycle s.params s.regs
  else if s.regs.seq = seqSend then
    if s.pins.txReady then frameTaken s.params s.pins.txErr (countCycle s.params s.regs)
    else countCycle s.params s.regs
  else gapStep s.params (countCycle s.params s.regs)

/-- The frame a cycle adds to the log (R199). -/
def takenFrame (s : State) : Option TxFrame :=
  if s.pins.rst = false ∧ s.regs.seq = seqSend ∧ s.pins.txReady = true then
    frameAt s.params s.regs.bcmdSpeed s.regs.bcmdAngle s.regs.burstIdx
  else none

/-- The operation of the scheduler in a cycle, if any. -/
def schedulerOps (s : State) : List Instr :=
  if s.pins.rst then [.reset]
  else if s.regs.seq = seqWait then
    if s.pins.cmdValid then [selectCommand s.pins.cmd]
    else if tickWord s = 3#2 then [.tick]
    else []
  else if s.regs.seq = seqSend then [.burstSend]
  else [.burstGap]

theorem phase_cases (s : State) (h : startStateFault s = none) (hr : s.pins.rst = false) :
    s.regs.seq = seqWait ∨ s.regs.seq = seqSend ∨ s.regs.seq = seqGap := by
  simp only [startStateFault, hr, Bool.false_eq_true, if_false] at h
  have hq : ∀ q : BitVec 2, phaseOk q = true → q = seqWait ∨ q = seqSend ∨ q = seqGap := by decide
  apply hq
  by_contra hn
  simp [Bool.not_eq_true _ ▸ hn] at h

theorem index_ok (s : State) (h : startStateFault s = none) (hr : s.pins.rst = false) (hb : s.regs.seq ≠ seqWait) :
    frameIndexOk s.regs.burstIdx = true := by
  by_contra hi
  simp only [startStateFault, hr, Bool.false_eq_true, if_false, Bool.not_eq_true] at h hi
  split at h
  · simp at h
  · simp [hi, hb] at h

theorem decodeAll_fetchScheduler (s : State) (h : startStateFault s = none) :
    decodeAll (fetchScheduler s) = .ok (schedulerOps s) := by
  cases hr : s.pins.rst with
  | true => simp [fetchScheduler, schedulerOps, hr, decodeAll, decode]
  | false =>
    rcases phase_cases s h hr with e | e | e
    · cases hc : s.pins.cmdValid with
      | true => simp [fetchScheduler, schedulerOps, hr, e, hc, decodeAll, decode]
      | false =>
        by_cases ht : tickWord s = 3#2 <;> simp [fetchScheduler, schedulerOps, hr, e, hc, ht, decodeAll, decode]
    · simp [fetchScheduler, schedulerOps, hr, e, decodeAll, decode]
    · simp [fetchScheduler, schedulerOps, hr, e, decodeAll, decode]

theorem fetchScheduler_isEmpty (s : State) (h : startStateFault s = none) :
    (fetchScheduler s).isEmpty = (schedulerOps s).isEmpty := by
  cases hr : s.pins.rst with
  | true => simp [fetchScheduler, schedulerOps, hr]
  | false =>
    rcases phase_cases s h hr with e | e | e
    · cases hc : s.pins.cmdValid with
      | true => simp [fetchScheduler, schedulerOps, hr, e, hc]
      | false => by_cases ht : tickWord s = 3#2 <;> simp [fetchScheduler, schedulerOps, hr, e, hc, ht]
    · simp [fetchScheduler, schedulerOps, hr, e]
    · simp [fetchScheduler, schedulerOps, hr, e]

/-- What the scheduler's operation, or a quiet cycle, leaves. -/
theorem run_schedulerOps (s t : State) (h : startStateFault s = none) (hr : t.regs = s.regs)
    (hp : t.params = s.params) (hi : t.pins = s.pins) :
    ∃ u, runAll (schedulerOps s) t = .next u ∧
      (if (schedulerOps s).isEmpty then quietCycle u else u) =
        { t with regs := nextRegs s, log := t.log ++ (takenFrame s).toList } := by
  obtain ⟨params, regs, pins, env, cycle, dec, enc, tx, log⟩ := t
  simp only at hr hp hi
  subst hr hp hi
  cases hrst : s.pins.rst with
  | true =>
    refine ⟨_, by simp [schedulerOps, hrst, runAll, exec, execReset]; rfl, ?_⟩
    simp [schedulerOps, nextRegs, takenFrame, hrst, resetEdge, State.withRegs]
  | false =>
    rcases phase_cases s h hrst with e | e | e
    · cases hc : s.pins.cmdValid with
      | true =>
        have hx : ∀ t : State, t.regs = s.regs → t.params = s.params →
            exec (selectCommand s.pins.cmd) t = .next (t.withRegs (commandRegs s.params s.pins.cmd s.regs)) := by
          intro t ht hp
          simp only [selectCommand, commandRegs]
          repeat' split
          all_goals simp [exec, execStart, execUpdate, execStop, execRsvd, commandOp, cmdReady, ht, hp, e]
        refine ⟨_, by rw [schedulerOps]; simp [hrst, e, hc, runAll_one, hx]; rfl, ?_⟩
        simp [schedulerOps, nextRegs, takenFrame, hrst, e, hc, State.withRegs]
      | false =>
        by_cases ht : tickWord s = 3#2
        · have hw : ∀ t : State, t.regs = s.regs → t.pins = s.pins → tickWord t = tickWord s := by
            intro t h1 h2
            simp [tickWord, tickDue, h1, h2]
          have hx : ∀ t : State, t.regs = s.regs → t.pins = s.pins → t.params = s.params →
              exec .tick t = .next (t.withRegs (serviceTick s.params s.regs)) := by
            intro t h1 h2 h3
            simp only [exec, execTick, hw t h1 h2, ht, if_true, h1, h3]
          refine ⟨_, by
            simp only [schedulerOps, hrst, e, hc, ht, runAll_one, Bool.false_eq_true, if_false, if_true]
            exact hx _ rfl rfl rfl, ?_⟩
          simp [schedulerOps, nextRegs, takenFrame, hrst, e, hc, ht, State.withRegs]
        · refine ⟨_, by simp [schedulerOps, hrst, e, hc, ht, runAll]; rfl, ?_⟩
          simp [schedulerOps, nextRegs, takenFrame, hrst, e, hc, ht, quietCycle, State.withRegs]
    · have hk := index_ok s h hrst (by simp [e])
      obtain ⟨f, hf⟩ := frameAt_some s.params s.regs.bcmdSpeed s.regs.bcmdAngle _ hk
      refine ⟨_, by simp [schedulerOps, hrst, e, runAll_one, exec, execBurstSend, hf]; rfl, ?_⟩
      cases hy : s.pins.txReady <;>
        simp [schedulerOps, nextRegs, takenFrame, hrst, e, hy, hf, State.withRegs, State.logged]
    · have hk := index_ok s h hrst (by simp [e])
      refine ⟨_, by simp [schedulerOps, hrst, e, runAll_one, exec, execBurstGap, hk]; rfl, ?_⟩
      simp [schedulerOps, nextRegs, takenFrame, hrst, e, State.withRegs]

/-! ## The step -/

/-- The state after a cycle, before the next cycle's inputs arrive. -/
def afterCycle (s : State) : State :=
  { s with regs := nextRegs s, dec := decOut s.pins, enc := encOut s, tx := txOut s,
           log := s.log ++ (takenFrame s).toList }

/-- What one step does from every state the spec accepts as a start state. -/
theorem step_eq (s : State) (h : startStateFault s = none) : step s = .next (endCycle (afterCycle s)) := by
  have hd : ∃ ds, decodeAll (fetchDecoder s.pins) = .ok ds ∧
      runAll ds (beginCycle s) = .next ((beginCycle s).withDec (decOut s.pins)) := by
    cases hv : s.pins.rxValid with
    | true => exact ⟨_, decodeAll_fetchDecoder _ hv, by simpa [decOut, hv] using runAll_selectRx _ _ _ rfl⟩
    | false => exact ⟨[], by simp [fetchDecoder, hv, decodeAll], by simp [decOut, hv, runAll]; rfl⟩
  obtain ⟨ds, hd1, hd2⟩ := hd
  have hall : decodeAll (fetch s) = .ok (ds ++ encoderOps s ++ schedulerOps s) :=
    decodeAll_append _ _ _ _ (decodeAll_append _ _ _ _ hd1 (decodeAll_fetchEncoder s h))
      (decodeAll_fetchScheduler s h)
  have hrun : runAll (ds ++ encoderOps s) (beginCycle s) =
      .next ((((beginCycle s).withDec (decOut s.pins)).withEnc (encOut s)).withTx (txOut s)) := by
    rw [runAll_append _ _ _ _ hd2]
    exact runAll_encoderOps s _ (by simp) (by simp) (by simp) (by simp)
  obtain ⟨u, hu1, hu2⟩ := run_schedulerOps s
    ((((beginCycle s).withDec (decOut s.pins)).withEnc (encOut s)).withTx (txOut s)) h (by simp) (by simp) (by simp)
  simp only [step, clockCycle, h, hall, runCycle, runAll_append _ _ _ _ hrun, hu1, fetchScheduler_isEmpty s h, hu2]
  rfl

/-- A step that answers started from such a state, and answers what `step_eq` says. -/
theorem step_next (s t : State) (h : step s = .next t) :
    startStateFault s = none ∧ t = endCycle (afterCycle s) := by
  cases hf : startStateFault s with
  | some f => simp [step, clockCycle, hf] at h
  | none =>
    rw [step_eq s hf] at h
    exact ⟨rfl, (Host.Outcome.next.inj h).symm⟩

end Sys2Proof.Machine
end

