-- ==== Sys2Proof/Laws/PerInstr.lean ====
section
/-! SUPPORT. The family `SelectorMatches`: the select word `encode` writes for an operation meets the match and mask the
opcode table gives the operation's row (R99). -/

namespace Sys2Proof.Laws.SelectorMatches

/-- The selector of a row of the opcode table: the word it is over, and the value it must have there. -/
inductive Selector where
  /-- `rx_id`, all 29 bits. -/
  | rxId (id : CanId)
  /-- `rx_id` is none of the table's identifiers: the default row. -/
  | otherId
  /-- `BURST_IDX`, all 3 bits. -/
  | burstIdx (k : BitVec 3)
  /-- No selector. -/
  | always
  /-- `cmd_op`, the upper 2 bits of the command word. -/
  | cmdOp (op : BitVec 2)
  /-- The condition word of TICK. -/
  | condition (w : BitVec 2)
  /-- `SEQ`, both bits. -/
  | seq (w : BitVec 2)
  /-- `rst`. -/
  | rst (w : BitVec 1)
  deriving DecidableEq, Repr

/-- A select word meets a selector. -/
def Holds : Selector → OpWord → Prop
  | .rxId id, .rxf _ w => rxfId w = id
  | .otherId, .rxf _ w => knownIds.contains (rxfId w) = false
  | .burstIdx k, .txf idx => idx = k
  | .always, .fn _ => True
  | .cmdOp op, .cw w => cwOp w = op
  | .condition c, .tick w => w = c
  | .seq c, .seq w => w = c
  | .rst c, .rst w => w = c
  | _, _ => False

/-- The rows' selectors, from the table's `match`, `mask` and `over`. -/
def rowSelector : Instr → Selector
  | .decVehicleGear _ => .rxId 0x303
  | .decDriveStateMode _ => .rxId 0x303
  | .decSpeedRequestKmh _ => .rxId 0x303
  | .decDirectionAngle _ => .rxId 0x314
  | .decEpsControl _ => .rxId 0x314
  | .decVehicleSpeed _ => .rxId 0x304
  | .decWheelAngle _ => .rxId 0x304
  | .decBrakePressure _ => .rxId 0x304
  | .decBrakeLight _ => .rxId 0x301
  | .decHeadLight _ => .rxId 0x301
  | .decEmergencyButton _ => .rxId 0x301
  | .decTouchSwitches _ => .rxId 0x301
  | .decEpsCurrentAngle _ => .rxId 0x18F
  | .decEpsTemperature _ => .rxId 0x18F
  | .decBusVoltage _ => .rxId 0x060
  | .decBusCurrent _ => .rxId 0x060
  | .decDriveMode _ => .rxId 0x160
  | .decBrakeRequest _ => .rxId 0x160
  | .decSpeedRequestRpm _ => .rxId 0x160
  | .decTorqueRequest _ => .rxId 0x160
  | .decBatterySoh _ => .rxId 0x0A0
  | .decBatterySoc _ => .rxId 0x0A0
  | .decBatteryVoltage _ => .rxId 0x0A0
  | .decUnknown _ _ => .otherId
  | .encF501 => .burstIdx 0
  | .encF502 => .burstIdx 1
  | .encF503 => .burstIdx 2
  | .encF504 => .burstIdx 3
  | .encF506 => .burstIdx 4
  | .encGear => .always
  | .encInd => .always
  | .encSpdf => .always
  | .encStrf => .always
  | .start _ _ => .cmdOp 0
  | .update _ _ => .cmdOp 1
  | .stop _ _ => .cmdOp 2
  | .rsvd _ _ => .cmdOp 3
  | .tick => .condition 3
  | .burstSend => .seq 1
  | .burstGap => .seq 2
  | .reset => .rst 1

/-- The family's statement about one operation. -/
def Statement (i : Instr) : Prop := i.wf = true → Holds (rowSelector i) (encode i)

theorem cwOp_packCw (op : BitVec 2) (speed angle : Centi) : cwOp (packCw op speed angle) = op := by
  apply BitVec.eq_of_getLsbD_eq
  intro i hi
  simp only [cwOp, packCw, BitVec.getLsbD_extractLsb', BitVec.getLsbD_append, hi, decide_true, Bool.true_and]
  rw [if_neg (by omega), if_neg (by omega)]
  congr 1
  omega

theorem decVehicleGear (f : RxPayload) : Statement (.decVehicleGear f) := fun _ => Machine.rxfId_packRxf _ f
theorem decDriveStateMode (f : RxPayload) : Statement (.decDriveStateMode f) := fun _ => Machine.rxfId_packRxf _ f
theorem decSpeedRequestKmh (f : RxPayload) : Statement (.decSpeedRequestKmh f) := fun _ => Machine.rxfId_packRxf _ f
theorem decDirectionAngle (f : RxPayload) : Statement (.decDirectionAngle f) := fun _ => Machine.rxfId_packRxf _ f
theorem decEpsControl (f : RxPayload) : Statement (.decEpsControl f) := fun _ => Machine.rxfId_packRxf _ f
theorem decVehicleSpeed (f : RxPayload) : Statement (.decVehicleSpeed f) := fun _ => Machine.rxfId_packRxf _ f
theorem decWheelAngle (f : RxPayload) : Statement (.decWheelAngle f) := fun _ => Machine.rxfId_packRxf _ f
theorem decBrakePressure (f : RxPayload) : Statement (.decBrakePressure f) := fun _ => Machine.rxfId_packRxf _ f
theorem decBrakeLight (f : RxPayload) : Statement (.decBrakeLight f) := fun _ => Machine.rxfId_packRxf _ f
theorem decHeadLight (f : RxPayload) : Statement (.decHeadLight f) := fun _ => Machine.rxfId_packRxf _ f
theorem decEmergencyButton (f : RxPayload) : Statement (.decEmergencyButton f) := fun _ => Machine.rxfId_packRxf _ f
theorem decTouchSwitches (f : RxPayload) : Statement (.decTouchSwitches f) := fun _ => Machine.rxfId_packRxf _ f
theorem decEpsCurrentAngle (f : RxPayload) : Statement (.decEpsCurrentAngle f) := fun _ => Machine.rxfId_packRxf _ f
theorem decEpsTemperature (f : RxPayload) : Statement (.decEpsTemperature f) := fun _ => Machine.rxfId_packRxf _ f
theorem decBusVoltage (f : RxPayload) : Statement (.decBusVoltage f) := fun _ => Machine.rxfId_packRxf _ f
theorem decBusCurrent (f : RxPayload) : Statement (.decBusCurrent f) := fun _ => Machine.rxfId_packRxf _ f
theorem decDriveMode (f : RxPayload) : Statement (.decDriveMode f) := fun _ => Machine.rxfId_packRxf _ f
theorem decBrakeRequest (f : RxPayload) : Statement (.decBrakeRequest f) := fun _ => Machine.rxfId_packRxf _ f
theorem decSpeedRequestRpm (f : RxPayload) : Statement (.decSpeedRequestRpm f) := fun _ => Machine.rxfId_packRxf _ f
theorem decTorqueRequest (f : RxPayload) : Statement (.decTorqueRequest f) := fun _ => Machine.rxfId_packRxf _ f
theorem decBatterySoh (f : RxPayload) : Statement (.decBatterySoh f) := fun _ => Machine.rxfId_packRxf _ f
theorem decBatterySoc (f : RxPayload) : Statement (.decBatterySoc f) := fun _ => Machine.rxfId_packRxf _ f
theorem decBatteryVoltage (f : RxPayload) : Statement (.decBatteryVoltage f) := fun _ => Machine.rxfId_packRxf _ f
theorem decUnknown (id : CanId) (f : RxPayload) : Statement (.decUnknown id f) := by
  intro h
  simpa [rowSelector, encode, Holds, Machine.rxfId_packRxf, Instr.wf] using h
theorem encF501 : Statement .encF501 := fun _ => rfl
theorem encF502 : Statement .encF502 := fun _ => rfl
theorem encF503 : Statement .encF503 := fun _ => rfl
theorem encF504 : Statement .encF504 := fun _ => rfl
theorem encF506 : Statement .encF506 := fun _ => rfl
theorem encGear : Statement .encGear := fun _ => trivial
theorem encInd : Statement .encInd := fun _ => trivial
theorem encSpdf : Statement .encSpdf := fun _ => trivial
theorem encStrf : Statement .encStrf := fun _ => trivial
theorem start (speed angle : Centi) : Statement (.start speed angle) := fun _ => cwOp_packCw _ speed angle
theorem update (speed angle : Centi) : Statement (.update speed angle) := fun _ => cwOp_packCw _ speed angle
theorem stop (speed angle : Centi) : Statement (.stop speed angle) := fun _ => cwOp_packCw _ speed angle
theorem rsvd (speed angle : Centi) : Statement (.rsvd speed angle) := fun _ => cwOp_packCw _ speed angle
theorem tick : Statement .tick := fun _ => rfl
theorem burstSend : Statement .burstSend := fun _ => rfl
theorem burstGap : Statement .burstGap := fun _ => rfl
theorem reset : Statement .reset := fun _ => rfl

end Sys2Proof.Laws.SelectorMatches
end

