-- ==== Sys2Proof/Laws/Scheduler.lean ====
section
/-! SUPPORT. The register transfers in the terms of `Safety.lean`, what a cycle can be (`nextRegs_cases`), and runs. -/

namespace Sys2Proof.Machine

/-! The terms of the statements. -/

theorem countsDown_decrement (w n : Nat) : CountsDown w n (decrement w n) := decrement_of_pos w n

theorem timerCounts_of (p : Params) (r r' : Regs) (h : r'.timer = timerNext p r) : TimerCounts p r r' := by
  refine ⟨fun e => ?_, fun e e1 => ?_, fun e e1 => ?_⟩ <;> rw [h] <;> simp only [timerNext, e]
  · rw [if_pos e1]
  · rw [if_neg e1]
    exact countsDown_decrement _ _

theorem pendOf_iff (r : Regs) : pendOf r = true ↔ Pending r := by
  simp [pendOf, tickNow, Pending]

theorem fieldOverflows_iff (x : Int) : fieldOverflows x = true ↔ x < 0 ∨ 65535 < x := by
  simp only [fieldOverflows, Bool.or_eq_true, decide_eq_true_eq]

theorem spdf_nonneg (tie : RoundTie) (speed : Centi) : 0 ≤ spdf tie speed := by
  simp only [spdf, rdiv10]
  split_ifs <;> omega

theorem burstFlags_overflowFlags (tie : RoundTie) (speed angle : Centi) (f : BitVec 5) :
    BurstFlags tie speed angle f (overflowFlags tie speed angle f) := by
  intro b
  have hn := spdf_nonneg tie speed
  rw [flagSet_overflowFlags]
  simp only [Bool.or_eq_true, Bool.and_eq_true, fieldOverflows_iff, beq_iff_eq]
  constructor
  · rintro ((h | ⟨h, rfl⟩) | ⟨h, rfl⟩)
    · exact .inl h
    · exact .inr (.inl ⟨rfl, by omega⟩)
    · exact .inr (.inr ⟨rfl, h⟩)
  · rintro (h | ⟨rfl, h⟩ | ⟨rfl, h⟩)
    · exact .inl (.inl h)
    · exact .inl (.inr ⟨.inr h, rfl⟩)
    · exact .inr ⟨h, rfl⟩

theorem raises_raiseFlag (b : FlagBit) (f : BitVec 5) : Raises b f (raiseFlag b f) := by
  intro c
  rw [flagSet_raiseFlag, Bool.or_eq_true, beq_iff_eq]
  exact or_congr_right ⟨Eq.symm, Eq.symm⟩

/-- The zero command overflows nothing (R206). -/
theorem overflowFlags_zero (tie : RoundTie) (f : BitVec 5) : overflowFlags tie 0 0 f = f := by
  have h1 : fieldOverflows (spdf tie 0) = false := by cases tie <;> decide
  have h2 : fieldOverflows (strf tie 0) = false := by cases tie <;> decide
  simp only [overflowFlags, raiseFlagIf, h1, h2, Bool.false_eq_true, if_false]

/-- TICK's condition word is {ACTIVE, due} exactly in a WAIT cycle of ACTIVE with a pending tick and no command. -/
theorem tickWord_iff (s : State) :
    tickWord s = 3#2 ↔ s.regs.st = .active ∧ s.regs.seq = seqWait ∧ s.pins.cmdValid = false ∧ Pending s.regs := by
  simp only [tickWord, tickDue, ← pendOf_iff]
  cases hs : s.regs.st <;> cases hp : pendOf s.regs <;> cases hc : s.pins.cmdValid <;> cases hr : cmdReady s.regs <;>
    simp [stCode, cmdReady] at hr ⊢ <;> simp [hr]

/-! What the burst micro-steps leave alone. -/

theorem nextFrame_frame (r : Regs) :
    (nextFrame r).st = r.st ∧ (nextFrame r).cmdSpeed = r.cmdSpeed ∧ (nextFrame r).cmdAngle = r.cmdAngle ∧
    (nextFrame r).timer = r.timer ∧ (nextFrame r).tickPend = r.tickPend ∧ (nextFrame r).bcmdSpeed = r.bcmdSpeed ∧
    (nextFrame r).bcmdAngle = r.bcmdAngle ∧ (nextFrame r).flags = r.flags ∧ (nextFrame r).gapCnt = r.gapCnt := by
  unfold nextFrame
  split <;> simp

theorem frameTaken_frame (p : Params) (err : Bool) (r : Regs) :
    (frameTaken p err r).st = r.st ∧ (frameTaken p err r).cmdSpeed = r.cmdSpeed ∧
    (frameTaken p err r).cmdAngle = r.cmdAngle ∧ (frameTaken p err r).timer = r.timer ∧
    (frameTaken p err r).tickPend = r.tickPend ∧ (frameTaken p err r).bcmdSpeed = r.bcmdSpeed ∧
    (frameTaken p err r).bcmdAngle = r.bcmdAngle ∧ (frameTaken p err r).flags = raiseFlagIf err .txErr r.flags := by
  rcases frameTaken_cases p err r with ⟨_, h⟩ | ⟨_, h⟩ <;> rw [h]
  · simp
  · obtain ⟨a1, a2, a3, a4, a5, a6, a7, a8, _⟩ := nextFrame_frame { r with flags := raiseFlagIf err .txErr r.flags }
    exact ⟨a1, a2, a3, a4, a5, a6, a7, a8⟩

theorem gapStep_frame (p : Params) (r : Regs) :
    (gapStep p r).st = r.st ∧ (gapStep p r).cmdSpeed = r.cmdSpeed ∧ (gapStep p r).cmdAngle = r.cmdAngle ∧
    (gapStep p r).timer = r.timer ∧ (gapStep p r).tickPend = r.tickPend ∧ (gapStep p r).bcmdSpeed = r.bcmdSpeed ∧
    (gapStep p r).bcmdAngle = r.bcmdAngle ∧ (gapStep p r).flags = r.flags := by
  rcases gapStep_cases p r with ⟨_, h⟩ | ⟨_, h⟩ <;> rw [h]
  · obtain ⟨a1, a2, a3, a4, a5, a6, a7, a8, _⟩ := nextFrame_frame r
    exact ⟨a1, a2, a3, a4, a5, a6, a7, a8⟩
  · simp

/-- Everything a cycle without reset can do to the registers: a command accepted, a tick serviced, a quiet WAIT cycle, a
frame taken, a wait for the transport, a gap cycle. -/
theorem nextRegs_cases (s : State) (hr : s.pins.rst = false) :
    (Accepts s 0#2 ∧ nextRegs s = acceptStart s.params (cwSpeed s.pins.cmd) (cwAngle s.pins.cmd) s.regs) ∨
    (Accepts s 1#2 ∧ nextRegs s = acceptUpdate s.params (cwSpeed s.pins.cmd) (cwAngle s.pins.cmd) s.regs) ∨
    (Accepts s 2#2 ∧ nextRegs s = acceptStop s.params s.regs) ∨
    (Accepts s 3#2 ∧ nextRegs s = acceptRsvd s.params s.regs) ∨
    (ServicesTick s ∧ s.regs.st = .active ∧ nextRegs s = serviceTick s.params s.regs) ∨
    (s.regs.seq = seqWait ∧ s.pins.cmdValid = false ∧ ¬(s.regs.st = .active ∧ Pending s.regs) ∧
      nextRegs s = countCycle s.params s.regs) ∨
    (s.regs.seq = seqSend ∧ s.pins.txReady = true ∧
      nextRegs s = frameTaken s.params s.pins.txErr (countCycle s.params s.regs)) ∨
    (s.regs.seq = seqSend ∧ s.pins.txReady = false ∧ nextRegs s = countCycle s.params s.regs) ∨
    (s.regs.seq ≠ seqWait ∧ s.regs.seq ≠ seqSend ∧ nextRegs s = gapStep s.params (countCycle s.params s.regs)) := by
  simp only [nextRegs, hr, Bool.false_eq_true, if_false]
  by_cases hw : s.regs.seq = seqWait
  · cases hc : s.pins.cmdValid with
    | true =>
      have hq : ∀ q : BitVec 2, q = 0#2 ∨ q = 1#2 ∨ q = 2#2 ∨ q = 3#2 := by decide
      simp only [hw, if_true, commandRegs]
      rcases hq (cwOp s.pins.cmd) with e | e | e | e
      · exact .inl ⟨⟨hr, hw, hc, e⟩, by simp [e]⟩
      · exact .inr (.inl ⟨⟨hr, hw, hc, e⟩, by simp [e]⟩)
      · exact .inr (.inr (.inl ⟨⟨hr, hw, hc, e⟩, by simp [e]⟩))
      · exact .inr (.inr (.inr (.inl ⟨⟨hr, hw, hc, e⟩, by simp [e]⟩)))
    | false =>
      by_cases ht : tickWord s = 3#2
      · obtain ⟨a, _, _, d⟩ := (tickWord_iff s).mp ht
        exact .inr (.inr (.inr (.inr (.inl ⟨⟨hr, hw, hc, d⟩, a, by simp [hw, ht]⟩))))
      · refine .inr (.inr (.inr (.inr (.inr (.inl ⟨hw, rfl, ?_, by simp [hw, ht]⟩)))))
        rintro ⟨a, b⟩
        exact ht ((tickWord_iff s).mpr ⟨a, hw, hc, b⟩)
  · by_cases hs : s.regs.seq = seqSend
    · cases hy : s.pins.txReady with
      | true => exact .inr (.inr (.inr (.inr (.inr (.inr (.inl ⟨hs, rfl, by simp [hs]⟩))))))
      | false => exact .inr (.inr (.inr (.inr (.inr (.inr (.inr (.inl ⟨hs, rfl, by simp [hs]⟩)))))))
    · exact .inr (.inr (.inr (.inr (.inr (.inr (.inr (.inr ⟨hw, hs, by simp [hw, hs]⟩)))))))

/-- The parts of the state after a step. -/
theorem step_parts (s t : State) (h : step s = .next t) :
    t.params = s.params ∧ t.regs = nextRegs s ∧ t.pins = nextPins s ∧ t.env = s.env.tail ∧ t.cycle = s.cycle + 1 ∧
    t.dec = decOut s.pins ∧ t.enc = encOut s ∧ t.tx = txOut s ∧ t.log = s.log ++ (takenFrame s).toList := by
  obtain ⟨_, rfl⟩ := step_next s t h
  exact ⟨rfl, rfl, rfl, rfl, rfl, rfl, rfl, rfl, rfl⟩

/-! Runs. -/

theorem run_zero (s : State) : run 0 s = .next s := rfl

theorem run_succ (n : Nat) (s : State) :
    run (n + 1) s =
      match step s with
      | .next t => run n t
      | .fault r => .fault r
      | .refused r => .refused r := by
  simp only [run, Host.Core.run]
  have h : Sys2Proof.core.step s = step s := rfl
  rw [h]
  cases step s <;> rfl

/-- After a step, the inputs to come are one cycle nearer. -/
theorem inputIn_step (s t : State) (h : step s = .next t) (k : Nat) : inputIn t k = inputIn s (k + 1) := by
  obtain ⟨_, _, h1, h2, h3, _⟩ := step_parts s t h
  cases k with
  | zero =>
    simp only [inputIn, h1, nextPins]
    cases he : s.env <;> simp
  | succ k =>
    simp only [inputIn, h2, h3]
    cases he : s.env <;> simp [Nat.add_assoc, Nat.add_comm 1]

end Sys2Proof.Machine
end

