-- ==== Sys2Proof/Tests/Slice0.lean ====
section
/-! SUPPORT. Tests: every check refuses an ill-formed term; the words written out from the spec's encodings decode to
their operations; worked examples of `95_test_vectors.md` and `96_test_timelines.md`, one step each; and, for every
obligation with hypotheses, a state and operands that meet them (`test_witness_…`). Expected values are the spec's. -/

namespace Sys2Proof.Tests

open Sys2Proof Sys2Proof.Machine

/-! ## Ill-formed terms are refused -/

theorem test_wf_unknown_of_known_id : (Instr.decUnknown 0x303 default).wf = false := by decide
theorem test_wf_signal_table : tableWf signalTable = true := by decide
theorem test_wf_row_beyond_payload : (SRow.wf { rowBatterySoh with hi := 8 }) = false := by decide
theorem test_wf_row_reversed : (SRow.wf { rowBatterySoh with lo := 7, hi := 6 }) = false := by decide
theorem test_wf_row_four_bytes : (SRow.wf { rowBusVoltage with hi := 3 }) = false := by decide
theorem test_wf_row_no_width : (SRow.wf { rowBrakeLight with width := 0 }) = false := by decide
theorem test_wf_row_too_wide : (SRow.wf { rowHeadLight with width := 2 }) = false := by decide
theorem test_wf_row_signed_part : (SRow.wf { rowEpsTemperature with width := 7 }) = false := by decide
theorem test_wf_row_signed_flag : (SRow.wf { rowBrakeLight with signed := true }) = false := by decide
theorem test_wf_row_one_place : (SRow.wf { rowBusVoltage with dec := 1 }) = false := by decide
theorem test_wf_rows_same_number : rowBusVoltage.compatible { rowBusCurrent with sigId := 14 } = false := by decide
theorem test_wf_rows_same_name :
    rowBusVoltage.compatible { rowBusCurrent with name := "Bus Voltage", unit := "V" } = false := by decide
theorem test_wf_rows_overlap : rowTouchSwitches.compatible { rowHeadLight with bitLo := 5 } = false := by decide
theorem test_wf_rows_not_ascending : ascending [rowBusCurrent, rowBusVoltage] = false := by decide
theorem test_wf_pairs : pairwiseCompatible [rowBusVoltage, { rowBusCurrent with lo := 1 }] = false := by decide
theorem test_wf_five_rows :
    tableWf ([rowBrakeLight, rowHeadLight, rowEmergencyButton, rowTouchSwitches] ++
      [flagRow 22 0x301 "a fifth row" 7 0 1]) = false := by decide

/-- REFSET (`95_test_vectors.md` section 0). -/
def refset : WireConstants :=
  { tpl501 := 0x51, tpl502 := 0x52, tpl503 := 0x53, tpl504 := 0x5A0054, tpl506 := 0,
    gearPark := 0, gearDrive := 1, gearNeutral := 2, gearReverse := 3, indLeft := 1, indRight := 2 }

theorem test_wf_refset : refset.toWireFields.wf = true := by decide
theorem test_wf_equal_indicators : ({ refset.toWireFields with indRight := 1 } : WireFields).wf = false := by decide
theorem test_wf_left_is_none : ({ refset.toWireFields with indLeft := 0 } : WireFields).wf = false := by decide
theorem test_wf_right_is_none : ({ refset.toWireFields with indRight := 0 } : WireFields).wf = false := by decide
theorem test_wf_502_short : ({ refset.toWireFields with txLen1 := 5 } : WireFields).wf = false := by decide
theorem test_wf_504_short : ({ refset.toWireFields with txLen3 := 7 } : WireFields).wf = false := by decide
theorem test_wf_506_short : ({ refset.toWireFields with txLen4 := 0 } : WireFields).wf = false := by decide
/-- Elaboration refuses by name (R9, R10, R166, U4, U5), and takes REFSET with a period of 20. -/
theorem test_elaborate_refuses :
    Params.elaborate 0 2 .halfEven refset.toWireFields {} = .error .periodIsZero ∧
    Params.elaborate 20 2 .halfEven { refset.toWireFields with indLeft := 0 } {} = .error .indicatorIsNone ∧
    Params.elaborate 20 2 .halfEven { refset.toWireFields with indRight := 1 } {} = .error .indicatorsEqual ∧
    Params.elaborate 20 2 .halfEven { refset.toWireFields with txLen3 := 7 } {} = .error .frameTooShort :=
  ⟨rfl, rfl, rfl, rfl⟩
theorem test_elaborate_accepts :
    Params.elaborate 20 2 .halfEven refset.toWireFields {} =
      .ok { periodLessOne := 19, gapCycles := 2, roundTie := .halfEven, wc := refset, labels := {} } := rfl
theorem test_wf_sequencer_code : seqLegal 3 = false ∧ seqLegal 2 = true := by decide
theorem test_wf_burst_index : burstIdxLegal 5 = false ∧ burstIdxLegal 4 = true := by decide

/-! ## The states the tests use -/

/-- Parameters of timelines T1 to T3: PERIOD_CYCLES = 20, GAP_CYCLES = 2, half_even. -/
def par : Params := { periodLessOne := 19, gapCycles := 2, roundTie := .halfEven, wc := refset, labels := {} }
/-- No gap. -/
def par0 : Params := { par with gapCycles := 0 }

/-- `TIMER_W` and `GAP_W` of R20: ceil(log2 21) = 5, ceil(log2 3) = 2, and max(1, ceil(log2 1)) = 1. -/
theorem test_counter_widths : par.timerW = 5 ∧ par.gapW = 2 ∧ par0.gapW = 1 := by decide
/-- A counter within its width counts down; at 0 it goes to its greatest value. -/
theorem test_decrement : decrement 5 20 = 19 ∧ decrement 5 0 = 31 := by decide
theorem test_fits : Regs.reset.fits par = true ∧ ({ Regs.reset with timer := 32 } : Regs).fits par = false ∧
    ({ Regs.reset with gapCnt := 4 } : Regs).fits par = false := by decide

/-- A state with these parameters, registers and inputs. -/
def st (p : Params) (r : Regs) (i : Pins) : State :=
  { params := p, regs := r, pins := i, env := [], cycle := 0, dec := .none, enc := .none, tx := none, log := [] }

/-- Active in WAIT with this timer and the stored command (1000, 0). -/
def waiting (timer : Nat) : Regs := { Regs.reset with st := .active, timer := timer, cmdSpeed := 1000 }
/-- In SEND at this frame, in a burst of (1000, 0). -/
def sending (idx : BitVec 3) : Regs := { waiting 5 with seq := seqSend, burstIdx := idx, bcmdSpeed := 1000 }
/-- In GAP after this frame. -/
def inGap (idx : BitVec 3) (cnt : Nat) : Regs := { sending idx with seq := seqGap, gapCnt := cnt }
/-- All flags set. -/
def flagged (r : Regs) : Regs := { r with flags := 31 }
/-- A command at the port. -/
def command (op : BitVec 2) : Pins := { cmdValid := true, cmd := packCw op 300 (-400) }
/-- A state with a burst command. -/
def burstOf (speed angle : Centi) : State := st par { sending 0 with bcmdSpeed := speed, bcmdAngle := angle } {}

/-- An inbound payload of this length whose byte i is byte i of the number. -/
def pay (len : BitVec 4) (data : Bus) : RxPayload := ⟨false, len, data⟩
/-- Value and error of the record a row operation leaves in slot k. -/
def seen (k : Nat) (o : Result) : Option (BitVec 32 × DecodeError) :=
  match o with
  | .next t => some ((slotAt t.dec k).val, (slotAt t.dec k).err)
  | _ => none
/-- The registers after. -/
def regsOf (o : Result) : Option Regs :=
  match o with
  | .next t => some t.regs
  | _ => none
/-- The offered frame after. -/
def offered (o : Result) : Option TxFrame :=
  match o with
  | .next t => t.tx
  | _ => none

/-! ## Words written out from the spec's encodings -/

/-- An inbound word: data, length 8, ide 0, then the 29 bits of `rx_id`. -/
theorem test_decode_303 :
    let w : BitVec 98 := 0x0000000003840201#64 ++ 0b1000#4 ++ 0b0#1 ++ 0b00000000000000000001100000011#29
    decode (.rxf 0 w) = .ok (.decVehicleGear (pay 8 0x03840201)) ∧
    decode (.rxf 1 w) = .ok (.decDriveStateMode (pay 8 0x03840201)) ∧
    decode (.rxf 2 w) = .ok (.decSpeedRequestKmh (pay 8 0x03840201)) ∧
    decode (.rxf 3 w) = .error .noRecordInSlot := ⟨rfl, rfl, rfl, rfl⟩
theorem test_decode_314 :
    let w : BitVec 98 := 0x0000000000012C01#64 ++ 0b0011#4 ++ 0b1#1 ++ 0b00000000000000000001100010100#29
    decode (.rxf 0 w) = .ok (.decDirectionAngle ⟨true, 3, 0x012C01⟩) ∧
    decode (.rxf 1 w) = .ok (.decEpsControl ⟨true, 3, 0x012C01⟩) := ⟨rfl, rfl⟩
theorem test_decode_304 :
    let w : BitVec 98 := 0x0000015E00FA0320#64 ++ 0b1000#4 ++ 0b0#1 ++ 0b00000000000000000001100000100#29
    decode (.rxf 0 w) = .ok (.decVehicleSpeed (pay 8 0x15E00FA0320)) ∧
    decode (.rxf 1 w) = .ok (.decWheelAngle (pay 8 0x15E00FA0320)) ∧
    decode (.rxf 2 w) = .ok (.decBrakePressure (pay 8 0x15E00FA0320)) := ⟨rfl, rfl, rfl⟩
theorem test_decode_301 :
    let w : BitVec 98 := 0x0000010000009001#64 ++ 0b1000#4 ++ 0b0#1 ++ 0b00000000000000000001100000001#29
    decode (.rxf 0 w) = .ok (.decBrakeLight (pay 8 0x010000009001)) ∧
    decode (.rxf 1 w) = .ok (.decHeadLight (pay 8 0x010000009001)) ∧
    decode (.rxf 2 w) = .ok (.decEmergencyButton (pay 8 0x010000009001)) ∧
    decode (.rxf 3 w) = .ok (.decTouchSwitches (pay 8 0x010000009001)) := ⟨rfl, rfl, rfl, rfl⟩
theorem test_decode_18F :
    let w : BitVec 98 := 0x00F6000000FF9C00#64 ++ 0b1000#4 ++ 0b0#1 ++ 0b00000000000000000000110001111#29
    decode (.rxf 0 w) = .ok (.decEpsCurrentAngle (pay 8 0x00F6000000FF9C00)) ∧
    decode (.rxf 1 w) = .ok (.decEpsTemperature (pay 8 0x00F6000000FF9C00)) := ⟨rfl, rfl⟩
theorem test_decode_060 :
    let w : BitVec 98 := 0x0000000000000064#64 ++ 0b1000#4 ++ 0b0#1 ++ 0b00000000000000000000001100000#29
    decode (.rxf 0 w) = .ok (.decBusVoltage (pay 8 0x64)) ∧
    decode (.rxf 1 w) = .ok (.decBusCurrent (pay 8 0x64)) := ⟨rfl, rfl⟩
theorem test_decode_160 :
    let w : BitVec 98 := 0x0000123456123405#64 ++ 0b1000#4 ++ 0b0#1 ++ 0b00000000000000000000101100000#29
    decode (.rxf 0 w) = .ok (.decDriveMode (pay 8 0x123456123405)) ∧
    decode (.rxf 1 w) = .ok (.decBrakeRequest (pay 8 0x123456123405)) ∧
    decode (.rxf 2 w) = .ok (.decSpeedRequestRpm (pay 8 0x123456123405)) ∧
    decode (.rxf 3 w) = .ok (.decTorqueRequest (pay 8 0x123456123405)) := ⟨rfl, rfl, rfl, rfl⟩
theorem test_decode_0A0 :
    let w : BitVec 98 := 0xFF00003200000000#64 ++ 0b1000#4 ++ 0b0#1 ++ 0b00000000000000000000010100000#29
    decode (.rxf 0 w) = .ok (.decBatterySoh (pay 8 0xFF00003200000000)) ∧
    decode (.rxf 1 w) = .ok (.decBatterySoc (pay 8 0xFF00003200000000)) ∧
    decode (.rxf 2 w) = .ok (.decBatteryVoltage (pay 8 0xFF00003200000000)) := ⟨rfl, rfl, rfl⟩
/-- All 29 bits are compared: 0x1303 is not 0x303 (`95_test_vectors.md` 2.1). -/
theorem test_decode_unknown :
    decode (.rxf 0 (0#64 ++ 0b1000#4 ++ 0b1#1 ++ 0b00000000000000001001100000011#29)) =
      .ok (.decUnknown 0x1303 ⟨true, 8, 0⟩) := rfl
/-- `BURST_IDX` (R97). -/
theorem test_decode_frame_builders :
    decode (.txf 0b000) = .ok .encF501 ∧ decode (.txf 0b001) = .ok .encF502 ∧ decode (.txf 0b010) = .ok .encF503 ∧
    decode (.txf 0b011) = .ok .encF504 ∧ decode (.txf 0b100) = .ok .encF506 ∧
    decode (.txf 0b101) = .error .noFrameBuilder := ⟨rfl, rfl, rfl, rfl, rfl, rfl⟩
/-- The pure functions have no word; their numbers are the model's (log entry 14). -/
theorem test_decode_functions :
    decode (.fn 0) = .ok .encGear ∧ decode (.fn 1) = .ok .encInd ∧ decode (.fn 2) = .ok .encSpdf ∧
    decode (.fn 3) = .ok .encStrf := ⟨rfl, rfl, rfl, rfl⟩
/-- The command words of `96_test_timelines.md`: `cmd_op`, `cmd_speed`, `cmd_angle` (R83). -/
theorem test_decode_commands :
    decode (.cw (0b00#2 ++ 0xFFFFFE0C#32 ++ 0x00000000#32)) = .ok (.start (-500) 0) ∧
    decode (.cw (0b01#2 ++ 0x0000012C#32 ++ 0xFFFFFE70#32)) = .ok (.update 300 (-400)) ∧
    decode (.cw 0x20000000000000000) = .ok (.stop 0 0) ∧
    decode (.cw (0b11#2 ++ 0x00000001#32 ++ 0x00000002#32)) = .ok (.rsvd 1 2) := ⟨rfl, rfl, rfl, rfl⟩
/-- The condition words of the events (R99). -/
theorem test_decode_events :
    decode (.tick 0b11) = .ok .tick ∧ decode (.tick 0b01) = .error .tickNotDue ∧ decode (.seq 0b01) = .ok .burstSend ∧
    decode (.seq 0b10) = .ok .burstGap ∧ decode (.seq 0b11) = .error .noBurstStep ∧ decode (.rst 0b1) = .ok .reset ∧
    decode (.rst 0b0) = .error .notReset := ⟨rfl, rfl, rfl, rfl, rfl, rfl, rfl⟩

/-! ## Worked examples of the spec: one step each

Each row test has a vector at a full length and one a byte too short; they are also the witnesses of the two length
clauses of the row statements, at the length the row needs and one below. -/

theorem test_row_vehicle_gear (s : State) :
    seen 0 (exec (.decVehicleGear (pay 1 0xFF)) s) = some (3, .ok) ∧
    seen 0 (exec (.decVehicleGear (pay 0 0xFF)) s) = some (0, .short) := ⟨rfl, rfl⟩
theorem test_row_drive_state_mode (s : State) :
    seen 1 (exec (.decDriveStateMode (pay 2 0x0201)) s) = some (2, .ok) ∧
    seen 1 (exec (.decDriveStateMode (pay 1 0x0201)) s) = some (0, .short) := ⟨rfl, rfl⟩
theorem test_row_speed_request_kmh (s : State) :
    seen 2 (exec (.decSpeedRequestKmh (pay 4 0x03840201)) s) = some (1000, .ok) ∧
    seen 2 (exec (.decSpeedRequestKmh (pay 3 0x200103)) s) = some (0, .short) := ⟨rfl, rfl⟩
theorem test_row_direction_angle (s : State) :
    seen 0 (exec (.decDirectionAngle (pay 3 0x012C01)) s) = some (300, .ok) ∧
    seen 0 (exec (.decDirectionAngle (pay 2 0x012C01)) s) = some (0, .short) := ⟨rfl, rfl⟩
theorem test_row_eps_control (s : State) :
    seen 1 (exec (.decEpsControl (pay 1 0xFE)) s) = some (0, .ok) ∧
    seen 1 (exec (.decEpsControl (pay 0 0x01)) s) = some (0, .short) := ⟨rfl, rfl⟩
theorem test_row_vehicle_speed (s : State) :
    seen 0 (exec (.decVehicleSpeed (pay 2 0xFFFF)) s) = some (647350, .ok) ∧
    seen 0 (exec (.decVehicleSpeed (pay 1 0xFFFF)) s) = some (0, .short) := ⟨rfl, rfl⟩
theorem test_row_wheel_angle (s : State) :
    seen 1 (exec (.decWheelAngle (pay 6 0)) s) = some (-3500, .ok) ∧
    seen 1 (exec (.decWheelAngle (pay 5 0)) s) = some (0, .short) := ⟨rfl, rfl⟩
theorem test_row_brake_pressure (s : State) :
    seen 2 (exec (.decBrakePressure (pay 4 0x00FA0320)) s) = some (250, .ok) ∧
    seen 2 (exec (.decBrakePressure (pay 3 0xFA0320)) s) = some (0, .short) := ⟨rfl, rfl⟩
theorem test_row_brake_light (s : State) :
    seen 0 (exec (.decBrakeLight (pay 6 0xFE0000006FFE)) s) = some (0, .ok) ∧
    seen 0 (exec (.decBrakeLight (pay 5 0x8001)) s) = some (0, .short) := ⟨rfl, rfl⟩
theorem test_row_head_light (s : State) :
    seen 1 (exec (.decHeadLight (pay 2 0x9001)) s) = some (1, .ok) ∧
    seen 1 (exec (.decHeadLight (pay 1 0x9001)) s) = some (0, .short) := ⟨rfl, rfl⟩
theorem test_row_emergency_button (s : State) :
    seen 2 (exec (.decEmergencyButton (pay 1 0x01)) s) = some (1, .ok) ∧
    seen 2 (exec (.decEmergencyButton (pay 0 0x01)) s) = some (0, .short) := ⟨rfl, rfl⟩
theorem test_row_touch_switches (s : State) :
    seen 3 (exec (.decTouchSwitches (pay 2 0x6FFE)) s) = some (2, .ok) ∧
    seen 3 (exec (.decTouchSwitches (pay 1 0x3000)) s) = some (0, .short) := ⟨rfl, rfl⟩
theorem test_row_eps_current_angle (s : State) :
    seen 0 (exec (.decEpsCurrentAngle (pay 3 0xFF9C00)) s) = some (-100, .ok) ∧
    seen 0 (exec (.decEpsCurrentAngle (pay 2 0xFF9C00)) s) = some (0, .short) := ⟨rfl, rfl⟩
theorem test_row_eps_temperature (s : State) :
    seen 1 (exec (.decEpsTemperature (pay 7 0x80000000800000)) s) = some (-128, .ok) ∧
    seen 1 (exec (.decEpsTemperature (pay 6 0x19000000012C00)) s) = some (0, .short) := ⟨rfl, rfl⟩
theorem test_row_bus_voltage (s : State) :
    seen 0 (exec (.decBusVoltage (pay 2 0x64)) s) = some (1000, .ok) ∧
    seen 0 (exec (.decBusVoltage (pay 1 0x64)) s) = some (0, .short) := ⟨rfl, rfl⟩
theorem test_row_bus_current (s : State) :
    seen 1 (exec (.decBusCurrent (pay 4 0x27110000)) s) = some (10, .ok) ∧
    seen 1 (exec (.decBusCurrent (pay 3 0x27110000)) s) = some (0, .short) := ⟨rfl, rfl⟩
theorem test_row_drive_mode (s : State) :
    seen 0 (exec (.decDriveMode (pay 1 0x05)) s) = some (2, .ok) ∧
    seen 0 (exec (.decDriveMode (pay 0 0x05)) s) = some (0, .short) := ⟨rfl, rfl⟩
theorem test_row_brake_request (s : State) :
    seen 1 (exec (.decBrakeRequest (pay 1 0x0C)) s) = some (1, .ok) ∧
    seen 1 (exec (.decBrakeRequest (pay 0 0x0C)) s) = some (0, .short) := ⟨rfl, rfl⟩
theorem test_row_speed_request_rpm (s : State) :
    seen 2 (exec (.decSpeedRequestRpm (pay 6 0x123456123405)) s) = some (1186046, .ok) ∧
    seen 2 (exec (.decSpeedRequestRpm (pay 5 0x1F40271002)) s) = some (0, .short) := ⟨rfl, rfl⟩
theorem test_row_torque_request (s : State) :
    seen 3 (exec (.decTorqueRequest (pay 3 0x123405)) s) = some (-53400, .ok) ∧
    seen 3 (exec (.decTorqueRequest (pay 2 0x123405)) s) = some (0, .short) := ⟨rfl, rfl⟩
/-- Length 15 is read as 8 (R56). -/
theorem test_row_battery_soh (s : State) :
    seen 0 (exec (.decBatterySoh (pay 15 0x0700000000000000)) s) = some (7, .ok) ∧
    seen 0 (exec (.decBatterySoh (pay 7 0x6400780F0000)) s) = some (0, .short) := ⟨rfl, rfl⟩
theorem test_row_battery_soc (s : State) :
    seen 1 (exec (.decBatterySoc (pay 5 0x3200000000)) s) = some (2000, .ok) ∧
    seen 1 (exec (.decBatterySoc (pay 4 0x3200000000)) s) = some (0, .short) := ⟨rfl, rfl⟩
theorem test_row_battery_voltage (s : State) :
    seen 2 (exec (.decBatteryVoltage (pay 4 0x0F780000)) s) = some (39600, .ok) ∧
    seen 2 (exec (.decBatteryVoltage (pay 3 0x0F780000)) s) = some (0, .short) := ⟨rfl, rfl⟩
/-- A row whose enumeration is shorter than its mask fails alone (`95_test_vectors.md` 2.1 (d)). -/
theorem test_row_enum_out_of_bounds :
    (decodeRow { rowVehicleGear with enumLen := 3 } 8 0x03840203).err = .enumOob ∧
    (decodeRow { rowVehicleGear with enumLen := 3 } 8 0x03840202).err = .ok := by decide

/-- The strings of `95_test_vectors.md` 2.2. -/
theorem test_format :
    fmt {} (decodeRow rowSpeedRequestKmh 8 0x03200000) = some "0.00" ∧
    fmt {} (decodeRow rowSpeedRequestKmh 8 0x031F0000) = some "-0.10" ∧
    fmt {} (decodeRow rowVehicleGear 8 0x02) = some "Neutral" ∧ fmt {} (decodeRow rowEpsControl 8 0x01) = some "Works" ∧
    fmt {} (decodeRow rowTouchSwitches 8 0x3000) = some "3" ∧ fmt {} (decodeRow rowBusVoltage 1 0x64) = none := by decide

/-- Rows of `95_test_vectors.md` 2.3. -/
theorem test_encoder_fields :
    rdiv10 .halfEven 25 = 2 ∧ rdiv10 .halfAway 25 = 3 ∧ rdiv10 .halfEven (-25) = -2 ∧ strf .halfEven (-3005) = 0 ∧
    strf .halfAway (-3005) = -1 ∧ spdf .halfEven (-2147483648) = 214748365 ∧ trunc16 (-100) = 0xFF9C ∧
    trunc16 70000 = 0x1170 := by decide
theorem test_enc_gear :
    gearOf (-4) 0 = .reverse ∧ gearOf 0 0 = .neutral ∧ gearOf 0 (-1) = .drive ∧ gearOf 4 0 = .drive := by decide
theorem test_enc_ind : indicatorOf 1 = .left ∧ indicatorOf (-1) = .right ∧ indicatorOf 0 = .none := by decide

/-- V-ENC-1, V-ENC-7 and V-ENC-8 (`95_test_vectors.md` 2.4), frame by frame. -/
theorem test_enc_f501 : (offered (exec .encF501 (burstOf 1000 0))).map TxFrame.data = some 0x51 := rfl
theorem test_enc_f502 :
    (offered (exec .encF502 (burstOf 1000 0))).map TxFrame.data = some 0x00012C00000052 ∧
    (offered (exec .encF502 (burstOf 700000 (-4000)))).map TxFrame.data = some 0x00FF9C00000052 := ⟨rfl, rfl⟩
theorem test_enc_f503 : (offered (exec .encF503 (burstOf 1000 0))).map TxFrame.data = some 0x53 := rfl
theorem test_enc_f504 :
    (offered (exec .encF504 (burstOf (-500) 0))).map TxFrame.data = some 0x00320000035A0054 ∧
    (offered (exec .encF504 (burstOf 700000 (-4000)))).map TxFrame.data = some 0x11700000015A0054 := ⟨rfl, rfl⟩
theorem test_enc_f506 :
    (offered (exec .encF506 (burstOf 300 (-400)))).map TxFrame.data = some 0x02 ∧
    (offered (exec .encF506 (burstOf 0 0))).map TxFrame.id = some 0x506 := ⟨rfl, rfl⟩

/-- T1 cycle 0. -/
theorem test_start :
    regsOf (exec (.start 1000 0) (st par Regs.reset {})) =
      some { Regs.reset with cmdSpeed := 1000, bcmdSpeed := 1000, st := .active, seq := seqSend, timer := 20 } := by
  decide
/-- T1 cycle 20: the timer expires, the command goes first, the tick stays pending. -/
theorem test_update :
    regsOf (exec (.update 300 (-400)) (st par (waiting 1) {})) =
      some { waiting 20 with cmdSpeed := 300, cmdAngle := -400, tickPend := true } := by decide
/-- T1 cycle 40: the tick is cancelled, the zero burst begins. -/
theorem test_stop :
    regsOf (exec (.stop 7 7) (st par (waiting 1) {})) =
      some { waiting 20 with st := .idle, seq := seqSend } := by decide
theorem test_rsvd :
    regsOf (exec (.rsvd 7 7) (st par Regs.reset {})) = some { Regs.reset with flags := 0b00010 } := by decide
/-- UPDATE and STOP in Idle (R182, R183). -/
theorem test_ignored_commands :
    regsOf (exec (.update 7 7) (st par Regs.reset {})) = some { Regs.reset with flags := 0b10000 } ∧
    regsOf (exec (.stop 7 7) (st par Regs.reset {})) = some { Regs.reset with flags := 0b10000 } := by decide
theorem test_tick :
    regsOf (exec .tick (st par (waiting 1) {})) =
      some { waiting 20 with seq := seqSend, bcmdSpeed := 1000 } := by decide
/-- T1 cycle 1, with a failed send; and the last frame without a gap (R202). -/
theorem test_burst_send :
    regsOf (exec .burstSend (st par (sending 0) { txReady := true, txErr := true })) =
      some { sending 0 with timer := 4, seq := seqGap, gapCnt := 2, flags := 0b00001 } ∧
    regsOf (exec .burstSend (st par0 (sending 4) { txReady := true })) =
      some { sending 4 with timer := 4, seq := seqWait } := by decide
/-- T1 cycles 3 and 15: a gap ends. -/
theorem test_burst_gap :
    regsOf (exec .burstGap (st par (inGap 0 1) {})) = some { inGap 1 1 with timer := 4, seq := seqSend } ∧
    regsOf (exec .burstGap (st par (inGap 4 1) {})) = some { inGap 4 1 with timer := 4, seq := seqWait } := by decide
theorem test_reset : regsOf (exec .reset (st par (flagged (sending 3)) {})) = some Regs.reset := by decide

/-- One whole cycle: a frame decoded, a frame offered and taken, the sequencer moved. -/
theorem test_step_of_a_busy_cycle :
    let s := st par (sending 3) { txReady := true, rxValid := true, rxId := 0x0A0, rx := pay 8 0xFF00003200000000 }
    regsOf (step s) = some { sending 3 with timer := 4, seq := seqGap, gapCnt := 2 } ∧
    seen 1 (step s) = some (2000, .ok) ∧
    (offered (step s)).map TxFrame.data = some 0x00640000015A0054 := by decide

/-! ## Witnesses: the hypotheses of the obligations can be met, each clause at a boundary -/

theorem test_witness_MemReadIsLittleEndian : (1 ≤ 3 ∧ 3 ≤ 3 ∧ 5 + 3 ≤ 8) ∧ (1 ≤ 1 ∧ 1 ≤ 3 ∧ 7 + 1 ≤ 8) := by decide
theorem test_witness_MemWriteIsLittleEndian : (7 ≤ 7 ∧ 7 < 8) ∧ (6 ≤ 6 ∧ 7 < 8) := by decide
theorem test_witness_UnknownIdentifierIsEmpty :
    0x505#29 ∉ [0x303#29, 0x314#29, 0x304#29, 0x301#29, 0x18F#29, 0x060#29, 0x160#29, 0x0A0#29] := by decide

/-- Any state that starts legally steps; the witnesses below are such states. -/
theorem stepsFrom (s : State) (h : startStateFault s = none) : ∃ t, step s = .next t := ⟨_, step_eq s h⟩

/-- A frame of four rows, one of two rows, an unknown one, and none. -/
theorem test_witness_CycleDecodesTheFrameAtThePort :
    ((∃ t, step (st par Regs.reset {}) = .next t) ∧ (st par Regs.reset {}).pins.rxValid = false) ∧
    ((∃ t, step (st par Regs.reset { rxValid := true, rxId := 0x301 }) = .next t) ∧
      (rowsOf signalTable 0x301)[3]? = some rowTouchSwitches) ∧
    ((∃ t, step (st par Regs.reset { rxValid := true, rxId := 0x060 }) = .next t) ∧
      (rowsOf signalTable 0x060).length ≤ 2) ∧
    ∃ t, step (st par Regs.reset { rxValid := true, rxId := 0x505 }) = .next t :=
  ⟨⟨stepsFrom _ rfl, rfl⟩, ⟨stepsFrom _ rfl, rfl⟩, ⟨stepsFrom _ rfl, by decide⟩, stepsFrom _ rfl⟩

/-- Two frames 0x0A0 of five bytes that differ in byte 0 and in the unreadable byte 7. -/
theorem test_witness_DecodingReadsOnlyTheBitsOfItsRows :
    tableWf signalTable = true ∧ effLen (pay 5 0xFF00003212340001).len = effLen (pay 5 0x0700003212340000).len ∧
    ∀ r ∈ signalTable, r.canId = 0x0A0#29 → r.hi < effLen (pay 5 0xFF00003212340001).len →
      ∀ b, r.firstBit ≤ b → b < r.firstBit + r.width →
        (pay 5 0xFF00003212340001).data.getLsbD b = (pay 5 0x0700003212340000).data.getLsbD b := by decide

theorem test_witness_RowErrorsAreIsolated :
    signalTable[0]? = some rowVehicleGear ∧ ({ rowVehicleGear with enumLen := 3 } : SRow).canId = rowVehicleGear.canId ∧
    rowVehicleGear.canId = 0x303 ∧ 1 ≠ (rowsOf (signalTable.take 0) 0x303).length ∧ rowVehicleGear.canId ≠ 0x0A0 := by
  decide
theorem test_witness_DecodedValuesNeverWrap :
    (rowSpeedRequestRpm ∈ signalTable ∧ rowSpeedRequestRpm.hi < 6 ∧ rowSpeedRequestRpm.kind = .num ∧
      rowSpeedRequestRpm.dec = 0) ∧
    (rowBusCurrent ∈ signalTable ∧ rowBusCurrent.hi < 4 ∧ rowBusCurrent.kind = .num ∧ rowBusCurrent.dec = 2) := by
  decide

/-- A failed record; an integer; hundredths; an enumeration and a flag with and without a label; digits. -/
theorem test_witness_FormattedValueStrings :
    let none' := decodeRow rowBusVoltage 1 0
    let int := decodeRow rowBatterySoh 8 0
    let centi := decodeRow rowSpeedRequestKmh 8 0x031F0000
    let gear := decodeRow rowVehicleGear 8 3
    let mode := decodeRow rowDriveMode 8 0x06
    let eps := decodeRow rowEpsControl 8 1
    let touch := decodeRow rowTouchSwitches 8 0x3000
    (none'.v = true ∧ none'.err ≠ .ok) ∧ (int.v = true ∧ int.err = .ok ∧ int.kind = .num ∧ int.dec = 0) ∧
    (centi.err = .ok ∧ centi.kind = .num ∧ centi.dec = 2 ∧ centi.val.toInt.natAbs = 100 * 0 + 10 * 1 + 0) ∧
    (gear.err = .ok ∧ gear.kind = .enum ∧ (enumLabels {} 0)[gear.val.toNat]? = some "Reverse") ∧
    (mode.err = .ok ∧ mode.kind = .enum ∧ (enumLabels {} 16)[mode.val.toNat]? = none) ∧
    (eps.err = .ok ∧ eps.kind = .flag ∧ (flagLabels {} 4)[eps.val.toNat]? = some "Works") ∧
    (touch.err = .ok ∧ touch.kind = .flag ∧ (flagLabels {} 11)[touch.val.toNat]? = none) ∧ 0 < 1 ∧ 9 < 10 := by decide

theorem test_witness_RoundingToTenths :
    (14 : Int).natAbs % 10 < 5 ∧ 5 < (-16 : Int).natAbs % 10 ∧ (25 : Int).natAbs % 10 = 5 ∧
    ((25 : Int).natAbs / 10) % 2 = 0 ∧ ((-15 : Int).natAbs / 10) % 2 = 1 := by decide
theorem test_witness_FieldOverflowThresholds : fieldOverflows 65535 = false ∧ fieldOverflows 0 = false := by decide
theorem test_witness_WireFieldsFollowTheCommand :
    (-655354 : Centi).toInt.natAbs < 655355 ∧ -3004 ≤ (-3004 : Centi).toInt ∧ (-3004 : Centi).toInt < 652355 ∧
    (652354 : Centi).toInt < 652355 := by decide
theorem test_witness_DriveFrame :
    (burstOf (-1) 0).regs.bcmdSpeed.toInt < 0 ∧
    ((burstOf 0 0).regs.bcmdSpeed = 0 ∧ (burstOf 0 0).regs.bcmdAngle = 0) ∧
    (0 ≤ (burstOf 0 1).regs.bcmdSpeed.toInt ∧
      ¬((burstOf 0 1).regs.bcmdSpeed = 0 ∧ (burstOf 0 1).regs.bcmdAngle = 0)) := by decide
theorem test_witness_IndicatorFrame :
    (burstOf 0 0).regs.bcmdAngle = 0 ∧ 0 < (burstOf 0 1).regs.bcmdAngle.toInt ∧
    (burstOf 0 (-1)).regs.bcmdAngle.toInt < 0 := by decide
theorem test_witness_FramesDependOnTheirFields :
    (1 : Centi).toInt.sign = (2147483647 : Centi).toInt.sign ∧ ((1 : Centi) = 0 ↔ (-1 : Centi) = 0) := by decide

/-- Every frame index in SEND, and WAIT. -/
theorem test_witness_OfferedFrames :
    ((∃ t, step (st par (sending 4) {}) = .next t) ∧ (st par (sending 4) {}).regs.seq = seqSend) ∧
    ((∃ t, step (st par (waiting 1) {}) = .next t) ∧ (st par (waiting 1) {}).regs.seq ≠ seqSend) :=
  ⟨⟨stepsFrom _ rfl, rfl⟩, ⟨stepsFrom _ rfl, by decide⟩⟩

/-- The commands in WAIT: active with a tick in the same cycle, and idle. -/
theorem test_witness_StartAccepted :
    (st par (waiting 1) {}).regs.seq = seqWait ∧ (st par Regs.reset {}).regs.seq = seqWait := by decide
theorem test_witness_UpdateAccepted :
    ((st par (waiting 1) {}).regs.seq = seqWait ∧ (st par (waiting 1) {}).regs.st = .active) ∧
    ((st par Regs.reset {}).regs.seq = seqWait ∧ (st par Regs.reset {}).regs.st = .idle) := by decide
theorem test_witness_StopAccepted :
    ((st par (waiting 2) {}).regs.seq = seqWait ∧ (st par (waiting 2) {}).regs.st = .active) ∧
    ((st par Regs.reset {}).regs.seq = seqWait ∧ (st par Regs.reset {}).regs.st = .idle) := by decide
theorem test_witness_RsvdAccepted : (st par (waiting 1) {}).regs.seq = seqWait := by decide
theorem test_witness_CommandsAreHeldDuringABurst :
    (st par (sending 0) (command 0)).regs.seq ≠ seqWait ∧ (st par (inGap 4 1) (command 2)).regs.seq ≠ seqWait ∧
    (st par Regs.reset {}).pins.cmdValid = false := by decide
theorem test_witness_TickServiced :
    ((waiting 1).seq = seqWait ∧ ({} : Pins).cmdValid = false ∧ (waiting 1).st = .active ∧ Pending (waiting 1)) ∧
    Pending { waiting 20 with tickPend := true } := ⟨⟨rfl, rfl, rfl, .inr ⟨rfl, rfl⟩⟩, .inl rfl⟩
theorem test_witness_BurstSendTakesTheFrameOrWaits :
    (sending 4).seq = seqSend ∧ (sending 4).burstIdx.toNat ≤ 4 ∧ 0 < par.gapCycles ∧ par0.gapCycles = 0 ∧
    (sending 4).burstIdx = 4#3 ∧ (sending 0).burstIdx ≠ 4#3 ∧
    (st par (sending 4) { txReady := true, txErr := true }).pins.txErr = true ∧
    (st par (sending 4) { txReady := true }).pins.txErr = false ∧
    (st par (sending 4) { txErr := true }).pins.txReady = false := by decide
theorem test_witness_BurstGapCounts :
    (inGap 4 1).seq = seqGap ∧ (inGap 4 1).burstIdx.toNat ≤ 4 ∧ (inGap 4 1).gapCnt = 1 ∧
    1 ≤ (inGap 0 2).gapCnt ∧ (inGap 0 2).gapCnt < 2 ^ par.gapW ∧ (inGap 0 2).gapCnt ≠ 1 := by decide
/-- A reset edge at the code point 3 of `SEQ`, with a frame at the port. -/
theorem test_witness_ResetFromEveryState :
    let s := st par { sending 7 with seq := 3 } { rst := true, rxValid := true }
    s.pins.rst = true ∧ s.pins.rxValid = true ∧ ∃ t, step s = .next t := ⟨rfl, rfl, stepsFrom _ rfl⟩
theorem test_witness_EventsOutsideTheirCondition :
    Regs.reset.st = .idle ∧ (sending 0).seq ≠ seqWait ∧ (command 1).cmdValid = true ∧ ¬Pending (waiting 2) ∧
    (waiting 1).seq ≠ seqSend ∧ ((sending 5).seq = seqSend ∧ 5 ≤ (sending 5).burstIdx.toNat) ∧
    (sending 0).seq ≠ seqGap ∧ ((inGap 7 1).seq = seqGap ∧ 5 ≤ (inGap 7 1).burstIdx.toNat) ∧
    (({} : Pins).rst = false ∧ ({ Regs.reset with seq := 3 } : Regs).seq = 3#2) := by
  simp [Pending, waiting, sending, inGap, command, Regs.reset]

/-- Every clause of the step statement: all kinds of cycle. -/
theorem test_witness_StepRunsTheDecodedOperations :
    startStateFault (st par (sending 2) { rxValid := true }) = none ∧
    ((st par (inGap 0 1) { rst := true }).pins.rst = true ∧ (inGap 0 1).seq ≠ seqSend) ∧
    decode (.cw (command 3).cmd) = .ok (.rsvd 300 (-400)) ∧
    decode (.tick (tickWord (st par (waiting 1) {}))) = .ok .tick ∧
    (tickWord (st par (waiting 2) {}) ≠ 3#2 ∧ (waiting 2).tickPend = false) ∧
    ((inGap 4 2).seq = seqGap ∧ (inGap 4 2).burstIdx.toNat ≤ 4 ∧ decode (.seq (inGap 4 2).seq) = .ok .burstGap) ∧
    ((sending 4).seq = seqSend ∧ decode (.txf (sending 4).burstIdx) = .ok .encF506 ∧
      decode (.seq (sending 4).seq) = .ok .burstSend) :=
  ⟨rfl, ⟨rfl, by decide⟩, rfl, rfl, ⟨by decide, rfl⟩, ⟨rfl, by decide, rfl⟩, ⟨rfl, rfl, rfl⟩⟩

/-- Good states: active and waiting, sending, in a gap, idle in a STOP burst. -/
theorem good_waiting (t : Nat) (h : 1 ≤ t ∧ t ≤ 20) (i : Pins) (env : List Pins) :
    ({ st par (waiting t) i with env := env } : State).Good :=
  ⟨.inl rfl, by show 0 ≤ 4; omega, fun _ => rfl, fun _ => h, fun e => absurd e (by show seqWait ≠ seqGap; decide),
    fun e => absurd e (by show SchedState.active ≠ .idle; decide), fun _ e => absurd rfl e⟩
theorem good_sending (p : Params) (hp : 5 ≤ p.period) (k : BitVec 3) (h : k.toNat ≤ 4) (i : Pins) (env : List Pins) :
    ({ st p (sending k) i with env := env } : State).Good :=
  ⟨.inr (.inl rfl), h, fun _ => rfl, fun _ => ⟨by show 1 ≤ 5; omega, hp⟩,
    fun e => absurd e (by show seqSend ≠ seqGap; decide), fun e => absurd e (by show SchedState.active ≠ .idle; decide),
    fun _ _ => ⟨rfl, rfl⟩⟩
theorem good_idle (i : Pins) (env : List Pins) : ({ st par Regs.reset i with env := env } : State).Good :=
  ⟨.inl rfl, by show 0 ≤ 4; omega, fun e => absurd e (by show false ≠ true; decide),
    fun e => absurd e (by show SchedState.idle ≠ .active; decide), fun e => absurd e (by show seqWait ≠ seqGap; decide),
    fun _ _ => ⟨rfl, rfl⟩, fun e => absurd e (by show SchedState.idle ≠ .active; decide)⟩

theorem test_witness_GoodStatesAlwaysStep : (st par (waiting 20) {}).Good := good_waiting 20 (by omega) {} []
theorem test_witness_StepKeepsTheInvariants :
    (st par (sending 4) { txReady := true, txErr := true }).Good ∧
    ∃ t, step (st par (sending 4) { txReady := true, txErr := true }) = .next t :=
  ⟨good_sending par (by decide) 4 (by decide) _ [], stepsFrom _ rfl⟩
theorem test_witness_FlagsAreSticky :
    (∃ t, exec (.start 1 1) (st par (flagged (waiting 1)) {}) = .next t) ∧ flagSet (flagged (waiting 1)).flags .txErr ∧
    ∃ t, step (st par (flagged (sending 0)) { txReady := true }) = .next t := ⟨⟨_, rfl⟩, rfl, stepsFrom _ rfl⟩
/-- Each cause of a flag happens. -/
theorem test_witness_FlagsHaveTheirCauses :
    TakesFrame (st par (sending 4) { txReady := true, txErr := true }) ∧ Accepts (st par Regs.reset (command 3)) 3#2 ∧
    Accepts (st par Regs.reset (command 1)) 1#2 ∧ Accepts (st par Regs.reset (command 2)) 2#2 ∧
    (∃ t, step (st par { waiting 1 with cmdSpeed := 655355, cmdAngle := -3006 } {}) = .next t ∧
      t.regs.seq = seqSend ∧ 655355 ≤ t.regs.bcmdSpeed.toInt.natAbs ∧ strf .halfEven t.regs.bcmdAngle < 0) :=
  ⟨⟨rfl, rfl, rfl⟩, ⟨rfl, rfl, rfl, rfl⟩, ⟨rfl, rfl, rfl, rfl⟩, ⟨rfl, rfl, rfl, rfl⟩,
    _, step_eq _ rfl, rfl, by decide, by decide⟩
theorem test_witness_WhatWritesTheCommandRegisters :
    (st par (waiting 1) (command 2)).Good ∧ Accepts (st par (waiting 1) (command 2)) 2#2 ∧
    (st par Regs.reset (command 0)).Good ∧ Accepts (st par Regs.reset (command 0)) 0#2 ∧
    (st par (waiting 1) {}).Good ∧ ServicesTick (st par (waiting 1) {}) :=
  ⟨good_waiting 1 (by omega) _ [], ⟨rfl, rfl, rfl, rfl⟩, good_idle _ [], ⟨rfl, rfl, rfl, rfl⟩,
    good_waiting 1 (by omega) _ [], ⟨rfl, rfl, rfl, .inr ⟨rfl, rfl⟩⟩⟩
/-- A tick that stays pending: UPDATE in the cycle the timer expires. -/
theorem test_witness_TimerAndPendingTick :
    (st par (waiting 1) (command 1)).Good ∧ Pending (waiting 1) ∧ ¬Accepts (st par (waiting 1) (command 1)) 0#2 ∧
    ¬ServicesTick (st par (waiting 1) (command 1)) ∧ ∃ t, step (st par (waiting 1) (command 1)) = .next t :=
  ⟨good_waiting 1 (by omega) _ [], .inr ⟨rfl, rfl⟩, fun h => absurd h.2.2.2 (by decide),
    fun h => absurd h.2.2.1 (by decide), stepsFrom _ rfl⟩
theorem test_witness_LogGrowsByTheTakenFrames :
    TakesFrame (st par (sending 4) { txReady := true }) ∧ ¬TakesFrame (st par (inGap 4 1) { txReady := true }) ∧
    (∃ t, step (st par (sending 4) { txReady := true }) = .next t) ∧
    ∃ t, step (st par (inGap 4 1) { txReady := true }) = .next t :=
  ⟨⟨rfl, rfl, rfl⟩, fun h => absurd h.2.1 (by decide), stepsFrom _ rfl, stepsFrom _ rfl⟩
/-- The same cycle with and without an inbound frame; the same frame in Idle and in a burst. -/
theorem test_witness_DecoderAndSchedulerAreIndependent :
    (∃ t, step (st par (sending 1) {}) = .next t) ∧ (∃ t, step (st par (sending 1) { rxValid := true }) = .next t) ∧
    ∃ t, step (st par Regs.reset { rxValid := true }) = .next t := ⟨stepsFrom _ rfl, stepsFrom _ rfl, stepsFrom _ rfl⟩
theorem test_witness_OfferedFrameIsStable :
    ∃ t u, step { st par (sending 4) {} with env := [{}] } = .next t ∧ step t = .next u ∧
      (sending 4).seq = seqSend ∧ ({} : Pins).txReady = false :=
  ⟨_, _, step_eq _ rfl, step_eq _ rfl, rfl, rfl⟩
/-- A cycle that is an event and one that is none. -/
theorem test_witness_CycleRefinesTheEventLevel :
    ((st par (waiting 1) {}).Good ∧ eventOf (st par (waiting 1) {}) = some .tick) ∧
    ((st par (waiting 2) {}).Good ∧ eventOf (st par (waiting 2) {}) = none) ∧
    eventOf (st par Regs.reset (command 0)) = some (.start 300 (-400)) ∧
    ∃ t, step (st par (waiting 1) {}) = .next t ∧ t.regs.seq = seqSend :=
  ⟨⟨good_waiting 1 (by omega) _ [], rfl⟩, ⟨good_waiting 2 (by omega) _ [], rfl⟩, rfl, _, step_eq _ rfl, rfl⟩
/-- TXERR at the event level: the frame of this cycle fails, or one of the next cycle does. -/
theorem test_burst_fails :
    failsNow (st par (sending 4) { txReady := true, txErr := true }) = true ∧
    failsNow (st par (sending 4) { txErr := true }) = false ∧
    (asEvent true (st par (sending 4) {})).flags = 1 ∧ (asEvent false (st par (sending 4) {})).flags = 0 := by decide

/-- The next n inputs: the transport ready, nothing else. -/
def readyFor (n : Nat) : List Pins := List.replicate n { txReady := true }

/-- A whole burst, and one cycle from WAIT to WAIT. -/
theorem test_witness_RunsRefineTheEventLevel :
    (({ st par Regs.reset (command 0) with env := readyFor 30 } : State).Good ∧
      NoReset { st par Regs.reset (command 0) with env := readyFor 30 } 30) ∧
    ((st par (waiting 2) {}).Good ∧ NoReset (st par (waiting 2) {}) 1 ∧ (waiting 2).seq = seqWait ∧
      ∃ t, step (st par (waiting 2) {}) = .next t ∧ t.regs.seq = seqWait) :=
  ⟨⟨good_idle _ _, by unfold NoReset; decide⟩, good_waiting 2 (by omega) _ [], by unfold NoReset; decide, rfl,
    _, step_eq _ rfl, rfl⟩
theorem test_witness_EventRunsCountSets :
    eventRun par [(.start 1000 0, false), (.tick, true), (.stop, false)] eventReset ≠ none ∧ eventReset.st = .idle := by
  decide
/-- With a gap of 2 and with none. -/
theorem test_witness_BurstTiming :
    (({ st par (sending 0) { txReady := true } with env := readyFor 15 } : State).Good ∧
      NoReset { st par (sending 0) { txReady := true } with env := readyFor 15 } 15 ∧
      AlwaysReady { st par (sending 0) { txReady := true } with env := readyFor 15 } 15) ∧
    (({ st par0 (sending 0) { txReady := true } with env := readyFor 5 } : State).Good ∧
      NoReset { st par0 (sending 0) { txReady := true } with env := readyFor 5 } 5 ∧
      AlwaysReady { st par0 (sending 0) { txReady := true } with env := readyFor 5 } 5) :=
  ⟨⟨good_sending par (by decide) 0 (by decide) _ _, by unfold NoReset; decide, by unfold AlwaysReady; decide⟩,
    ⟨good_sending par0 (by decide) 0 (by decide) _ _, by unfold NoReset; decide, by unfold AlwaysReady; decide⟩⟩
/-- A period and a half, with an UPDATE presented in the first cycle. -/
theorem test_witness_TicksAreOnePeriodApart :
    let s := { st par (waiting 20) (command 1) with env := readyFor 30 }
    s.Good ∧ s.regs.st = .active ∧ NoReset s 30 ∧ NoCommand s 30 [0#2, 2#2] :=
  ⟨good_waiting 20 (by omega) _ _, rfl, by unfold NoReset; decide, by unfold NoCommand; decide⟩
theorem test_witness_HeartbeatBurst :
    let s := { st par (waiting 3) {} with env := readyFor 3 }
    s.Good ∧ s.regs.st = .active ∧ s.regs.seq = seqWait ∧ NoReset s s.regs.timer ∧
    NoCommand s s.regs.timer [0#2, 1#2, 2#2, 3#2] :=
  ⟨good_waiting 3 (by omega) _ _, rfl, rfl, by unfold NoReset; decide, by unfold NoCommand; decide⟩
/-- A STOP and an UPDATE in Idle are presented; nothing is sent. -/
theorem test_witness_IdleStaysSilent :
    let s := { st par Regs.reset (command 2) with env := command 1 :: readyFor 8 }
    s.Good ∧ s.regs.st = .idle ∧ s.regs.seq = seqWait ∧ NoCommand s 9 [0#2] :=
  ⟨good_idle _ _, rfl, rfl, by unfold NoCommand; decide⟩
/-- The codes of `kind` and `err` on the wires (R88): a FLAG record that is SHORT, an ENUM record beyond its table. -/
theorem test_slot_wires :
    slotWires (decodeRow rowHeadLight 1 0) = { v := 1, sigId := 9, kind := 2, val := 0, dec := 0, err := 2 } ∧
    slotWires (decodeRow { rowDriveMode with enumLen := 1 } 1 2) =
      { v := 1, sigId := 16, kind := 1, val := 0, dec := 0, err := 1 } ∧
    slotWires (decodeRow rowBusVoltage 2 100) = { v := 1, sigId := 14, kind := 0, val := 1000, dec := 2, err := 0 } := by
  decide
/-- Legal parameters, a state whose counters fit their widths, and one with both counters at 0 in ACTIVE and GAP. -/
theorem test_witness_ParametersAndCounterWidths :
    (∃ p, Params.elaborate 1 0 .halfAway refset.toWireFields {} = .ok p) ∧
    ((waiting 1).fits par = true ∧ ∃ t, step (st par (waiting 1) {}) = .next t) ∧
    let r := { inGap 0 0 with timer := 0 }
    r.st = .active ∧ r.seq = seqGap ∧ ¬Accepts (st par r {}) 0#2 ∧ ∃ t, step (st par r {}) = .next t :=
  ⟨⟨_, rfl⟩, ⟨by decide, stepsFrom _ rfl⟩, rfl, rfl, fun h => absurd h.2.1 (by decide), stepsFrom _ rfl⟩
theorem test_witness_DecodeOfEncode :
    (Instr.stop 5 7).wf = true ∧ (Instr.decUnknown 0x1FFFFFFF default).wf = true := by decide
theorem test_witness_EncodeOfDecode : decode (.rxf 0 0) = .ok (.decUnknown 0 ⟨false, 0, 0⟩) := rfl

/-! ## The host's question: a table word runs as the first step after reset -/

theorem test_fetch_word_303 :
    seen 0 (step (State.reset.withFetchWord 32 0x303)) = some (0, .short) := by decide
theorem test_fetch_word_start :
    (regsOf (step (State.reset.withFetchWord 72 0))).map Regs.seq = some seqSend := by decide

end Sys2Proof.Tests
end

