-- ==== Sys2Proof/Proofs/Scope.lean ====
section
/-! PROOFS. The scope statements (`00_scope.md`): rounding to tenths (R14), what elaboration refuses (R9, R10, R166), and
the widths of the two counters (R20). -/

namespace Sys2Proof.Machine

/-! ## Rounding to tenths -/

/-- A magnitude in tenths, rounded to nearest: what `rdiv10` puts a sign on (`rdiv10_eq`). -/
def tenths (tie : RoundTie) (k : Nat) : Nat :=
  if k % 10 < 5 then k / 10
  else if 5 < k % 10 then k / 10 + 1
  else
    match tie with
    | .halfAway => k / 10 + 1
    | .halfEven => if k / 10 % 2 = 0 then k / 10 else k / 10 + 1

theorem rdiv10_eq (tie : RoundTie) (n : Int) :
    rdiv10 tie n = if n < 0 then -(tenths tie n.natAbs : Int) else tenths tie n.natAbs := rfl

theorem rdiv10_of_nonneg (tie : RoundTie) (n : Int) (h : 0 ≤ n) : rdiv10 tie n = tenths tie n.natAbs := by
  rw [rdiv10_eq, if_neg (by omega)]

theorem rdiv10_of_neg (tie : RoundTie) (n : Int) (h : n < 0) : rdiv10 tie n = -(tenths tie n.natAbs : Int) := by
  rw [rdiv10_eq, if_pos h]

theorem natAbs_rdiv10 (tie : RoundTie) (n : Int) : (rdiv10 tie n).natAbs = tenths tie n.natAbs := by
  rw [rdiv10_eq]
  split <;> omega

theorem tenths_below (tie : RoundTie) (k : Nat) (h : k % 10 < 5) : tenths tie k = k / 10 := if_pos h

theorem tenths_above (tie : RoundTie) (k : Nat) (h : 5 < k % 10) : tenths tie k = k / 10 + 1 :=
  (if_neg (by omega)).trans (if_pos h)

theorem tenths_tie_away (k : Nat) (h : k % 10 = 5) : tenths .halfAway k = k / 10 + 1 := by
  simp [tenths, h]

theorem tenths_tie_even (k : Nat) (h : k % 10 = 5) (he : k / 10 % 2 = 0) : tenths .halfEven k = k / 10 := by
  simp [tenths, h, he]

theorem tenths_tie_odd (k : Nat) (h : k % 10 = 5) (ho : k / 10 % 2 = 1) : tenths .halfEven k = k / 10 + 1 := by
  simp [tenths, h, ho]

/-- Where the rounded magnitude is: the quotient up to a tie, the next integer from a tie on. -/
theorem tenths_cases (tie : RoundTie) (k : Nat) :
    (k % 10 ≤ 5 ∧ tenths tie k = k / 10) ∨ (5 ≤ k % 10 ∧ tenths tie k = k / 10 + 1) := by
  rcases Nat.lt_trichotomy (k % 10) 5 with h | h | h
  · exact .inl ⟨h.le, tenths_below tie k h⟩
  · cases tie with
    | halfAway => exact .inr ⟨h.ge, tenths_tie_away k h⟩
    | halfEven =>
      rcases Nat.mod_two_eq_zero_or_one (k / 10) with he | ho
      · exact .inl ⟨h.le, tenths_tie_even k h he⟩
      · exact .inr ⟨h.ge, tenths_tie_odd k h ho⟩
  · exact .inr ⟨h.le, tenths_above tie k h⟩

theorem rdiv10_neg (tie : RoundTie) (n : Int) : rdiv10 tie (-n) = -rdiv10 tie n := by
  rcases Int.lt_trichotomy n 0 with h | rfl | h
  · rw [rdiv10_of_neg tie n h, rdiv10_of_nonneg tie (-n) (by omega), Int.natAbs_neg, Int.neg_neg]
  · have h0 : tenths tie 0 = 0 := tenths_below tie 0 (by decide)
    simp [rdiv10_eq, h0]
  · rw [rdiv10_of_nonneg tie n h.le, rdiv10_of_neg tie (-n) (by omega), Int.natAbs_neg]

/-- Rounding moves an integer by at most half a unit of the result. -/
theorem rdiv10_near (tie : RoundTie) (n : Int) : (10 * rdiv10 tie n - n).natAbs ≤ 5 := by
  have hm := tenths_cases tie n.natAbs
  rcases Int.lt_or_le n 0 with h | h
  · rw [rdiv10_of_neg tie n h]
    omega
  · rw [rdiv10_of_nonneg tie n h]
    omega

/-- Settles O18: the magnitude is `tenths` of the magnitude, and the sign is that of n. -/
theorem roundingToTenths : Obligations.RoundingToTenths := by
  intro tie n
  rw [natAbs_rdiv10]
  refine ⟨tenths_below tie _, tenths_above tie _, ?_, ?_, ?_, ?_, ?_, rdiv10_neg tie n, rdiv10_near tie n⟩
  · rintro h rfl
    exact tenths_tie_away _ h
  · rintro h rfl
    exact tenths_tie_even _ h
  · rintro h rfl
    exact tenths_tie_odd _ h
  · intro h
    rw [rdiv10_of_nonneg tie n h]
    omega
  · intro h
    have hn := rdiv10_of_nonneg tie (-n) (by omega)
    rw [rdiv10_neg] at hn
    omega

/-! ## Elaboration -/

theorem wireFields_wf_iff (w : WireFields) :
    w.wf = true ↔ w.indLeft ≠ w.indRight ∧ w.indLeft ≠ 0 ∧ w.indRight ≠ 0 ∧
      6 ≤ w.txLen1.toNat ∧ 8 ≤ w.txLen3.toNat ∧ 1 ≤ w.txLen4.toNat := by
  simp [WireFields.wf, and_assoc]

/-- What elaboration answers, and for which values: the parameters answered are the values given (R9, R10, R166). -/
theorem elaborate_eq_ok_iff (period gap : Nat) (tie : RoundTie) (w : WireFields) (labels : Labels) (p : Params) :
    Params.elaborate period gap tie w labels = .ok p ↔
      p.period = period ∧ p.gapCycles = gap ∧ p.roundTie = tie ∧ p.wc.toWireFields = w ∧ p.labels = labels := by
  obtain ⟨periodLessOne, gapCycles, roundTie, ⟨fields, legal⟩, labels'⟩ := p
  cases period with
  | zero => simp [Params.elaborate, Params.period]
  | succ n =>
    by_cases h : w.wf = true
    · simp [Params.elaborate, Params.period, h, eq_comm]
    · have hw : fields ≠ w := by
        rintro rfl
        exact h legal
      simp [Params.elaborate, Params.period, h, hw]

theorem elaborate_answers_iff (period gap : Nat) (tie : RoundTie) (w : WireFields) (labels : Labels) :
    (∃ p, Params.elaborate period gap tie w labels = .ok p) ↔ 1 ≤ period ∧ w.wf = true := by
  constructor
  · rintro ⟨p, hp⟩
    obtain ⟨rfl, _, _, rfl, _⟩ := (elaborate_eq_ok_iff ..).mp hp
    exact ⟨Nat.succ_pos _, p.wc.legal⟩
  · rintro ⟨h1, hw⟩
    exact ⟨{ periodLessOne := period - 1, gapCycles := gap, roundTie := tie, wc := ⟨w, hw⟩, labels },
      (elaborate_eq_ok_iff ..).mpr ⟨Nat.sub_add_cancel h1, rfl, rfl, rfl, rfl⟩⟩

/-! ## The widths of the counters -/

/-- The number of binary digits of a positive number, as the spec writes it (R20). -/
theorem log2_add_one_eq_clog (n : Nat) (h : n ≠ 0) : Nat.log2 n + 1 = Nat.clog 2 (n + 1) := by
  apply le_antisymm
  · exact (Nat.lt_clog_iff_pow_lt Nat.one_lt_two).mpr (Nat.lt_succ_of_le (Nat.log2_self_le h))
  · exact (Nat.clog_le_iff_le_pow Nat.one_lt_two).mpr Nat.lt_log2_self

theorem timerW_eq (p : Params) : p.timerW = Nat.clog 2 (p.period + 1) :=
  log2_add_one_eq_clog p.period (Nat.succ_ne_zero _)

theorem gapW_eq (p : Params) : p.gapW = max 1 (Nat.clog 2 (p.gapCycles + 1)) := by
  rw [Params.gapW]
  rcases Nat.eq_zero_or_pos p.gapCycles with h | h
  · simp [h]
  · rw [← log2_add_one_eq_clog _ h.ne', Nat.max_eq_right (Nat.le_add_left 1 _)]

/-! ## The counters in a cycle -/

theorem fits_iff (p : Params) (r : Regs) :
    r.fits p = true ↔ r.timer < 2 ^ p.timerW ∧ r.gapCnt < 2 ^ p.gapW := by
  simp [Regs.fits]

theorem reset_fits (p : Params) : Regs.reset.fits p = true := by
  simp [fits_iff, Regs.reset]

theorem timerNext_lt (p : Params) (r : Regs) (h : r.timer < 2 ^ p.timerW) : timerNext p r < 2 ^ p.timerW := by
  unfold timerNext
  split
  · exact h
  · split
    · exact period_lt p
    · exact decrement_lt _ _

/-- In ACTIVE the timer at 0 goes to its greatest value (log entry 7). -/
theorem timerNext_zero (p : Params) (r : Regs) (ha : r.st = .active) (h0 : r.timer = 0) :
    timerNext p r = 2 ^ p.timerW - 1 := by
  simp [timerNext, ha, h0, decrement_zero]

section
variable (p : Params) (speed angle : Centi) (r : Regs)

@[simp] theorem acceptStart_timer : (acceptStart p speed angle r).timer = p.period := rfl
@[simp] theorem acceptStart_gapCnt : (acceptStart p speed angle r).gapCnt = r.gapCnt := rfl
@[simp] theorem acceptRsvd_timer : (acceptRsvd p r).timer = timerNext p r := rfl
@[simp] theorem acceptRsvd_gapCnt : (acceptRsvd p r).gapCnt = r.gapCnt := rfl
@[simp] theorem serviceTick_timer : (serviceTick p r).timer = timerNext p r := rfl
@[simp] theorem serviceTick_gapCnt : (serviceTick p r).gapCnt = r.gapCnt := rfl
@[simp] theorem countCycle_timer : (countCycle p r).timer = timerNext p r := rfl
@[simp] theorem countCycle_gapCnt : (countCycle p r).gapCnt = r.gapCnt := rfl

@[simp] theorem acceptUpdate_timer : (acceptUpdate p speed angle r).timer = timerNext p r := by
  unfold acceptUpdate
  split <;> rfl

@[simp] theorem acceptUpdate_gapCnt : (acceptUpdate p speed angle r).gapCnt = r.gapCnt := by
  unfold acceptUpdate
  split <;> rfl

@[simp] theorem acceptStop_timer : (acceptStop p r).timer = timerNext p r := by
  unfold acceptStop
  split <;> rfl

@[simp] theorem acceptStop_gapCnt : (acceptStop p r).gapCnt = r.gapCnt := by
  unfold acceptStop
  split <;> rfl

@[simp] theorem nextFrame_gapCnt : (nextFrame r).gapCnt = r.gapCnt := by
  unfold nextFrame
  split <;> rfl

@[simp] theorem frameTaken_timer (err : Bool) : (frameTaken p err r).timer = r.timer := by
  obtain ⟨_, _, _, h, _⟩ := frameTaken_frame p err r
  exact h

@[simp] theorem gapStep_timer : (gapStep p r).timer = r.timer := by
  obtain ⟨_, _, _, h, _⟩ := gapStep_frame p r
  exact h

end

/-- `TIMER` after a cycle without reset: an accepted START loads it, every other cycle counts (R191, R193). -/
theorem nextRegs_timer (s : State) (hr : s.pins.rst = false) :
    (Accepts s 0#2 ∧ (nextRegs s).timer = s.params.period) ∨ (nextRegs s).timer = timerNext s.params s.regs := by
  rcases nextRegs_cases s hr with ⟨h, e⟩ | ⟨_, e⟩ | ⟨_, e⟩ | ⟨_, e⟩ | ⟨_, _, e⟩ | ⟨_, _, _, e⟩ | ⟨_, _, e⟩ |
    ⟨_, _, e⟩ | ⟨_, _, e⟩ <;> rw [e]
  · exact .inl ⟨h, rfl⟩
  all_goals exact .inr (by simp)

/-- `GAP_CNT` after a cycle without reset: kept, loaded when a frame is taken, or counted down in a gap (R199, R200). -/
theorem nextRegs_gapCnt (s : State) (hr : s.pins.rst = false) :
    (nextRegs s).gapCnt = s.regs.gapCnt ∨ (nextRegs s).gapCnt = s.params.gapCycles ∨
      (nextRegs s).gapCnt = decrement s.params.gapW s.regs.gapCnt := by
  rcases nextRegs_cases s hr with ⟨_, e⟩ | ⟨_, e⟩ | ⟨_, e⟩ | ⟨_, e⟩ | ⟨_, _, e⟩ | ⟨_, _, _, e⟩ | ⟨_, _, e⟩ |
    ⟨_, _, e⟩ | ⟨_, _, e⟩ <;> rw [e]
  iterate 6 exact .inl (by simp)
  · rcases frameTaken_cases s.params s.pins.txErr (countCycle s.params s.regs) with ⟨_, h⟩ | ⟨_, h⟩ <;> simp [h]
  · exact .inl (by simp)
  · rcases gapStep_cases s.params (countCycle s.params s.regs) with ⟨_, h⟩ | ⟨_, h⟩ <;> simp [h]

/-- In a gap `GAP_CNT` at 0 goes to its greatest value (log entry 7). -/
theorem nextRegs_gapCnt_zero (s : State) (hr : s.pins.rst = false) (hs : s.regs.seq = seqGap)
    (h0 : s.regs.gapCnt = 0) : (nextRegs s).gapCnt = 2 ^ s.params.gapW - 1 := by
  simp [nextRegs, hr, hs, gapStep, h0, decrement_zero]

/-- A cycle keeps the counters within their widths (R20). -/
theorem nextRegs_fits (s : State) (h : s.regs.fits s.params = true) : (nextRegs s).fits s.params = true := by
  cases hr : s.pins.rst with
  | true => simpa [nextRegs, hr] using reset_fits s.params
  | false =>
    obtain ⟨ht, hg⟩ := (fits_iff _ _).mp h
    refine (fits_iff _ _).mpr ⟨?_, ?_⟩
    · rcases nextRegs_timer s hr with ⟨_, e⟩ | e <;> rw [e]
      · exact period_lt _
      · exact timerNext_lt _ _ ht
    · rcases nextRegs_gapCnt s hr with e | e | e <;> rw [e]
      · exact hg
      · exact gapCycles_lt _
      · exact decrement_lt _ _

/-- Settles O60: elaboration by the two equivalences, the widths by `clog`, the counters by what a cycle does to each. -/
theorem parametersAndCounterWidths : Obligations.ParametersAndCounterWidths := by
  refine ⟨fun period gap tie w labels => ⟨?_, fun p => (elaborate_eq_ok_iff ..).mp⟩, fun p => ?_, reset_fits _,
    fun s t hst => ?_⟩
  · rw [elaborate_answers_iff, wireFields_wf_iff]
  · obtain ⟨hne, hl, hri, h1, h3, h4⟩ := (wireFields_wf_iff _).mp p.wc.legal
    exact ⟨hne, hl, hri, h1, h3, h4, timerW_eq p, gapW_eq p⟩
  · obtain ⟨hp, hregs, _⟩ := step_parts s t hst
    rw [hp, hregs]
    refine ⟨nextRegs_fits s, fun hr ha h0 hn => ?_, nextRegs_gapCnt_zero s⟩
    rcases nextRegs_timer s hr with ⟨h, _⟩ | e
    · exact absurd h hn
    · rw [e, timerNext_zero _ _ ha h0]

end Sys2Proof.Machine
end

