-- ==== Sys2Proof/Proofs/State.lean ====
section
/-! PROOFS. The state statements (`10_state.md`): what a cycle without reset is, by its cause (`CycleKind`), and from it
the invariants R41, the causes of the flags (R27) and the writers of the command registers (R20 to R25); reset (R42,
R250) and the independence of decoder and scheduler (R32, R68). -/

namespace Sys2Proof.Machine

/-! ## What the register transfers leave -/

section
variable (p : Params) (speed angle : Centi) (r : Regs)

@[simp] theorem countCycle_st : (countCycle p r).st = r.st := rfl
@[simp] theorem countCycle_seq : (countCycle p r).seq = r.seq := rfl
@[simp] theorem countCycle_burstIdx : (countCycle p r).burstIdx = r.burstIdx := rfl
@[simp] theorem countCycle_cmdSpeed : (countCycle p r).cmdSpeed = r.cmdSpeed := rfl
@[simp] theorem countCycle_cmdAngle : (countCycle p r).cmdAngle = r.cmdAngle := rfl
@[simp] theorem countCycle_bcmdSpeed : (countCycle p r).bcmdSpeed = r.bcmdSpeed := rfl
@[simp] theorem countCycle_bcmdAngle : (countCycle p r).bcmdAngle = r.bcmdAngle := rfl
@[simp] theorem countCycle_tickPend : (countCycle p r).tickPend = pendOf r := rfl
@[simp] theorem countCycle_flags : (countCycle p r).flags = r.flags := rfl

@[simp] theorem burstBegin_st : (burstBegin p speed angle r).st = r.st := rfl
@[simp] theorem burstBegin_seq : (burstBegin p speed angle r).seq = seqSend := rfl
@[simp] theorem burstBegin_burstIdx : (burstBegin p speed angle r).burstIdx = 0 := rfl
@[simp] theorem burstBegin_timer : (burstBegin p speed angle r).timer = r.timer := rfl
@[simp] theorem burstBegin_tickPend : (burstBegin p speed angle r).tickPend = r.tickPend := rfl
@[simp] theorem burstBegin_cmdSpeed : (burstBegin p speed angle r).cmdSpeed = r.cmdSpeed := rfl
@[simp] theorem burstBegin_cmdAngle : (burstBegin p speed angle r).cmdAngle = r.cmdAngle := rfl
@[simp] theorem burstBegin_bcmdSpeed : (burstBegin p speed angle r).bcmdSpeed = speed := rfl
@[simp] theorem burstBegin_bcmdAngle : (burstBegin p speed angle r).bcmdAngle = angle := rfl
@[simp] theorem burstBegin_flags :
    (burstBegin p speed angle r).flags = overflowFlags p.roundTie speed angle r.flags := rfl

end

/-! ## Which operation a cycle runs -/

/-- A cycle accepts one command. -/
theorem Accepts.iff_eq {s : State} {a : BitVec 2} (h : Accepts s a) (b : BitVec 2) : Accepts s b ↔ a = b := by
  obtain ⟨hr, hw, hc, ha⟩ := h
  simp [Accepts, hr, hw, hc, ha]

theorem Accepts.wait {s : State} {a : BitVec 2} : Accepts s a → s.regs.seq = seqWait :=
  fun ⟨_, hw, _, _⟩ => hw

theorem ServicesTick.wait {s : State} : ServicesTick s → s.regs.seq = seqWait := fun ⟨_, hw, _, _⟩ => hw

theorem ServicesTick.noCommand {s : State} : ServicesTick s → s.pins.cmdValid = false := fun ⟨_, _, hc, _⟩ => hc

theorem ServicesTick.pending {s : State} : ServicesTick s → Pending s.regs := fun ⟨_, _, _, hp⟩ => hp

theorem TakesFrame.send {s : State} : TakesFrame s → s.regs.seq = seqSend := fun ⟨_, hs, _⟩ => hs

theorem not_accepts_of_noCommand {s : State} (h : s.pins.cmdValid = false) (a : BitVec 2) : ¬Accepts s a := by
  simp [Accepts, h]

/-- A command goes before a tick (R203). -/
theorem Accepts.not_servicesTick {s : State} {a : BitVec 2} (h : Accepts s a) : ¬ServicesTick s :=
  fun ht => not_accepts_of_noCommand ht.noCommand a h

/-- During a burst every command is held (R196). -/
theorem not_accepts_of_busy {s : State} (h : s.regs.seq ≠ seqWait) (a : BitVec 2) : ¬Accepts s a :=
  fun ha => h ha.wait

theorem not_takesFrame_of_wait {s : State} (h : s.regs.seq = seqWait) : ¬TakesFrame s := by
  simp [TakesFrame, h]

/-- What a cycle without reset is, by its cause, with the registers it leaves (R190). UPDATE and STOP are told apart by
`ST`: in ACTIVE they have their effect, in IDLE they are ignored with a flag (R194, R195). -/
inductive CycleKind (s : State) : Regs → Prop
  | start : Accepts s 0#2 → CycleKind s (acceptStart s.params (cwSpeed s.pins.cmd) (cwAngle s.pins.cmd) s.regs)
  | update : Accepts s 1#2 → s.regs.st = .active →
      CycleKind s { countCycle s.params s.regs with cmdSpeed := cwSpeed s.pins.cmd, cmdAngle := cwAngle s.pins.cmd }
  | stop : Accepts s 2#2 → s.regs.st = .active →
      CycleKind s (burstBegin s.params 0 0
        { s.regs with st := .idle, timer := timerNext s.params s.regs, tickPend := false })
  | ignored : Accepts s 1#2 ∨ Accepts s 2#2 → s.regs.st = .idle →
      CycleKind s { countCycle s.params s.regs with flags := raiseFlag .cmdIgn s.regs.flags }
  | rsvd : Accepts s 3#2 → CycleKind s (acceptRsvd s.params s.regs)
  | tick : ServicesTick s → s.regs.st = .active → CycleKind s (serviceTick s.params s.regs)
  | quiet : s.regs.seq = seqWait → s.pins.cmdValid = false → ¬(s.regs.st = .active ∧ Pending s.regs) →
      CycleKind s (countCycle s.params s.regs)
  | taken : TakesFrame s → CycleKind s (frameTaken s.params s.pins.txErr (countCycle s.params s.regs))
  | stalled : s.regs.seq = seqSend → s.pins.txReady = false → CycleKind s (countCycle s.params s.regs)
  | gap : s.regs.seq = seqGap → CycleKind s (gapStep s.params (countCycle s.params s.regs))

theorem cycleKind_acceptUpdate {s : State} (h : Accepts s 1#2) :
    CycleKind s (acceptUpdate s.params (cwSpeed s.pins.cmd) (cwAngle s.pins.cmd) s.regs) := by
  unfold acceptUpdate
  split
  next ha => exact .update h ha
  next hi => exact .ignored (.inl h) hi

theorem cycleKind_acceptStop {s : State} (h : Accepts s 2#2) : CycleKind s (acceptStop s.params s.regs) := by
  unfold acceptStop
  split
  next ha => exact .stop h ha
  next hi => exact .ignored (.inr h) hi

/-- Every step without reset is one of these cycles. -/
theorem cycleKind_of_step {s t : State} (h : step s = .next t) (hr : s.pins.rst = false) : CycleKind s t.regs := by
  obtain ⟨hf, rfl⟩ := step_next s t h
  change CycleKind s (nextRegs s)
  rcases nextRegs_cases s hr with ⟨ha, e⟩ | ⟨ha, e⟩ | ⟨ha, e⟩ | ⟨ha, e⟩ | ⟨ht, hst, e⟩ | ⟨hw, hc, hn, e⟩ |
    ⟨hs, hy, e⟩ | ⟨hs, hy, e⟩ | ⟨hw, hs, e⟩ <;> rw [e]
  · exact .start ha
  · exact cycleKind_acceptUpdate ha
  · exact cycleKind_acceptStop ha
  · exact .rsvd ha
  · exact .tick ht hst
  · exact .quiet hw hc hn
  · exact .taken ⟨hr, hs, hy⟩
  · exact .stalled hs hy
  · exact .gap ((phase_cases s hf hr).resolve_left hw |>.resolve_left hs)

/-! ## The invariants R41 (a) to (g) -/

theorem inv_reset (p : Params) : Inv p Regs.reset := by
  constructor <;> simp [Regs.reset]

/-- In ACTIVE the timer stays in 1..PERIOD_CYCLES (R28, R191). -/
theorem timerNext_bounds {p : Params} {r : Regs} (ha : r.st = .active) (h1 : 1 ≤ r.timer) (hp : r.timer ≤ p.period) :
    1 ≤ timerNext p r ∧ timerNext p r ≤ p.period := by
  have hw := period_lt p
  by_cases ht : r.timer = 1
  · simp [timerNext, ha, ht, Params.period]
  · simp only [timerNext, ha, ht, if_false, decrement_of_pos p.timerW r.timer h1 (by omega)]
    omega

/-- A tick is pending only in ACTIVE, the tick of the same cycle included (R30). -/
theorem Inv.active_of_pendOf {p : Params} {r : Regs} (h : Inv p r) (hp : pendOf r = true) : r.st = .active := by
  rcases (pendOf_iff r).mp hp with hk | ⟨ha, _⟩
  · exact h.pending hk
  · exact ha

/-- Counting keeps the invariants. -/
theorem Inv.countCycle {p : Params} {r : Regs} (h : Inv p r) : Inv p (countCycle p r) where
  phase := h.phase
  index := h.index
  pending := h.active_of_pendOf
  timer ha := timerNext_bounds ha (h.timer ha).1 (h.timer ha).2
  gap := h.gap
  stopBurst := h.stopBurst
  activeBurst := h.activeBurst

/-- No invariant speaks of the flags. -/
theorem Inv.withFlags {p : Params} {r : Regs} (h : Inv p r) (f : BitVec 5) : Inv p { r with flags := f } :=
  ⟨h.phase, h.index, h.pending, h.timer, h.gap, h.stopBurst, h.activeBurst⟩

/-- No invariant speaks of the stored command between bursts. -/
theorem Inv.withCommand {p : Params} {r : Regs} (h : Inv p r) (hw : r.seq = seqWait) (speed angle : Centi) :
    Inv p { r with cmdSpeed := speed, cmdAngle := angle } :=
  ⟨h.phase, h.index, h.pending, h.timer, h.gap, h.stopBurst, fun _ hb => absurd hw hb⟩

/-- What a burst begin must find for the invariants to hold after it: no pending tick, the timer in its range, and the
command of the burst the zero command in IDLE and the stored one in ACTIVE. -/
theorem inv_burstBegin {p : Params} {speed angle : Centi} {r : Regs} (hp : r.tickPend = false)
    (ht : r.st = .active → 1 ≤ r.timer ∧ r.timer ≤ p.period) (hi : r.st = .idle → speed = 0 ∧ angle = 0)
    (ha : r.st = .active → speed = r.cmdSpeed ∧ angle = r.cmdAngle) : Inv p (burstBegin p speed angle r) where
  phase := .inr (.inl rfl)
  index := Nat.zero_le 4
  pending h := absurd h (by simp [hp])
  timer := ht
  gap h := absurd h seqSend_ne_gap
  stopBurst h _ := hi h
  activeBurst h _ := ha h

theorem inv_acceptStart (p : Params) (speed angle : Centi) (r : Regs) : Inv p (acceptStart p speed angle r) :=
  inv_burstBegin rfl (fun _ => ⟨Nat.succ_pos _, le_rfl⟩) nofun (fun _ => ⟨rfl, rfl⟩)

theorem Inv.serviceTick {p : Params} {r : Regs} (h : Inv p r) (ha : r.st = .active) : Inv p (serviceTick p r) :=
  inv_burstBegin rfl (fun _ => timerNext_bounds ha (h.timer ha).1 (h.timer ha).2)
    (fun hi => by simp [ha] at hi) (fun _ => ⟨rfl, rfl⟩)

/-- In a burst, the move to the next frame or to the burst's end keeps the invariants: `BURST_IDX` grows only from below
4. -/
theorem Inv.nextFrame {p : Params} {r : Regs} (h : Inv p r) (hb : r.seq ≠ seqWait) : Inv p (nextFrame r) := by
  rcases nextFrame_cases r with ⟨_, e⟩ | ⟨hne, e⟩ <;> rw [e]
  · exact ⟨.inl rfl, h.index, h.pending, h.timer, fun hg => absurd hg seqWait_ne_gap, fun _ hn => absurd rfl hn,
      fun _ hn => absurd rfl hn⟩
  · have hidx : ∀ i : BitVec 3, i.toNat ≤ 4 → i ≠ 4#3 → (i + 1#3).toNat ≤ 4 := by decide
    exact ⟨.inr (.inl rfl), hidx _ h.index hne, h.pending, h.timer, fun hg => absurd hg seqSend_ne_gap,
      fun hi _ => h.stopBurst hi hb, fun ha _ => h.activeBurst ha hb⟩

theorem Inv.frameTaken {p : Params} {r : Regs} (h : Inv p r) (hb : r.seq ≠ seqWait) (err : Bool) :
    Inv p (frameTaken p err r) := by
  rcases frameTaken_cases p err r with ⟨hg, e⟩ | ⟨_, e⟩ <;> rw [e]
  · exact ⟨.inr (.inr rfl), h.index, h.pending, h.timer, fun _ => ⟨hg, le_rfl⟩, fun hi _ => h.stopBurst hi hb,
      fun ha _ => h.activeBurst ha hb⟩
  · exact (h.withFlags _).nextFrame hb

theorem Inv.gapStep {p : Params} {r : Regs} (h : Inv p r) (hs : r.seq = seqGap) : Inv p (gapStep p r) := by
  rcases gapStep_cases p r with ⟨_, e⟩ | ⟨hne, e⟩ <;> rw [e]
  · exact h.nextFrame (by simp [hs])
  · obtain ⟨h1, hle⟩ := h.gap hs
    have hw := gapCycles_lt p
    have hd := decrement_of_pos p.gapW r.gapCnt h1 (by omega)
    exact ⟨h.phase, h.index, h.pending, h.timer, fun _ => by simp only [hd]; omega, h.stopBurst, h.activeBurst⟩

/-- Every cycle without reset keeps the invariants. -/
theorem CycleKind.inv {s : State} {r : Regs} (hk : CycleKind s r) (h : Inv s.params s.regs) : Inv s.params r := by
  cases hk with
  | start _ => exact inv_acceptStart ..
  | update ha _ => exact h.countCycle.withCommand ha.wait _ _
  | stop _ _ => exact inv_burstBegin rfl nofun (fun _ => ⟨rfl, rfl⟩) nofun
  | ignored _ _ => exact h.countCycle.withFlags _
  | rsvd _ => exact h.countCycle.withFlags _
  | tick _ hst => exact h.serviceTick hst
  | quiet _ _ _ => exact h.countCycle
  | taken ht => exact h.countCycle.frameTaken (by simp [ht.send]) _
  | stalled _ _ => exact h.countCycle
  | gap hs => exact h.countCycle.gapStep hs

/-- A step of a good state leads to a good state, reset or not. -/
theorem step_good {s t : State} (h : step s = .next t) (hg : s.Good) : t.Good := by
  obtain ⟨hp, hregs, _⟩ := step_parts s t h
  unfold State.Good
  rw [hp]
  cases hr : s.pins.rst with
  | true =>
    have e : t.regs = Regs.reset := by simp [hregs, nextRegs, hr]
    exact e ▸ inv_reset s.params
  | false => exact (cycleKind_of_step h hr).inv hg

/-! ## The causes of the flags -/

/-- The speed field overflows from 655355 hundredths on, for both tie rules: 65535.5 is a tie at an odd quotient. -/
theorem spdf_overflow_iff (tie : RoundTie) (speed : Centi) :
    65535 < spdf tie speed ↔ 655355 ≤ speed.toInt.natAbs := by
  have hs : spdf tie speed = tenths tie speed.toInt.natAbs := by
    rw [spdf, rdiv10_of_nonneg tie _ (Int.natCast_nonneg _), Int.natAbs_natCast]
  have htie : tenths tie 655355 = 65536 := by cases tie <;> rfl
  rw [hs]
  generalize speed.toInt.natAbs = k
  have hc := tenths_cases tie k
  rcases eq_or_ne k 655355 with rfl | hk <;> omega

/-- What sets a flag in the cycle that takes `s` to a state with the registers `r` (R27, R206, R220). -/
def FlagCause (s : State) (r : Regs) : FlagBit → Prop
  | .txErr => TakesFrame s ∧ s.pins.txErr = true
  | .illCmd => Accepts s 3#2
  | .cmdIgn => s.regs.st = .idle ∧ (Accepts s 1#2 ∨ Accepts s 2#2)
  | .spdOvf => s.regs.seq = seqWait ∧ r.seq = seqSend ∧ 655355 ≤ r.bcmdSpeed.toInt.natAbs
  | .strOvf => s.regs.seq = seqWait ∧ r.seq = seqSend ∧
      (strf s.params.roundTie r.bcmdAngle < 0 ∨ 65535 < strf s.params.roundTie r.bcmdAngle)

/-- A cycle that begins a burst, and in which no command is reserved or ignored, sets the overflow flags of the burst
command alone. -/
theorem flagSet_burstBegin_iff {s : State} {speed angle : Centi} {r : Regs} (hw : s.regs.seq = seqWait)
    (hf : r.flags = s.regs.flags) (hill : ¬Accepts s 3#2)
    (hign : ¬(s.regs.st = .idle ∧ (Accepts s 1#2 ∨ Accepts s 2#2))) (b : FlagBit) :
    flagSet (burstBegin s.params speed angle r).flags b = true ↔
      flagSet s.regs.flags b = true ∨ FlagCause s (burstBegin s.params speed angle r) b := by
  have hb := burstFlags_overflowFlags s.params.roundTie speed angle r.flags b
  rw [burstBegin_flags, hb, hf]
  cases b <;> simp [FlagCause, hw, hill, hign, not_takesFrame_of_wait hw, spdf_overflow_iff]

/-- In a WAIT cycle that begins no burst, only a reserved and an ignored command are causes of a flag. -/
theorem flagSet_iff_of_waiting {s : State} {r : Regs} {b : FlagBit} (hw : s.regs.seq = seqWait)
    (hs : r.seq = s.regs.seq)
    (h : flagSet r.flags b = true ↔ flagSet s.regs.flags b = true ∨ (b = .illCmd ∧ Accepts s 3#2) ∨
      (b = .cmdIgn ∧ s.regs.st = .idle ∧ (Accepts s 1#2 ∨ Accepts s 2#2))) :
    flagSet r.flags b = true ↔ flagSet s.regs.flags b = true ∨ FlagCause s r b := by
  rw [h]
  cases b <;> simp [FlagCause, hs, hw, not_takesFrame_of_wait hw]

/-- In a burst, only a frame that is taken sets a flag. -/
theorem flagCause_busy {s : State} {r : Regs} (hb : s.regs.seq ≠ seqWait) (b : FlagBit) :
    FlagCause s r b ↔ b = .txErr ∧ TakesFrame s ∧ s.pins.txErr = true := by
  cases b <;> simp [FlagCause, hb, not_accepts_of_busy hb]

/-- After a cycle without reset a flag is set exactly if it was, or its cause occurred. -/
theorem CycleKind.flagSet_iff {s : State} {r : Regs} (hk : CycleKind s r) (b : FlagBit) :
    flagSet r.flags b = true ↔ flagSet s.regs.flags b = true ∨ FlagCause s r b := by
  cases hk with
  | start h => exact flagSet_burstBegin_iff h.wait rfl (by simp [h.iff_eq]) (by simp [h.iff_eq]) b
  | update h hst => exact flagSet_iff_of_waiting h.wait rfl (by simp [h.iff_eq, hst])
  | stop h hst => exact flagSet_burstBegin_iff h.wait rfl (by simp [h.iff_eq]) (by simp [hst]) b
  | ignored h hst =>
    have hw : s.regs.seq = seqWait := h.elim Accepts.wait Accepts.wait
    have hill : ¬Accepts s 3#2 := by
      rcases h with h | h <;> simp [h.iff_eq]
    exact flagSet_iff_of_waiting hw rfl (by simp [raises_raiseFlag .cmdIgn _ b, hill, h, hst])
  | rsvd h =>
    exact flagSet_iff_of_waiting h.wait rfl (by simp [acceptRsvd, raises_raiseFlag .illCmd _ b, h, h.iff_eq])
  | tick h hst =>
    have hn := not_accepts_of_noCommand h.noCommand
    exact flagSet_burstBegin_iff h.wait rfl (hn _) (by simp [hst]) b
  | quiet hw hc _ => exact flagSet_iff_of_waiting hw rfl (by simp [not_accepts_of_noCommand hc])
  | taken h =>
    obtain ⟨_, _, _, _, _, _, _, hf⟩ := frameTaken_frame s.params s.pins.txErr (countCycle s.params s.regs)
    have hb : s.regs.seq ≠ seqWait := by simp [h.send]
    rw [hf, flagSet_raiseFlagIf, flagCause_busy hb]
    simp [h, and_comm, eq_comm (a := b)]
  | stalled hs hy => simp [flagCause_busy (s := s) (by simp [hs]), TakesFrame, hy]
  | gap hs =>
    obtain ⟨_, _, _, _, _, _, _, hf⟩ := gapStep_frame s.params (countCycle s.params s.regs)
    simp [hf, flagCause_busy (s := s) (by simp [hs]), TakesFrame, hs]

/-- Settles O44: the five flags, each with its own cause. -/
theorem flagsHaveTheirCauses : Obligations.FlagsHaveTheirCauses := by
  intro s t h hr
  have hf := (cycleKind_of_step h hr).flagSet_iff
  exact ⟨hf .txErr, hf .illCmd, hf .cmdIgn, hf .spdOvf, hf .strOvf⟩

/-- Settles O41: `step_good` for (a) to (g); (h) is one direction of what a flag is after a cycle. -/
theorem stepKeepsTheInvariants : Obligations.StepKeepsTheInvariants :=
  ⟨inv_reset, fun _ _ hg h =>
    ⟨step_good h hg, fun hr b hb => ((cycleKind_of_step h hr).flagSet_iff b).mpr (.inl hb)⟩⟩

/-- Settles O42: the reset values under the free parameters. -/
theorem resetStateIsGood : Obligations.ResetStateIsGood := inv_reset Config.params

/-! ## What writes the command registers -/

/-- A serviced tick finds the machine in ACTIVE. -/
theorem Inv.active_of_servicesTick {s : State} (h : Inv s.params s.regs) (ht : ServicesTick s) :
    s.regs.st = .active := h.active_of_pendOf ((pendOf_iff _).mpr ht.pending)

/-- `ST` changes only by an accepted START or STOP. -/
theorem CycleKind.st_cases {s : State} {r : Regs} (hk : CycleKind s r) :
    r.st = s.regs.st ∨ (Accepts s 0#2 ∧ r.st = .active) ∨ (Accepts s 2#2 ∧ r.st = .idle) := by
  cases hk with
  | start h => exact .inr (.inl ⟨h, rfl⟩)
  | stop h _ => exact .inr (.inr ⟨h, rfl⟩)
  | taken _ =>
    obtain ⟨hst, _⟩ := frameTaken_frame s.params s.pins.txErr (countCycle s.params s.regs)
    exact .inl hst
  | gap _ =>
    obtain ⟨hst, _⟩ := gapStep_frame s.params (countCycle s.params s.regs)
    exact .inl hst
  | _ => exact .inl rfl

/-- The stored command is written only by START, and by UPDATE in ACTIVE. -/
theorem CycleKind.cmd_cases {s : State} {r : Regs} (hk : CycleKind s r) :
    Accepts s 0#2 ∨ (Accepts s 1#2 ∧ s.regs.st = .active) ∨
      (r.cmdSpeed = s.regs.cmdSpeed ∧ r.cmdAngle = s.regs.cmdAngle) := by
  cases hk with
  | start h => exact .inl h
  | update h hst => exact .inr (.inl ⟨h, hst⟩)
  | taken _ =>
    obtain ⟨_, hs, ha, _⟩ := frameTaken_frame s.params s.pins.txErr (countCycle s.params s.regs)
    exact .inr (.inr ⟨hs, ha⟩)
  | gap _ =>
    obtain ⟨_, hs, ha, _⟩ := gapStep_frame s.params (countCycle s.params s.regs)
    exact .inr (.inr ⟨hs, ha⟩)
  | _ => exact .inr (.inr ⟨rfl, rfl⟩)

/-- The burst command is written only by a burst begin. -/
theorem CycleKind.bcmd_cases {s : State} {r : Regs} (hk : CycleKind s r) :
    (s.regs.seq = seqWait ∧ r.seq = seqSend) ∨
      (r.bcmdSpeed = s.regs.bcmdSpeed ∧ r.bcmdAngle = s.regs.bcmdAngle) := by
  cases hk with
  | start h => exact .inl ⟨h.wait, rfl⟩
  | stop h _ => exact .inl ⟨h.wait, rfl⟩
  | tick h _ => exact .inl ⟨h.wait, rfl⟩
  | taken _ =>
    obtain ⟨_, _, _, _, _, hs, ha, _⟩ := frameTaken_frame s.params s.pins.txErr (countCycle s.params s.regs)
    exact .inr ⟨hs, ha⟩
  | gap _ =>
    obtain ⟨_, _, _, _, _, hs, ha, _⟩ := gapStep_frame s.params (countCycle s.params s.regs)
    exact .inr ⟨hs, ha⟩
  | _ => exact .inr ⟨rfl, rfl⟩

/-- From WAIT, a burst begins by an accepted START, a STOP in ACTIVE, or a serviced tick, and by nothing else (R197). -/
theorem CycleKind.begins_iff {s : State} {r : Regs} (hk : CycleKind s r) (h : Inv s.params s.regs)
    (hw : s.regs.seq = seqWait) :
    r.seq = seqSend ↔ Accepts s 0#2 ∨ (Accepts s 2#2 ∧ s.regs.st = .active) ∨ ServicesTick s := by
  cases hk with
  | start ha => exact iff_of_true rfl (.inl ha)
  | stop ha hst => exact iff_of_true rfl (.inr (.inl ⟨ha, hst⟩))
  | tick ht _ => exact iff_of_true rfl (.inr (.inr ht))
  | update ha _ => simp [hw, ha.iff_eq, ha.not_servicesTick]
  | ignored ha hst =>
    have ⟨h0, ht⟩ : ¬Accepts s 0#2 ∧ ¬ServicesTick s := by
      rcases ha with ha | ha <;> exact ⟨by simp [ha.iff_eq], ha.not_servicesTick⟩
    simp [hw, hst, h0, ht]
  | rsvd ha => simp [acceptRsvd, hw, ha.iff_eq, ha.not_servicesTick]
  | quiet _ hc hn =>
    have ht : ¬ServicesTick s := fun ht => hn ⟨h.active_of_servicesTick ht, ht.pending⟩
    simp [hw, not_accepts_of_noCommand hc, ht]
  | taken ht => exact absurd ht (not_takesFrame_of_wait hw)
  | stalled hs _ => simp [hw] at hs
  | gap hs => simp [hw] at hs

/-- Settles O45, clause by clause, by the kind of the cycle. -/
theorem whatWritesTheCommandRegisters : Obligations.WhatWritesTheCommandRegisters := by
  intro s t hg h hr
  have hk := cycleKind_of_step h hr
  exact ⟨hk.st_cases.resolve_left, fun h0 h1 => (hk.cmd_cases.resolve_left h0).resolve_left h1, hk.begins_iff hg,
    hk.bcmd_cases.resolve_left⟩

/-! ## Reset -/

/-- A reset edge is past every code point the spec refuses (R250, U18). -/
theorem startStateFault_of_rst {s : State} (h : s.pins.rst = true) : startStateFault s = none := by
  simp [startStateFault, h]

theorem nextRegs_of_rst {s : State} (h : s.pins.rst = true) : nextRegs s = Regs.reset := by
  simp [nextRegs, h]

theorem takenFrame_of_rst {s : State} (h : s.pins.rst = true) : takenFrame s = none := by
  simp [takenFrame, h]

/-- Settles O37: in a reset cycle the next registers are the reset values and no frame is taken. -/
theorem resetFromEveryState : Obligations.ResetFromEveryState := by
  refine ⟨fun _ => rfl, fun s hr => ⟨_, step_eq s (startStateFault_of_rst hr), ?_⟩⟩
  have hregs : (endCycle (afterCycle s)).regs = Regs.reset := nextRegs_of_rst hr
  have hlog : (endCycle (afterCycle s)).log = s.log := by simp [afterCycle, takenFrame_of_rst hr]
  rw [stActive, busy, txValid, hregs, hlog]
  exact ⟨rfl, rfl, rfl, rfl, rfl, rfl, rfl, rfl, rfl, rfl, rfl, rfl, rfl, rfl, rfl, rfl, rfl, fun hv => if_pos hv⟩

/-! ## Independence of decoder and scheduler -/

/-- The decoder reads no more of a payload than its length and its data (R101). -/
theorem decodeFrame_congr (table : List SRow) (id : CanId) {f g : RxPayload} (hl : f.len = g.len)
    (hd : f.data = g.data) : decodeFrame table id f = decodeFrame table id g := by
  simp only [decodeFrame, decodeSlot, hl, hd]

theorem decOut_congr {p q : Pins} (hv : p.rxValid = q.rxValid) (hid : p.rxId = q.rxId) (hl : p.rx.len = q.rx.len)
    (hd : p.rx.data = q.rx.data) : decOut p = decOut q := by
  simp only [decOut, hv, hid, decodeFrame_congr _ _ hl hd]

section
variable {s s' : State} {v : Bool} {id : CanId} {f : RxPayload} (hregs : s'.regs = s.regs)
  (hparams : s'.params = s.params) (hpins : s'.pins = { s.pins with rxValid := v, rxId := id, rx := f })
include hregs hpins

theorem tickWord_rx_irrelevant : tickWord s' = tickWord s := by
  simp only [tickWord, tickDue, hregs, hpins]

include hparams

theorem nextRegs_rx_irrelevant : nextRegs s' = nextRegs s := by
  simp only [nextRegs, tickWord_rx_irrelevant hregs hpins, hregs, hparams, hpins]

theorem takenFrame_rx_irrelevant : takenFrame s' = takenFrame s := by
  simp only [takenFrame, hregs, hparams, hpins]

end

/-- The encoder reads the registers and the parameters alone (R150). -/
theorem encOut_congr {s s' : State} (hregs : s'.regs = s.regs) (hparams : s'.params = s.params) :
    encOut s' = encOut s := by
  simp only [encOut, hregs, hparams]

theorem txOut_congr {s s' : State} (hregs : s'.regs = s.regs) (hparams : s'.params = s.params) :
    txOut s' = txOut s := by
  simp only [txOut, hregs, hparams]

/-- Settles O48: each part of the state after a step is a function of what it may depend on. -/
theorem decoderAndSchedulerAreIndependent : Obligations.DecoderAndSchedulerAreIndependent := by
  constructor
  · intro s s' t t' v id f hregs hparams hlog hpins h h'
    obtain ⟨_, er, _, _, _, _, ee, et, el⟩ := step_parts s t h
    obtain ⟨_, er', _, _, _, _, ee', et', el'⟩ := step_parts s' t' h'
    rw [er, er', et, et', ee, ee', el, el', hlog, nextRegs_rx_irrelevant hregs hparams hpins, txOut_congr hregs hparams,
      encOut_congr hregs hparams, takenFrame_rx_irrelevant hregs hparams hpins]
    exact ⟨rfl, rfl, rfl, rfl⟩
  · intro s s' t t' hv hid hl hd h h'
    obtain ⟨_, _, _, _, _, ed, _⟩ := step_parts s t h
    obtain ⟨_, _, _, _, _, ed', _⟩ := step_parts s' t' h'
    rw [ed, ed', decOut_congr hv hid hl hd]

end Sys2Proof.Machine
end

