-- ==== Sys2Proof/Proofs/Memory.lean ====
section
/-! PROOFS. The payload statements (`20_memory.md`): MemRead and MemWrite are little-endian (R52 to R54), and a frame
that the transport does not take stays at the outbound port (R73). -/

namespace Sys2Proof.Machine

/-! ## Payload bytes as numbers -/

/-- Byte i of a bus, as eight bits of the bus as a number (R12). -/
theorem toNat_byteAt (d : Bus) (i : Nat) : (byteAt d i).toNat = d.toNat / 2 ^ (8 * i) % 256 := by
  rw [byteAt, BitVec.extractLsb'_toNat, Nat.shiftRight_eq_div_pow]

/-- A read of any number of bytes is their sum, byte k with weight `256 ^ k` (R52). -/
theorem memRead_eq_sum (d : Bus) (lo n : Nat) :
    memRead d lo n = ((List.range n).map fun k => (byteAt d (lo + k)).toNat * 256 ^ k).sum := by
  induction n generalizing lo with
  | zero => rfl
  | succ n ih =>
    have hweight : ∀ k, (byteAt d (lo + (k + 1))).toNat * 256 ^ (k + 1) =
        256 * ((byteAt d (lo + 1 + k)).toNat * 256 ^ k) := fun k => by
      rw [Nat.pow_succ, Nat.add_assoc lo 1 k, Nat.add_comm 1 k]
      ring
    simp only [memRead, ih, List.range_succ_eq_map, List.map_cons, List.map_map, Function.comp_def, List.sum_cons,
      Nat.succ_eq_add_one, hweight, List.sum_map_mul_left, Nat.add_zero, Nat.pow_zero, Nat.mul_one]

/-- A read of n bytes from lo is 8n bits of the bus from bit `8 * lo` (R12, R52). -/
theorem memRead_eq_slice (d : Bus) (lo n : Nat) : memRead d lo n = d.toNat / 2 ^ (8 * lo) % 2 ^ (8 * n) := by
  induction n generalizing lo with
  | zero => simp [memRead, Nat.mod_one]
  | succ n ih =>
    calc memRead d lo (n + 1)
        = d.toNat / 2 ^ (8 * lo) % 256 + 256 * (d.toNat / 2 ^ (8 * (lo + 1)) % 2 ^ (8 * n)) := by
          rw [memRead, ih, toNat_byteAt]
      _ = d.toNat / 2 ^ (8 * lo) % 256 + 256 * (d.toNat / 2 ^ (8 * lo) / 256 % 2 ^ (8 * n)) := by
          rw [Nat.div_div_eq_div_mul, Nat.mul_succ, Nat.pow_add 2 _ 8]
      _ = d.toNat / 2 ^ (8 * lo) % (256 * 2 ^ (8 * n)) := Nat.mod_mul.symm
      _ = d.toNat / 2 ^ (8 * lo) % 2 ^ (8 * (n + 1)) := by
          rw [Nat.mul_succ, Nat.pow_add, Nat.mul_comm 256]

/-- Settles O1: the sum and the slice hold for every number of bytes, so for 1 to 3 of them. -/
theorem memReadIsLittleEndian : Obligations.MemReadIsLittleEndian := fun d lo n _ _ _ =>
  ⟨memRead_eq_sum d lo n, memRead_eq_slice d lo n, memRead_one d lo⟩

/-- A byte inside the range written is the byte of the value at its distance from the start (R54). -/
theorem toNat_byteAt_memWrite_inside (d : Bus) (i n k : Nat) (v : BitVec 16) (hk : k < n) (h : i + k < 8) :
    (byteAt (memWrite d i n v) (i + k)).toNat = v.toNat / 2 ^ (8 * k) % 256 := by
  rw [byteAt_memWrite d i n v _ h, if_pos (by omega), BitVec.extractLsb'_toNat, Nat.shiftRight_eq_div_pow,
    Nat.add_sub_cancel_left]

/-- A byte outside the range written is as before (R54). -/
theorem byteAt_memWrite_outside (d : Bus) (i n j : Nat) (v : BitVec 16) (hj : j < 8) (h : j < i ∨ i + n ≤ j) :
    byteAt (memWrite d i n v) j = byteAt d j := by
  rw [byteAt_memWrite d i n v j hj, if_neg (by omega)]

/-- Settles O2, byte by byte: the low byte, the high byte of a two-byte write, and the bytes outside. -/
theorem memWriteIsLittleEndian : Obligations.MemWriteIsLittleEndian := by
  intro d lo v
  have hv : v.toNat < 65536 := v.isLt
  refine ⟨fun _ j hj => ?_, fun _ j hj => ?_⟩
  · by_cases hlow : j = lo
    · subst hlow
      simpa using toNat_byteAt_memWrite_inside d j 1 0 v (by omega) hj
    · rw [if_neg hlow, byteAt_memWrite_outside d lo 1 j v hj (by omega)]
  · by_cases hlow : j = lo
    · subst hlow
      simpa using toNat_byteAt_memWrite_inside d j 2 0 v (by omega) hj
    by_cases hhigh : j = lo + 1
    · subst hhigh
      rw [if_neg hlow, if_pos rfl, toNat_byteAt_memWrite_inside d lo 2 1 v (by omega) hj]
      omega
    · rw [if_neg hlow, if_neg hhigh, byteAt_memWrite_outside d lo 2 j v hj (by omega)]

/-! ## The outbound port while the transport does not take the frame -/

/-- In SEND the port offers one of the five frames (R199). -/
theorem txOut_of_send {s : State} (h : startStateFault s = none) (hr : s.pins.rst = false) (hs : s.regs.seq = seqSend) :
    ∃ fr, txOut s = some fr := by
  rw [txOut, if_pos hs]
  exact frameAt_some _ _ _ _ (index_ok s h hr (by simp [hs]))

/-- While the frame is not taken only the trigger counts (R199). -/
theorem nextRegs_of_stalled {s : State} (hr : s.pins.rst = false) (hs : s.regs.seq = seqSend)
    (hy : s.pins.txReady = false) : nextRegs s = countCycle s.params s.regs := by
  simp [nextRegs, hr, hs, hy]

theorem takenFrame_of_notReady {s : State} (hy : s.pins.txReady = false) : takenFrame s = none := by
  simp [takenFrame, hy]

/-- The port does not read the trigger: after a cycle that only counts it shows what it showed. -/
theorem txOut_of_countCycle {s t : State} (hparams : t.params = s.params)
    (hregs : t.regs = countCycle s.params s.regs) : txOut t = txOut s := by
  simp only [txOut, hparams, hregs, countCycle_seq, countCycle_bcmdSpeed, countCycle_bcmdAngle, countCycle_burstIdx]

/-- Settles O49: the first step leaves the position of the burst and its command, of which the port is a function. -/
theorem offeredFrameIsStable : Obligations.OfferedFrameIsStable := by
  intro s t u hst htu hr hs hy
  obtain ⟨hf, _⟩ := step_next s t hst
  obtain ⟨hparams, hregs, _, _, _, _, _, htx, hlog⟩ := step_parts s t hst
  obtain ⟨_, _, _, _, _, _, _, hux, _⟩ := step_parts t u htu
  obtain ⟨fr, hfr⟩ := txOut_of_send hf hr hs
  have hsame : txOut t = txOut s := txOut_of_countCycle hparams (hregs.trans (nextRegs_of_stalled hr hs hy))
  refine ⟨⟨fr, htx.trans hfr, hux.trans (hsame.trans hfr)⟩, ?_⟩
  rw [hlog, takenFrame_of_notReady hy, Option.toList_none, List.append_nil]

end Sys2Proof.Machine
end

