-- ==== Sys2Proof/Proofs/Encoding.lean ====
section
/-! PROOFS. The encoding statements (`30_encoding.md`): the round trip between select words and operations (R83, R84,
R96 to R99), the empty result of an unknown identifier (R100), and the values of numeric rows (R93, R94). -/

namespace Sys2Proof

open Machine
open Laws.SelectorMatches (cwOp_packCw)

/-! ## Command words -/

theorem cwSpeed_packCw (op : BitVec 2) (speed angle : Centi) : cwSpeed (packCw op speed angle) = speed := by
  apply BitVec.eq_of_getLsbD_eq
  intro i hi
  rw [cwSpeed, packCw, BitVec.getLsbD_extractLsb', BitVec.getLsbD_append, if_neg (by omega), BitVec.getLsbD_append,
    if_pos (by omega), Nat.add_sub_cancel_left]
  simp [hi]

theorem cwAngle_packCw (op : BitVec 2) (speed angle : Centi) : cwAngle (packCw op speed angle) = angle := by
  apply BitVec.eq_of_getLsbD_eq
  intro i hi
  rw [cwAngle, packCw, BitVec.getLsbD_extractLsb', Nat.zero_add, BitVec.getLsbD_append, if_pos hi]
  simp [hi]

theorem packCw_surj (w : BitVec 66) : packCw (cwOp w) (cwSpeed w) (cwAngle w) = w := by
  have hupper : cwOp w ++ cwSpeed w = w.extractLsb' 32 34 :=
    BitVec.extractLsb'_append_extractLsb'_eq_extractLsb' (by rfl)
  have hall : w.extractLsb' 32 34 ++ cwAngle w = w.extractLsb' 0 66 :=
    BitVec.extractLsb'_append_extractLsb'_eq_extractLsb' (by rfl)
  rw [packCw, hupper, hall, BitVec.extractLsb'_eq_self]

theorem packCw_of_cwOp {w : BitVec 66} {op : BitVec 2} (h : cwOp w = op) : packCw op (cwSpeed w) (cwAngle w) = w :=
  h ▸ packCw_surj w

/-- The operation of a command word, from the word's fields (R98). -/
theorem selectCommand_packCw (op : BitVec 2) (speed angle : Centi) :
    selectCommand (packCw op speed angle) =
      if op = 0#2 then .start speed angle
      else if op = 1#2 then .update speed angle
      else if op = 2#2 then .stop speed angle
      else .rsvd speed angle := by
  rw [selectCommand, cwOp_packCw, cwSpeed_packCw, cwAngle_packCw]

theorem wf_selectCommand (w : BitVec 66) : (selectCommand w).wf = true := by
  unfold selectCommand
  split_ifs <;> rfl

/-- Where no earlier `cmd_op` is met, the word is RSVD's (R102). -/
theorem eq_three_of_ne (op : BitVec 2) (h0 : op ≠ 0#2) (h1 : op ≠ 1#2) (h2 : op ≠ 2#2) : op = 3#2 := by
  bv_omega

theorem encode_selectCommand (w : BitVec 66) : encode (selectCommand w) = .cw w := by
  unfold selectCommand
  split_ifs with h0 h1 h2
  · exact congrArg OpWord.cw (packCw_of_cwOp h0)
  · exact congrArg OpWord.cw (packCw_of_cwOp h1)
  · exact congrArg OpWord.cw (packCw_of_cwOp h2)
  · exact congrArg OpWord.cw (packCw_of_cwOp (eq_three_of_ne _ h0 h1 h2))

/-! ## Inbound words -/

theorem not_known_iff (id : CanId) : knownIds.contains id = false ↔ id ∉ knownIds := by simp

/-- An identifier outside the table selects DEC.UNKNOWN alone (R96, R100). -/
theorem selectRx_unknown (id : CanId) (f : RxPayload) (h : id ∉ knownIds) : selectRx id f = [.decUnknown id f] := by
  simp only [knownIds, List.mem_cons, not_or] at h
  obtain ⟨h1, h2, h3, h4, h5, h6, h7, h8, _⟩ := h
  simp only [selectRx, h1, h2, h3, h4, h5, h6, h7, h8, if_false]

/-- The operations selected are well formed: DEC.UNKNOWN is selected only outside the table (R96). -/
theorem all_wf_selectRx (id : CanId) (f : RxPayload) : (selectRx id f).all Instr.wf = true := by
  by_cases hk : id ∈ knownIds
  · simp only [knownIds, List.mem_cons, List.not_mem_nil, or_false] at hk
    rcases hk with rfl | rfl | rfl | rfl | rfl | rfl | rfl | rfl <;> rfl
  · simp [selectRx_unknown id f hk, Instr.wf, hk]

/-- The operations of a frame encode to its inbound word, numbered by slot: the words a cycle fetches (R88, R96). -/
theorem map_encode_selectRx (id : CanId) (f : RxPayload) :
    (selectRx id f).map encode =
      (List.range (selectRx id f).length).map fun k => .rxf (BitVec.ofNat 2 k) (packRxf id f) := by
  unfold selectRx
  split_ifs with h1 h2 h3 h4 h5 h6 h7 h8 <;> subst_vars <;> rfl

/-- The operation in a slot encodes to the inbound word seen by that slot. -/
theorem encode_of_selectRx_slot {id : CanId} {f : RxPayload} {slot : BitVec 2} {i : Instr}
    (h : (selectRx id f)[slot.toNat]? = some i) : encode i = .rxf slot (packRxf id f) := by
  obtain ⟨hlt, rfl⟩ := List.getElem?_eq_some_iff.mp h
  have hw := congrArg (·[slot.toNat]?) (map_encode_selectRx id f)
  simpa [hlt] using hw

theorem decode_rxf_eq_ok_iff (slot : BitVec 2) (w : BitVec 98) (i : Instr) :
    decode (.rxf slot w) = .ok i ↔ (selectRx (rxfId w) (rxfPayload w))[slot.toNat]? = some i := by
  cases hs : (selectRx (rxfId w) (rxfPayload w))[slot.toNat]? <;> simp [decode, hs]

/-- A packed inbound word is read by its own identifier and payload (R81, R96). -/
theorem decode_packRxf {slot : BitVec 2} {id : CanId} {f : RxPayload} {i : Instr}
    (h : (selectRx id f)[slot.toNat]? = some i) : decode (.rxf slot (packRxf id f)) = .ok i := by
  rwa [decode_rxf_eq_ok_iff, rxfId_packRxf, rxfPayload_packRxf]

/-! ## The other select words -/

theorem decode_txf_eq_ok_iff (idx : BitVec 3) (i : Instr) : decode (.txf idx) = .ok i ↔ selectTx idx = some i := by
  cases hs : selectTx idx <;> simp [decode, hs]

theorem wf_encode_of_selectTx {idx : BitVec 3} {i : Instr} (h : selectTx idx = some i) :
    i.wf = true ∧ encode i = .txf idx := by
  unfold selectTx at h
  split_ifs at h with h0 h1 h2 h3 h4 <;> cases h <;> subst_vars <;> exact ⟨rfl, rfl⟩

theorem wf_encode_selectFn (k : BitVec 2) : (selectFn k).wf = true ∧ encode (selectFn k) = .fn k := by
  revert k
  decide

theorem decode_tick_eq_ok {cond : BitVec 2} {i : Instr} (h : decode (.tick cond) = .ok i) :
    cond = 3#2 ∧ i = .tick := by
  simp only [decode] at h
  split_ifs at h with hc
  exact ⟨hc, (Except.ok.inj h).symm⟩

theorem decode_seq_eq_ok {phase : BitVec 2} {i : Instr} (h : decode (.seq phase) = .ok i) :
    (phase = 1#2 ∧ i = .burstSend) ∨ (phase = 2#2 ∧ i = .burstGap) := by
  simp only [decode] at h
  split_ifs at h with hs hg
  · exact .inl ⟨hs, (Except.ok.inj h).symm⟩
  · exact .inr ⟨hg, (Except.ok.inj h).symm⟩

theorem decode_rst_eq_ok {level : BitVec 1} {i : Instr} (h : decode (.rst level) = .ok i) :
    level = 1#1 ∧ i = .reset := by
  simp only [decode] at h
  split_ifs at h with hr
  exact ⟨hr, (Except.ok.inj h).symm⟩

/-! ## The round trips -/

/-- Settles O57: a row's word is read in the row's slot, a command's by its `cmd_op`, and the words without operands
are looked up. -/
theorem decodeOfEncode : Obligations.DecodeOfEncode := by
  intro i hwf
  cases i with
  | decUnknown id f =>
    have hk : id ∉ knownIds := by simpa [Instr.wf] using hwf
    exact decode_packRxf (by rw [selectRx_unknown id f hk]; rfl)
  | start speed angle | update speed angle | stop speed angle | rsvd speed angle =>
    exact congrArg Except.ok (selectCommand_packCw _ speed angle)
  | encF501 | encF502 | encF503 | encF504 | encF506 | encGear | encInd | encSpdf | encStrf | tick | burstSend
  | burstGap | reset => rfl
  | _ f => exact decode_packRxf rfl

/-- Settles O58, form by form of the select word. -/
theorem encodeOfDecode : Obligations.EncodeOfDecode := by
  intro w i h
  cases w with
  | rxf slot word =>
    have hs := (decode_rxf_eq_ok_iff slot word i).mp h
    refine ⟨List.all_eq_true.mp (all_wf_selectRx _ _) i (List.mem_of_getElem? hs), ?_⟩
    rw [encode_of_selectRx_slot hs, packRxf_surj]
  | txf idx => exact wf_encode_of_selectTx ((decode_txf_eq_ok_iff idx i).mp h)
  | fn k =>
    obtain rfl : selectFn k = i := Except.ok.inj h
    exact wf_encode_selectFn k
  | cw word =>
    obtain rfl : selectCommand word = i := Except.ok.inj h
    exact ⟨wf_selectCommand word, encode_selectCommand word⟩
  | tick cond =>
    obtain ⟨rfl, rfl⟩ := decode_tick_eq_ok h
    exact ⟨rfl, rfl⟩
  | seq phase =>
    obtain ⟨rfl, rfl⟩ | ⟨rfl, rfl⟩ := decode_seq_eq_ok h
    · exact ⟨rfl, rfl⟩
    · exact ⟨rfl, rfl⟩
  | rst level =>
    obtain ⟨rfl, rfl⟩ := decode_rst_eq_ok h
    exact ⟨rfl, rfl⟩

/-- Settles O59: nine closed words, each evaluated. -/
theorem tableWords : Obligations.TableWords := by
  refine ⟨?_, ?_, ?_, ?_, ?_, ?_, ?_, ?_, ?_⟩ <;> decide

/-! ## Unknown identifiers -/

/-- `DECODE` of an identifier outside the table: the empty result (R100). -/
theorem decodeFrame_unknown (id : CanId) (f : RxPayload) (h : id ∉ knownIds) :
    decodeFrame signalTable id f = { DecOut.none with valid := true } := by
  have hrows := rowsOf_unknown id ((not_known_iff id).mpr h)
  simp only [decodeFrame, rowCount, decodeSlot, hrows]
  rfl

theorem slotAt_unknown (k : Nat) : slotAt { DecOut.none with valid := true } k = Slot.empty := by
  unfold slotAt
  split <;> rfl

/-- Settles O11: DEC.UNKNOWN publishes the empty result, which is what `DECODE` gives for the identifier. -/
theorem unknownIdentifierIsEmpty : Obligations.UnknownIdentifierIsEmpty := by
  intro id f s (h : id ∉ knownIds)
  exact ⟨selectRx_unknown id f h, publishUnknown s, rfl, rfl, (decodeFrame_unknown id f h).symm, rfl, rfl, rfl,
    fun k _ => slotAt_unknown k⟩

end Sys2Proof

namespace Sys2Proof.Machine

/-! ## The values of numeric rows -/

/-- The least value of `fs` in a row (R13, R93). -/
def fsLeast (r : SRow) : Int := if r.signed then -((2 ^ (r.width - 1) : Nat) : Int) else 0

/-- The greatest value of `fs` in a row (R13, R93). -/
def fsGreatest (r : SRow) : Int :=
  if r.signed then ((2 ^ (r.width - 1) : Nat) : Int) - 1 else ((2 ^ r.width : Nat) : Int) - 1

theorem signedField_eq (r : SRow) (f : Nat) :
    signedField r f = if r.signed ∧ 2 ^ (r.width - 1) ≤ f then (f : Int) - 2 ^ r.width else (f : Int) := by
  unfold signedField sextField
  cases r.signed with
  | false => simp
  | true => by_cases h : f < 2 ^ (r.width - 1) <;> simp [h]

theorem signedField_bounds (r : SRow) (f : Nat) (hw : 1 ≤ r.width) (hf : f < 2 ^ r.width) :
    fsLeast r ≤ signedField r f ∧ signedField r f ≤ fsGreatest r := by
  have hhalf : 2 ^ r.width = 2 * 2 ^ (r.width - 1) := by
    rw [← Nat.pow_succ', Nat.succ_eq_add_one, Nat.sub_add_cancel hw]
  have hcast : (2 : Int) ^ r.width = ((2 ^ r.width : Nat) : Int) := by norm_cast
  rw [signedField_eq, hcast]
  unfold fsLeast fsGreatest
  cases r.signed <;> simp only [Bool.false_eq_true, false_and, true_and, if_true, if_false] <;> omega

/-- A transform with a nonnegative factor is monotone. -/
theorem linear_mono (r : SRow) (hmul : 0 ≤ r.mul) {a b : Int} (h : a ≤ b) : linear r a ≤ linear r b :=
  Int.add_le_add_right (Int.mul_le_mul_of_nonneg_right h hmul) r.add

/-- The greatest magnitude R94 gives a value of a row, by the row's decimals. -/
def valueBound (r : SRow) : Nat := if r.dec = 0 then 16770215 else 655350

/-- The numeric rows of the table: a positive width, a nonnegative factor, and the transform of both extremes within
R94's bound. -/
theorem numRows_bounded : ∀ r ∈ signalTable, r.kind = .num →
    1 ≤ r.width ∧ 0 ≤ r.mul ∧ -(valueBound r : Int) ≤ linear r (fsLeast r) ∧
      linear r (fsGreatest r) ≤ valueBound r := by decide

theorem linear_natAbs_le (r : SRow) (hr : r ∈ signalTable) (hk : r.kind = .num) (d : Bus) :
    (linear r (signedField r (fieldOf r d))).natAbs ≤ valueBound r := by
  obtain ⟨hw, hmul, hleast, hgreatest⟩ := numRows_bounded r hr hk
  obtain ⟨hlo, hhi⟩ := signedField_bounds r (fieldOf r d) hw (fieldOf_lt r d)
  have h1 := linear_mono r hmul hlo
  have h2 := linear_mono r hmul hhi
  omega

theorem valueBound_lt (r : SRow) : valueBound r < 2 ^ 31 := by
  unfold valueBound
  split <;> decide

/-- A magnitude of at most 31 bits is carried by `val` as it is (R88). -/
theorem deliver_val_toInt (n : Int) (rec : Slot) (h : n.natAbs < 2 ^ 31) : (deliver n rec).val.toInt = n :=
  BitVec.toInt_ofInt_eq_self (by decide) (by omega) (by omega)

/-- Settles O16: the value is within its bound, so `val` carries it without wrap. -/
theorem decodedValuesNeverWrap : Obligations.DecodedValuesNeverWrap := by
  intro r hr len d hlen hk
  have hbound := linear_natAbs_le r hr hk d
  rw [decodeRow_num r len d hlen hk, deliver_val_toInt _ _ (hbound.trans_lt (valueBound_lt r)), ← signedField_eq]
  refine ⟨rfl, fun hdec => ?_, fun hdec => ?_⟩
  · simpa [valueBound, hdec] using hbound
  · simpa [valueBound, hdec] using hbound

end Sys2Proof.Machine
end

