-- ==== Sys2Proof/Proofs/Decoder.lean ====
section
/-! PROOFS. The decoder statements (`40_decoder.md`): what a record holds and when it fails (R113 to R115, R221), the
ports of a frame and of a cycle (R110, R116, R143), the 23 rows of the Signal Table (R117 to R139), and the formatted
value string (R141). -/

namespace Sys2Proof.Machine

/-! ## Records -/

section
variable (r : SRow) (n : Int) (e : DecodeError) (x : Slot)

@[simp] theorem openRecord_v : (openRecord r).v = true := rfl
@[simp] theorem openRecord_sigId : (openRecord r).sigId = BitVec.ofNat 5 r.sigId := rfl
@[simp] theorem openRecord_kind : (openRecord r).kind = r.kind := rfl
@[simp] theorem openRecord_dec : (openRecord r).dec = if r.kind = .num then BitVec.ofNat 2 r.dec else 0 := rfl

@[simp] theorem deliver_v : (deliver n x).v = x.v := rfl
@[simp] theorem deliver_sigId : (deliver n x).sigId = x.sigId := rfl
@[simp] theorem deliver_kind : (deliver n x).kind = x.kind := rfl
@[simp] theorem deliver_dec : (deliver n x).dec = x.dec := rfl
@[simp] theorem deliver_err : (deliver n x).err = .ok := rfl

@[simp] theorem raiseDecodeError_v : (raiseDecodeError e x).v = x.v := rfl
@[simp] theorem raiseDecodeError_sigId : (raiseDecodeError e x).sigId = x.sigId := rfl
@[simp] theorem raiseDecodeError_kind : (raiseDecodeError e x).kind = x.kind := rfl
@[simp] theorem raiseDecodeError_dec : (raiseDecodeError e x).dec = x.dec := rfl
@[simp] theorem raiseDecodeError_err : (raiseDecodeError e x).err = e := rfl
@[simp] theorem raiseDecodeError_val : (raiseDecodeError e x).val = 0 := rfl

end

/-- The value a readable row delivers (R94, R113). -/
def rowValue (r : SRow) (d : Bus) : Int :=
  match r.kind with
  | .num => linear r (signedField r (fieldOf r d))
  | _ => fieldOf r d

theorem rowValue_num (r : SRow) (d : Bus) (h : r.kind = .num) :
    rowValue r d = linear r (signedField r (fieldOf r d)) := by simp [rowValue, h]

theorem rowValue_of_ne_num (r : SRow) (d : Bus) (h : r.kind ≠ .num) : rowValue r d = fieldOf r d := by
  cases hk : r.kind with
  | num => exact absurd hk h
  | enum | flag => simp [rowValue, hk]

/-- What `DECODE_ROW` answers (R113): SHORT, ENUM_OOB, or the row's value. -/
theorem decodeRow_cases (r : SRow) (len : Nat) (d : Bus) :
    (len ≤ r.hi ∧ decodeRow r len d = raiseDecodeError .short (openRecord r)) ∨
    (r.hi < len ∧ (r.kind = .enum ∧ r.enumLen ≤ fieldOf r d) ∧
      decodeRow r len d = raiseDecodeError .enumOob (openRecord r)) ∨
    (r.hi < len ∧ ¬(r.kind = .enum ∧ r.enumLen ≤ fieldOf r d) ∧
      decodeRow r len d = deliver (rowValue r d) (openRecord r)) := by
  rcases Nat.lt_or_ge r.hi len with h | h
  · cases hk : r.kind with
    | num => exact .inr (.inr ⟨h, by simp, by rw [decodeRow_num r len d h hk, rowValue_num r d hk]⟩)
    | flag =>
      exact .inr (.inr ⟨h, by simp, by rw [decodeRow_flag r len d h hk, rowValue_of_ne_num r d (by simp [hk])]⟩)
    | enum =>
      rcases Nat.lt_or_ge (fieldOf r d) r.enumLen with hf | hf
      · exact .inr (.inr ⟨h, by simp [hf],
          by rw [decodeRow_enum r len d h hk hf, rowValue_of_ne_num r d (by simp [hk])]⟩)
      · exact .inr (.inl ⟨h, ⟨rfl, hf⟩, decodeRow_enumOob r len d h hk hf⟩)
  · exact .inl ⟨h, decodeRow_short r len d h⟩

section
variable (r : SRow) (len : Nat) (d : Bus)

@[simp] theorem decodeRow_v : (decodeRow r len d).v = true := by
  rcases decodeRow_cases r len d with ⟨_, e⟩ | ⟨_, _, e⟩ | ⟨_, _, e⟩ <;> simp [e]

@[simp] theorem decodeRow_sigId : (decodeRow r len d).sigId = BitVec.ofNat 5 r.sigId := by
  rcases decodeRow_cases r len d with ⟨_, e⟩ | ⟨_, _, e⟩ | ⟨_, _, e⟩ <;> simp [e]

@[simp] theorem decodeRow_kind : (decodeRow r len d).kind = r.kind := by
  rcases decodeRow_cases r len d with ⟨_, e⟩ | ⟨_, _, e⟩ | ⟨_, _, e⟩ <;> simp [e]

@[simp] theorem decodeRow_dec :
    (decodeRow r len d).dec = if r.kind = .num then BitVec.ofNat 2 r.dec else 0 := by
  rcases decodeRow_cases r len d with ⟨_, e⟩ | ⟨_, _, e⟩ | ⟨_, _, e⟩ <;> simp [e]

theorem decodeRow_err_eq_short_iff : (decodeRow r len d).err = .short ↔ len ≤ r.hi := by
  rcases decodeRow_cases r len d with ⟨h, e⟩ | ⟨h, _, e⟩ | ⟨h, _, e⟩ <;> simp [e, h]

theorem decodeRow_err_eq_enumOob_iff :
    (decodeRow r len d).err = .enumOob ↔ r.hi < len ∧ r.kind = .enum ∧ r.enumLen ≤ fieldOf r d := by
  rcases decodeRow_cases r len d with ⟨h, e⟩ | ⟨h, hc, e⟩ | ⟨h, hc, e⟩
  · simp [e, Nat.not_lt.mpr h]
  · simp [e, h, hc]
  · simpa [e, h] using hc

theorem decodeRow_val_of_err (h : (decodeRow r len d).err ≠ .ok) : (decodeRow r len d).val = 0 := by
  rcases decodeRow_cases r len d with ⟨_, e⟩ | ⟨_, _, e⟩ | ⟨_, _, e⟩ <;> rw [e] at h ⊢
  · exact raiseDecodeError_val ..
  · exact raiseDecodeError_val ..
  · exact absurd (deliver_err ..) h

end

theorem kindCode_eq_iff (a b : RowKind) : kindCode a = kindCode b ↔ a = b := ⟨kindCode_inj a b, congrArg kindCode⟩

theorem errCode_eq_iff (a b : DecodeError) : errCode a = errCode b ↔ a = b := ⟨errCode_inj a b, congrArg errCode⟩

theorem errCode_ne_three (e : DecodeError) : errCode e ≠ 3#2 := by cases e <;> decide

/-! ## The rows of the authoritative table -/

/-- What the rows of the table have in common beyond R112: their numbers and decimals fit the wires (R88), their
identifier has at most four rows (R110), only NUM rows have decimals, and a field of another kind has at most two bits,
so that it is within its enumeration (R115). -/
theorem signalTable_fits : ∀ r ∈ signalTable, r.hi < 8 ∧ r.sigId < 32 ∧ r.dec < 4 ∧
    (rowsOf signalTable r.canId).length ≤ 4 ∧
    (r.kind ≠ .num → r.dec = 0 ∧ r.width ≤ 2) ∧ (r.kind = .enum → r.enumLen = 4) := by decide

theorem mem_rowsOf {table : List SRow} {id : CanId} {r : SRow} :
    r ∈ rowsOf table id ↔ r ∈ table ∧ r.canId = id := by simp [rowsOf]

theorem rowsOf_signalTable_length_le (id : CanId) : (rowsOf signalTable id).length ≤ 4 := by
  rcases List.eq_nil_or_concat (rowsOf signalTable id) with h | ⟨rs, r, h⟩
  · simp [h]
  · obtain ⟨hr, rfl⟩ := mem_rowsOf.mp (show r ∈ rowsOf signalTable id by simp [h])
    obtain ⟨_, _, _, hlen, _⟩ := signalTable_fits r hr
    exact hlen

theorem rowCount_toNat (id : CanId) : (rowCount signalTable id).toNat = (rowsOf signalTable id).length := by
  have h := rowsOf_signalTable_length_le id
  rw [rowCount, BitVec.toNat_ofNat, Nat.mod_eq_of_lt (by omega)]

theorem fieldOf_lt_four {r : SRow} (hr : r ∈ signalTable) (hk : r.kind ≠ .num) (d : Bus) : fieldOf r d < 4 := by
  obtain ⟨_, _, _, _, hother, _⟩ := signalTable_fits r hr
  obtain ⟨_, hwidth⟩ := hother hk
  exact (fieldOf_lt r d).trans_le (Nat.pow_le_pow_right Nat.two_pos hwidth)

/-- The authoritative table has no field outside its enumeration (R115). -/
theorem not_enumOob {r : SRow} (hr : r ∈ signalTable) (d : Bus) : ¬(r.kind = .enum ∧ r.enumLen ≤ fieldOf r d) := by
  rintro ⟨hk, hf⟩
  obtain ⟨_, _, _, _, _, henum⟩ := signalTable_fits r hr
  have hlt := fieldOf_lt_four hr (by simp [hk]) d
  rw [henum hk] at hf
  omega

/-- A readable row of the authoritative table delivers its value. -/
theorem decodeRow_of_readable {r : SRow} (hr : r ∈ signalTable) {len : Nat} (h : r.hi < len) (d : Bus) :
    decodeRow r len d = deliver (rowValue r d) (openRecord r) := by
  rcases decodeRow_cases r len d with ⟨hs, _⟩ | ⟨_, hf, _⟩ | ⟨_, _, e⟩
  · omega
  · exact absurd hf (not_enumOob hr d)
  · exact e

theorem natAbs_rowValue_lt {r : SRow} (hr : r ∈ signalTable) (d : Bus) : (rowValue r d).natAbs < 2 ^ 31 := by
  by_cases hk : r.kind = .num
  · rw [rowValue_num r d hk]
    exact (linear_natAbs_le r hr hk d).trans_lt (valueBound_lt r)
  · have hlt := fieldOf_lt_four hr hk d
    rw [rowValue_of_ne_num r d hk]
    omega

/-- A flag or enumeration value is carried by `val` as the number it is. -/
theorem deliver_val_toNat (n : Int) (x : Slot) (h0 : 0 ≤ n) (h : n < 2 ^ 32) : (deliver n x).val.toNat = n.toNat := by
  simp only [deliver, BitVec.toNat_ofInt]
  omega

/-! ## The port of a frame -/

theorem slotAt_decodeFrame (table : List SRow) (id : CanId) (f : RxPayload) (k : Nat) (h : k < 4) :
    slotAt (decodeFrame table id f) k = decodeSlot (rowsOf table id) k f := by
  match k, h with
  | 0, _ | 1, _ | 2, _ | 3, _ => rfl

theorem slotAt_of_ge (o : DecOut) (k : Nat) (h : 4 ≤ k) : slotAt o k = Slot.empty := by
  match k, h with
  | k + 4, _ => rfl

theorem decodeSlot_some {rows : List SRow} {k : Nat} {r : SRow} (h : rows[k]? = some r) (f : RxPayload) :
    decodeSlot rows k f = decodeRow r (effLen f.len) f.data := by simp [decodeSlot, h]

theorem decodeSlot_none {rows : List SRow} {k : Nat} (h : rows[k]? = none) (f : RxPayload) :
    decodeSlot rows k f = Slot.empty := by simp [decodeSlot, h]

/-- A slot of the port is empty or holds the record of a row of the identifier. -/
theorem slotAt_decodeFrame_cases (table : List SRow) (id : CanId) (f : RxPayload) (k : Nat) :
    slotAt (decodeFrame table id f) k = Slot.empty ∨
      ∃ r ∈ rowsOf table id, slotAt (decodeFrame table id f) k = decodeRow r (effLen f.len) f.data := by
  rcases Nat.lt_or_ge k 4 with h | h
  · rw [slotAt_decodeFrame table id f k h]
    cases hr : (rowsOf table id)[k]? with
    | none => exact .inl (decodeSlot_none hr f)
    | some r => exact .inr ⟨r, List.mem_of_getElem? hr, decodeSlot_some hr f⟩
  · exact .inl (slotAt_of_ge _ k h)

theorem rowsOf_isEmpty_iff (id : CanId) : (rowsOf signalTable id).isEmpty = true ↔ id ∉ knownIds := by
  constructor
  · intro h hk
    simp only [knownIds, List.mem_cons, List.not_mem_nil, or_false] at hk
    rcases hk with rfl | rfl | rfl | rfl | rfl | rfl | rfl | rfl <;> exact absurd h (by decide)
  · intro h
    rw [rowsOf_unknown id ((not_known_iff id).mpr h)]
    rfl

/-- Settles O14: the record's fields and causes by the three answers of `DECODE_ROW`, the codes by their injectivity. -/
theorem recordsFailExactlyOnTheirCauses : Obligations.RecordsFailExactlyOnTheirCauses := by
  refine ⟨fun r len d => ?_, fun id f k hk => ?_⟩
  · have hkind (k : RowKind) : (slotWires (decodeRow r len d)).kind = kindCode k ↔ r.kind = k := by
      rw [slotWires, kindCode_eq_iff, decodeRow_kind]
    have herr (e : DecodeError) : (slotWires (decodeRow r len d)).err = errCode e ↔ (decodeRow r len d).err = e :=
      errCode_eq_iff _ _
    have hshort := decodeRow_err_eq_short_iff r len d
    have hoob := decodeRow_err_eq_enumOob_iff r len d
    exact ⟨decodeRow_v r len d, decodeRow_sigId r len d, decodeRow_kind r len d, decodeRow_dec r len d, hshort, hoob,
      decodeRow_val_of_err r len d, hkind .num, hkind .enum, hkind .flag, (herr .short).trans hshort,
      (herr .enumOob).trans hoob, errCode_ne_three _⟩
  · rcases slotAt_decodeFrame_cases signalTable id f k with e | ⟨r, hr, e⟩
    · simp [e, Slot.empty] at hk
    · rw [e, decodeRow_err_eq_enumOob_iff] at hk
      exact not_enumOob (mem_rowsOf.mp hr).1 f.data hk.2

/-! ## The outputs of a cycle -/

theorem decOut_of_noFrame {p : Pins} (h : p.rxValid = false) : decOut p = DecOut.none := by simp [decOut, h]

theorem decOut_of_frame {p : Pins} (h : p.rxValid = true) : decOut p = decodeFrame signalTable p.rxId p.rx := by
  simp [decOut, h]

theorem slotAt_none (k : Nat) : slotAt DecOut.none k = Slot.empty := by
  unfold slotAt
  split <;> rfl

/-- Settles O12: after a step the port is `DECODE` of the frame at the port, or all zero without one. -/
theorem cycleDecodesTheFrameAtThePort : Obligations.CycleDecodesTheFrameAtThePort := by
  intro s t hst
  obtain ⟨_, _, _, _, _, hdec, _⟩ := step_parts s t hst
  rw [hdec]
  refine ⟨fun hv => ?_, fun hv => ?_⟩
  · rw [decOut_of_noFrame hv]
    exact ⟨rfl, rfl, rfl, fun k _ => slotAt_none k, fun k _ => by rw [slotAt_none, slotWires_empty]⟩
  · rw [decOut_of_frame hv]
    refine ⟨rfl, rfl, ?_, rowCount_toNat _, fun k r hr => ?_, fun k hk hlen => ?_⟩
    · have h := rowsOf_isEmpty_iff s.pins.rxId
      rw [decodeFrame, Bool.not_eq_true', ← Bool.not_eq_true, h, not_not]
    · have hk : k < 4 := (List.getElem?_eq_some_iff.mp hr).1.trans_le (rowsOf_signalTable_length_le _)
      rw [slotAt_decodeFrame _ _ _ k hk, decodeSlot_some hr]
      rfl
    · rw [slotAt_decodeFrame _ _ _ k hk, decodeSlot_none (List.getElem?_eq_none hlen)]

/-! ## The bits a row reads -/

/-- The field of a row whose bits lie in its bytes is a slice of the bus (R12, R92). -/
theorem fieldOf_eq_slice (r : SRow) (d : Bus) (h : r.bitLo + r.width ≤ 8 * rowBytes r) :
    fieldOf r d = (d.extractLsb' r.firstBit r.width).toNat := by
  calc fieldOf r d
      = d.toNat / 2 ^ (8 * r.lo) % 2 ^ (8 * rowBytes r) / 2 ^ r.bitLo % 2 ^ r.width := by
        rw [fieldOf_eq, memRead_eq_slice]
    _ = d.toNat / 2 ^ (8 * r.lo) / 2 ^ r.bitLo % 2 ^ r.width := by
        have hsplit : 2 ^ (8 * rowBytes r) = 2 ^ r.bitLo * 2 ^ (8 * rowBytes r - r.bitLo) := by
          rw [← Nat.pow_add, Nat.add_sub_cancel' (by omega)]
        rw [hsplit, Nat.mod_mul_right_div_self,
          Nat.mod_mod_of_dvd _ (Nat.pow_dvd_pow 2 (by omega))]
    _ = (d.extractLsb' r.firstBit r.width).toNat := by
        rw [Nat.div_div_eq_div_mul, ← Nat.pow_add, BitVec.extractLsb'_toNat, Nat.shiftRight_eq_div_pow, SRow.firstBit]

theorem fieldOf_congr {r : SRow} {d e : Bus} (h : r.bitLo + r.width ≤ 8 * rowBytes r)
    (hbits : ∀ b, r.firstBit ≤ b → b < r.firstBit + r.width → d.getLsbD b = e.getLsbD b) :
    fieldOf r d = fieldOf r e := by
  rw [fieldOf_eq_slice r d h, fieldOf_eq_slice r e h]
  congr 1
  apply BitVec.eq_of_getLsbD_eq
  intro i hi
  rw [BitVec.getLsbD_extractLsb', BitVec.getLsbD_extractLsb', hbits _ (by omega) (by omega)]

/-- A record depends on the payload through the field of a readable row alone. -/
theorem decodeRow_congr {r : SRow} {len : Nat} {d e : Bus} (h : r.hi < len → fieldOf r d = fieldOf r e) :
    decodeRow r len d = decodeRow r len e := by
  rcases Nat.lt_or_ge r.hi len with hlt | hge
  · simp only [decodeRow, h hlt]
  · rw [decodeRow_short r len d hge, decodeRow_short r len e hge]

theorem decodeFrame_congr_of_fields {table : List SRow} {id : CanId} {f g : RxPayload}
    (hlen : effLen f.len = effLen g.len)
    (h : ∀ r ∈ table, r.canId = id → r.hi < effLen f.len → fieldOf r f.data = fieldOf r g.data) :
    decodeFrame table id f = decodeFrame table id g := by
  have hslot (k : Nat) : decodeSlot (rowsOf table id) k f = decodeSlot (rowsOf table id) k g := by
    cases hr : (rowsOf table id)[k]? with
    | none => rw [decodeSlot_none hr, decodeSlot_none hr]
    | some r =>
      obtain ⟨hmem, hid⟩ := mem_rowsOf.mp (List.mem_of_getElem? hr)
      rw [decodeSlot_some hr, decodeSlot_some hr, ← hlen]
      exact decodeRow_congr (h r hmem hid)
  simp only [decodeFrame, hslot]

/-- In a well-formed table the bits of every row lie in its bytes (R112). -/
theorem bits_in_bytes_of_tableWf {table : List SRow} (h : tableWf table = true) {r : SRow} (hr : r ∈ table) :
    r.bitLo + r.width ≤ 8 * rowBytes r := by
  simp only [tableWf, Bool.and_eq_true, List.all_eq_true] at h
  obtain ⟨⟨⟨hrows, _⟩, _⟩, _⟩ := h
  have hwf := hrows r hr
  simp only [SRow.wf, Bool.and_eq_true, decide_eq_true_eq] at hwf
  obtain ⟨⟨⟨_, hbits⟩, _⟩, _⟩ := hwf
  exact hbits

/-- Settles O13: the field of a readable row is a slice of the payload, and frames that agree on it agree on the
record. -/
theorem decodingReadsOnlyTheBitsOfItsRows : Obligations.DecodingReadsOnlyTheBitsOfItsRows := by
  intro table id f g hwf hlen hbits
  exact decodeFrame_congr_of_fields hlen fun r hr hid hread =>
    fieldOf_congr (bits_in_bytes_of_tableWf hwf hr) (hbits r hr hid hread)

/-! ## Replacing a row -/

theorem rowsOf_append (a b : List SRow) (id : CanId) : rowsOf (a ++ b) id = rowsOf a id ++ rowsOf b id :=
  List.filter_append ..

theorem rowsOf_cons_of_ne {r : SRow} {id : CanId} (h : r.canId ≠ id) (rest : List SRow) :
    rowsOf (r :: rest) id = rowsOf rest id := List.filter_cons_of_neg (by simpa using h)

theorem rowsOf_cons_of_eq {r : SRow} {id : CanId} (h : r.canId = id) (rest : List SRow) :
    rowsOf (r :: rest) id = r :: rowsOf rest id := List.filter_cons_of_pos (by simpa using h)

/-- A row replaced by one of the same identifier: the other identifiers keep their rows, and its own has the new row in
its place. -/
theorem rowsOf_set {table : List SRow} {i : Nat} {q r : SRow} (hq : table[i]? = some q) (hid : r.canId = q.canId)
    (id : CanId) :
    rowsOf (table.set i r) id =
      if q.canId = id then (rowsOf table id).set (rowsOf (table.take i) id).length r else rowsOf table id := by
  obtain ⟨hi, rfl⟩ := List.getElem?_eq_some_iff.mp hq
  have hold : rowsOf table id = rowsOf (table.take i) id ++ rowsOf (table[i] :: table.drop (i + 1)) id := by
    rw [← rowsOf_append, List.cons_getElem_drop_succ, List.take_append_drop]
  rw [List.set_eq_take_append_cons_drop, if_pos hi, rowsOf_append, hold]
  split_ifs with h
  · rw [rowsOf_cons_of_eq h, rowsOf_cons_of_eq (hid.trans h), List.set_append_right _ _ (le_refl _), Nat.sub_self,
      List.set_cons_zero]
  · rw [rowsOf_cons_of_ne h, rowsOf_cons_of_ne (hid ▸ h)]

theorem length_rowsOf_set {table : List SRow} {i : Nat} {q r : SRow} (hq : table[i]? = some q)
    (hid : r.canId = q.canId) (id : CanId) : (rowsOf (table.set i r) id).length = (rowsOf table id).length := by
  rw [rowsOf_set hq hid]
  split_ifs <;> simp

theorem getElem?_rowsOf_set_of_ne {table : List SRow} {i : Nat} {q r : SRow} (hq : table[i]? = some q)
    (hid : r.canId = q.canId) {id : CanId} {k : Nat}
    (h : q.canId ≠ id ∨ k ≠ (rowsOf (table.take i) id).length) :
    (rowsOf (table.set i r) id)[k]? = (rowsOf table id)[k]? := by
  rw [rowsOf_set hq hid]
  split_ifs with he
  · exact List.getElem?_set_ne (h.resolve_left (not_not.mpr he)).symm
  · rfl

/-- Settles O15: the summary outputs read the number of rows alone, and a slot reads its own row alone. -/
theorem rowErrorsAreIsolated : Obligations.RowErrorsAreIsolated := by
  intro table i q r f hq hid id
  have hlen := length_rowsOf_set hq hid id
  have hempty : (rowsOf (table.set i r) id).isEmpty = (rowsOf table id).isEmpty := by
    rw [Bool.eq_iff_iff, List.isEmpty_iff_length_eq_zero, List.isEmpty_iff_length_eq_zero, hlen]
  refine ⟨?_, ?_, fun k hk => ?_⟩
  · simp only [decodeFrame, hempty]
  · simp only [decodeFrame, rowCount, hlen]
  · rcases Nat.lt_or_ge k 4 with h4 | h4
    · simp only [slotAt_decodeFrame _ _ _ k h4, decodeSlot, getElem?_rowsOf_set_of_ne hq hid hk]
    · rw [slotAt_of_ge _ k h4, slotAt_of_ge _ k h4]

/-! ## Formatted values -/

section
variable {l : Labels} {x : Slot} (hv : x.v = true) (he : x.err = .ok)

theorem fmt_of_err (h : x.err ≠ .ok) : fmt l x = none := by simp [fmt, h]

include hv he

theorem fmt_num (hk : x.kind = .num) :
    fmt l x = some (if x.dec = 2 then formatCenti x.val.toInt else formatInteger x.val.toInt) := by
  simp [fmt, hv, he, hk]

theorem fmt_enum (hk : x.kind = .enum) : fmt l x = some (labelled (enumLabels l x.sigId.toNat) x.val.toNat) := by
  simp [fmt, hv, he, hk]

theorem fmt_flag (hk : x.kind = .flag) : fmt l x = some (labelled (flagLabels l x.sigId.toNat) x.val.toNat) := by
  simp [fmt, hv, he, hk]

end

theorem labelled_of_some {labels : List String} {n : Nat} {label : String} (h : labels[n]? = some label) :
    labelled labels n = label := by simp [labelled, h]

theorem labelled_of_none {labels : List String} {n : Nat} (h : labels[n]? = none) : labelled labels n = decimal n := by
  simp [labelled, h]

/-- Hundredths from their whole part and their two decimals (R141). -/
theorem formatCenti_eq (n : Int) (w a b : Nat) (ha : a < 10) (hb : b < 10) (h : n.natAbs = 100 * w + 10 * a + b) :
    formatCenti n = (if n < 0 then "-" else "") ++ decimal w ++ "." ++ decimal a ++ decimal b := by
  have hw : n.natAbs / 100 = w := by omega
  have ha' : n.natAbs % 100 / 10 % 10 = a := by omega
  have hb' : n.natAbs % 100 % 10 = b := by omega
  rw [formatCenti, twoDigits, hw, ha', hb', signOf, ← String.append_assoc]

/-- The digits of a number are those of its tenth part, then its last digit. -/
theorem decimal_append (q b : Nat) (hq : 0 < q) (hb : b < 10) : decimal (10 * q + b) = decimal q ++ decimal b := by
  rw [decimal, decimal, decimal, ← String.ofList_append, Nat.toDigits_append_toDigits (by decide) hq hb]

/-- Settles O17: `fmt` by the kind of the record, the digits by their recursion. -/
theorem formattedValueStrings : Obligations.FormattedValueStrings := by
  refine ⟨fun l x hv => ⟨fmt_of_err, fun he hk hd => ?_, fun he hk hd w a b ha hb hn => ?_, fun he hk => ?_,
    fun he hk => ?_⟩, decimal_append, by decide⟩
  · rw [fmt_num hv he hk, hd]
    rfl
  · rw [fmt_num hv he hk, if_pos hd, formatCenti_eq _ w a b ha hb hn]
  · rw [fmt_enum hv he hk]
    exact ⟨fun label h => by rw [labelled_of_some h], fun h => by rw [labelled_of_none h]⟩
  · rw [fmt_flag hv he hk]
    exact ⟨fun label h => by rw [labelled_of_some h], fun h => by rw [labelled_of_none h]⟩

/-! ## The effect of a row operation -/

/-- The string of a value of a row (R141). -/
def rowString (r : SRow) (l : Labels) (n : Int) : String :=
  match r.kind with
  | .num => if r.dec = 2 then formatCenti n else formatInteger n
  | .enum => labelled (enumLabels l r.sigId) n.toNat
  | .flag => labelled (flagLabels l r.sigId) n.toNat

theorem recordIs_decodeRow {r : SRow} (hr : r ∈ signalTable) (len : Nat) (d : Bus) :
    RecordIs (decodeRow r len d) r.sigId r.kind r.dec := by
  obtain ⟨_, hsig, hdec, _, hother, _⟩ := signalTable_fits r hr
  refine ⟨decodeRow_v r len d, ?_, decodeRow_kind r len d, ?_⟩
  · rw [decodeRow_sigId, BitVec.toNat_ofNat, Nat.mod_eq_of_lt hsig]
  · rw [decodeRow_dec]
    split_ifs with hk
    · rw [BitVec.toNat_ofNat, Nat.mod_eq_of_lt hdec]
    · exact (hother hk).1.symm

theorem valueIs_decodeRow {r : SRow} (hr : r ∈ signalTable) (f : RxPayload) :
    ValueIs (decodeRow r (effLen f.len) f.data) f.len (r.hi + 1) (rowValue r f.data) := by
  obtain ⟨hhi, _⟩ := signalTable_fits r hr
  have hlen := effLen_le f.len r.hi hhi
  refine ⟨fun h => ?_, fun h => ?_⟩
  · rw [decodeRow_short r _ _ (hlen.mpr (by omega))]
    exact ⟨rfl, rfl⟩
  · rw [decodeRow_of_readable hr (by omega)]
    exact ⟨rfl, deliver_val_toInt _ _ (natAbs_rowValue_lt hr _)⟩

theorem fmt_deliver {r : SRow} (hr : r ∈ signalTable) (d : Bus) (l : Labels) :
    fmt l (deliver (rowValue r d) (openRecord r)) = some (rowString r l (rowValue r d)) := by
  obtain ⟨_, hsig, hdec, _⟩ := signalTable_fits r hr
  have hid : (BitVec.ofNat 5 r.sigId).toNat = r.sigId := by rw [BitVec.toNat_ofNat, Nat.mod_eq_of_lt hsig]
  have hnat (hk : r.kind ≠ .num) :
      (deliver (rowValue r d) (openRecord r)).val.toNat = (rowValue r d).toNat := by
    have hlt := fieldOf_lt_four hr hk d
    rw [rowValue_of_ne_num r d hk]
    exact deliver_val_toNat _ _ (by omega) (by omega)
  cases hk : r.kind with
  | num =>
    have hplaces : BitVec.ofNat 2 r.dec = 2#2 ↔ r.dec = 2 := by bv_omega
    rw [fmt_num rfl rfl hk, deliver_val_toInt _ _ (natAbs_rowValue_lt hr d)]
    simp [rowString, hk, hplaces]
  | enum =>
    rw [fmt_enum rfl rfl hk, hnat (by simp [hk])]
    simp [rowString, hk, hid]
  | flag =>
    rw [fmt_flag rfl rfl hk, hnat (by simp [hk])]
    simp [rowString, hk, hid]

theorem fmt_decodeRow {r : SRow} (hr : r ∈ signalTable) (f : RxPayload) (l : Labels) :
    fmt l (decodeRow r (effLen f.len) f.data) =
      if r.hi + 1 ≤ f.len.toNat then some (rowString r l (rowValue r f.data)) else none := by
  obtain ⟨hhi, _⟩ := signalTable_fits r hr
  have hlen := effLen_le f.len r.hi hhi
  split_ifs with h
  · rw [decodeRow_of_readable hr (by omega), fmt_deliver hr]
  · rw [decodeRow_short r _ _ (hlen.mpr (by omega))]
    exact fmt_of_err (by simp)

section
variable (r : SRow) {k : Nat} (hk : k < 4) (f : RxPayload) (s : State)
include hk

theorem slotAt_publishRow (j : Nat) :
    slotAt (publishRow r k f s).dec j =
      if j = k then decodeRow r (effLen f.len) f.data else slotAt s.dec j :=
  slotAt_setSlot s.dec k j _ hk

theorem drivesSlot_publishRow : DrivesSlot k (rowsOf signalTable r.canId).length s (publishRow r k f s) := by
  refine ⟨publishRow_frame r k f s, rfl, rfl, rowCount_toNat _, fun j _ hj => ?_⟩
  rw [slotAt_publishRow r hk, if_neg hj]

end

/-- The whole effect of a row operation, from the row it decodes and the slot it drives: the row is the one the
identifier has in that slot. -/
theorem rowEffect_of_publishRow {i : Instr} {f : RxPayload} (r : SRow) {k : Nat}
    (hrow : (rowsOf signalTable r.canId)[k]? = some r) (hexec : ∀ s, exec i s = .next (publishRow r k f s))
    {val : Int} (hval : rowValue r f.data = val) :
    RowEffect i f k (rowsOf signalTable r.canId).length r.sigId r.kind r.dec (r.hi + 1) val (rowString r) := by
  subst hval
  intro s
  have hr : r ∈ signalTable := (mem_rowsOf.mp (List.mem_of_getElem? hrow)).1
  have hk : k < 4 := (List.getElem?_eq_some_iff.mp hrow).1.trans_le (rowsOf_signalTable_length_le _)
  have hslot : slotAt (publishRow r k f s).dec k = decodeRow r (effLen f.len) f.data := by
    rw [slotAt_publishRow r hk, if_pos rfl]
  refine ⟨publishRow r k f s, hexec s, drivesSlot_publishRow r hk f s, ?_⟩
  rw [hslot]
  exact ⟨recordIs_decodeRow hr _ _, valueIs_decodeRow hr f, fmt_decodeRow hr f⟩

/-! ## The values of the kinds of row -/

theorem byteInt_bounds (f : RxPayload) (i : Nat) : 0 ≤ byteInt f i ∧ byteInt f i < 256 := by
  have h := (byteAt f.data i).isLt
  unfold byteInt
  omega

theorem memRead_one_eq_byteInt (f : RxPayload) (i : Nat) : (memRead f.data i 1 : Int) = byteInt f i := by
  rw [memRead_one, byteInt]

theorem memRead_two_eq_wordInt (f : RxPayload) (i : Nat) : (memRead f.data i 2 : Int) = wordInt f i := by
  rw [memRead_two, wordInt, byteInt, byteInt]
  push_cast
  rfl

theorem memRead_three_eq_byteInt (f : RxPayload) (i : Nat) :
    (memRead f.data i 3 : Int) = byteInt f i + 256 * byteInt f (i + 1) + 65536 * byteInt f (i + 2) := by
  rw [memRead_three, byteInt, byteInt, byteInt]
  push_cast
  ring

theorem sextField_eq (w f : Nat) :
    sextField w f = if (f : Int) < 2 ^ (w - 1) then (f : Int) else (f : Int) - 2 ^ w := by
  have hcast : (f : Int) < 2 ^ (w - 1) ↔ f < 2 ^ (w - 1) := by norm_cast
  simp only [sextField, hcast]

section
variable (sig : Nat) (id : CanId) (name unit : String) (f : RxPayload)

/-- An ENUM row reads some bits of one byte (R87). -/
theorem rowValue_enumRow (byte bitLo width : Nat) :
    rowValue (enumRow sig id name byte bitLo width) f.data = byteInt f byte / 2 ^ bitLo % 2 ^ width := by
  rw [rowValue_of_ne_num _ _ (by simp [enumRow]), fieldOf_eq]
  simp [enumRow, rowBytes, memRead_one, byteInt]

/-- A FLAG row reads some bits of one byte (R87). -/
theorem rowValue_flagRow (byte bitLo width : Nat) :
    rowValue (flagRow sig id name byte bitLo width) f.data = byteInt f byte / 2 ^ bitLo % 2 ^ width := by
  rw [rowValue_of_ne_num _ _ (by simp [flagRow]), fieldOf_eq]
  simp [flagRow, rowBytes, memRead_one, byteInt]

variable (lo hi : Nat) (signed : Bool) (mul add : Int) (dec : Nat)

/-- The field of a NUM row is all its bytes (R92). -/
theorem fieldOf_numRow :
    fieldOf (numRow sig id name unit lo hi signed mul add dec) f.data = memRead f.data lo (hi - lo + 1) := by
  have hlt := memRead_lt f.data lo (hi - lo + 1)
  rw [show 256 = 2 ^ 8 from rfl, ← Nat.pow_mul] at hlt
  rw [fieldOf_eq]
  simp only [numRow, rowBytes, Nat.pow_zero, Nat.div_one]
  exact Nat.mod_eq_of_lt hlt

theorem rowValue_numRow :
    rowValue (numRow sig id name unit lo hi signed mul add dec) f.data =
      (if signed then sextField (8 * (hi - lo + 1)) (memRead f.data lo (hi - lo + 1))
        else (memRead f.data lo (hi - lo + 1) : Int)) * mul + add := by
  rw [rowValue_num _ _ rfl, fieldOf_numRow]
  rfl

theorem rowValue_byteRow :
    rowValue (numRow sig id name unit lo lo false mul add dec) f.data = byteInt f lo * mul + add := by
  rw [rowValue_numRow, if_neg Bool.false_ne_true, Nat.sub_self, memRead_one_eq_byteInt]

theorem rowValue_wordRow :
    rowValue (numRow sig id name unit lo (lo + 1) false mul add dec) f.data = wordInt f lo * mul + add := by
  rw [rowValue_numRow, if_neg Bool.false_ne_true, Nat.add_sub_cancel_left, memRead_two_eq_wordInt]

theorem rowValue_threeByteRow :
    rowValue (numRow sig id name unit lo (lo + 2) false mul add dec) f.data =
      (byteInt f lo + 256 * byteInt f (lo + 1) + 65536 * byteInt f (lo + 2)) * mul + add := by
  rw [rowValue_numRow, if_neg Bool.false_ne_true, Nat.add_sub_cancel_left, memRead_three_eq_byteInt]

theorem rowValue_signedByteRow :
    rowValue (numRow sig id name unit lo lo true mul add dec) f.data =
      (if byteInt f lo < 128 then byteInt f lo else byteInt f lo - 256) * mul + add := by
  rw [rowValue_numRow, if_pos rfl, Nat.sub_self, sextField_eq, memRead_one_eq_byteInt]
  rfl

theorem rowValue_signedWordRow :
    rowValue (numRow sig id name unit lo (lo + 1) true mul add dec) f.data =
      (if wordInt f lo < 32768 then wordInt f lo else wordInt f lo - 65536) * mul + add := by
  rw [rowValue_numRow, if_pos rfl, Nat.add_sub_cancel_left, sextField_eq, memRead_two_eq_wordInt]
  rfl

end

/-! ## The rows, identifier by identifier -/

/-- Settles O3: two enumerations of two bits, and a two-byte speed. -/
theorem rowsOf303 : Obligations.RowsOf303 := by
  intro f
  exact ⟨rowEffect_of_publishRow rowVehicleGear rfl (fun _ => rfl) ((rowValue_enumRow ..).trans (by omega)),
    rowEffect_of_publishRow rowDriveStateMode rfl (fun _ => rfl) ((rowValue_enumRow ..).trans (by omega)),
    rowEffect_of_publishRow rowSpeedRequestKmh rfl (fun _ => rfl) ((rowValue_wordRow ..).trans (by omega))⟩

/-- Settles O4: a two-byte angle, and a flag. -/
theorem rowsOf314 : Obligations.RowsOf314 := by
  intro f
  exact ⟨rowEffect_of_publishRow rowDirectionAngle rfl (fun _ => rfl) ((rowValue_wordRow ..).trans (by omega)),
    rowEffect_of_publishRow rowEpsControl rfl (fun _ => rfl) ((rowValue_flagRow ..).trans (by omega))⟩

/-- Settles O5: three two-byte values in hundredths. -/
theorem rowsOf304 : Obligations.RowsOf304 := by
  intro f
  exact ⟨rowEffect_of_publishRow rowVehicleSpeed rfl (fun _ => rfl) ((rowValue_wordRow ..).trans (by omega)),
    rowEffect_of_publishRow rowWheelAngle rfl (fun _ => rfl) ((rowValue_wordRow ..).trans (by omega)),
    rowEffect_of_publishRow rowBrakePressure rfl (fun _ => rfl) ((rowValue_wordRow ..).trans (by omega))⟩

/-- Settles O6: three flags of one bit and one of two. The head light is the top bit of its byte, so the quotient alone
is the bit. -/
theorem rowsOf301 : Obligations.RowsOf301 := by
  intro f
  obtain ⟨hnonneg, hlt⟩ := byteInt_bounds f 1
  exact ⟨rowEffect_of_publishRow rowBrakeLight rfl (fun _ => rfl) ((rowValue_flagRow ..).trans (by omega)),
    rowEffect_of_publishRow rowHeadLight rfl (fun _ => rfl) ((rowValue_flagRow ..).trans (by omega)),
    rowEffect_of_publishRow rowEmergencyButton rfl (fun _ => rfl) ((rowValue_flagRow ..).trans (by omega)),
    rowEffect_of_publishRow rowTouchSwitches rfl (fun _ => rfl) ((rowValue_flagRow ..).trans (by omega))⟩

/-- Settles O7: the two signed rows, of two bytes and of one. -/
theorem rowsOf18F : Obligations.RowsOf18F := by
  intro f
  exact ⟨rowEffect_of_publishRow rowEpsCurrentAngle rfl (fun _ => rfl) ((rowValue_signedWordRow ..).trans (by omega)),
    rowEffect_of_publishRow rowEpsTemperature rfl (fun _ => rfl) ((rowValue_signedByteRow ..).trans (by omega))⟩

/-- Settles O8: two two-byte values in hundredths. -/
theorem rowsOf060 : Obligations.RowsOf060 := by
  intro f
  exact ⟨rowEffect_of_publishRow rowBusVoltage rfl (fun _ => rfl) ((rowValue_wordRow ..).trans (by omega)),
    rowEffect_of_publishRow rowBusCurrent rfl (fun _ => rfl) ((rowValue_wordRow ..).trans (by omega))⟩

/-- Settles O9: an enumeration, a flag, the table's one three-byte row, and a two-byte value. -/
theorem rowsOf160 : Obligations.RowsOf160 := by
  intro f
  exact ⟨rowEffect_of_publishRow rowDriveMode rfl (fun _ => rfl) ((rowValue_enumRow ..).trans (by omega)),
    rowEffect_of_publishRow rowBrakeRequest rfl (fun _ => rfl) ((rowValue_flagRow ..).trans (by omega)),
    rowEffect_of_publishRow rowSpeedRequestRpm rfl (fun _ => rfl) ((rowValue_threeByteRow ..).trans
      (by simp only [Nat.reduceAdd]; omega)),
    rowEffect_of_publishRow rowTorqueRequest rfl (fun _ => rfl) ((rowValue_wordRow ..).trans (by omega))⟩

/-- Settles O10: two values of one byte and one of two. -/
theorem rowsOf0A0 : Obligations.RowsOf0A0 := by
  intro f
  exact ⟨rowEffect_of_publishRow rowBatterySoh rfl (fun _ => rfl) ((rowValue_byteRow ..).trans (by omega)),
    rowEffect_of_publishRow rowBatterySoc rfl (fun _ => rfl) ((rowValue_byteRow ..).trans (by omega)),
    rowEffect_of_publishRow rowBatteryVoltage rfl (fun _ => rfl) ((rowValue_wordRow ..).trans (by omega))⟩

end Sys2Proof.Machine
end

