-- ==== Sys2Proof/Proofs/Encoder.lean ====
section
/-! PROOFS. The encoder statements (`41_encoder.md`): the selections of gear and indicator (R151, R152), the fields,
their ranges and where they overflow (R153 to R156, R226), the five frames (R160 to R164), what each depends
on (R167, R168), and which of them the outbound port offers (R165). -/

namespace Sys2Proof.Machine

/-! ## What the operations of the family answer -/

section
variable (s : State)

theorem exec_encGear :
    exec .encGear s = .next (s.withEnc { s.enc with gear := some (gearOf s.regs.bcmdSpeed s.regs.bcmdAngle) }) := rfl

theorem exec_encInd :
    exec .encInd s = .next (s.withEnc { s.enc with ind := some (indicatorOf s.regs.bcmdAngle) }) := rfl

theorem exec_encSpdf :
    exec .encSpdf s = .next (s.withEnc { s.enc with spdf := some (spdf s.params.roundTie s.regs.bcmdSpeed) }) := rfl

theorem exec_encStrf :
    exec .encStrf s = .next (s.withEnc { s.enc with strf := some (strf s.params.roundTie s.regs.bcmdAngle) }) := rfl

theorem exec_encF501 : exec .encF501 s = .next (s.withTx (some (buildF501 s.params))) := rfl

theorem exec_encF502 : exec .encF502 s = .next (s.withTx (some (buildF502 s.params s.regs.bcmdAngle))) := rfl

theorem exec_encF503 : exec .encF503 s = .next (s.withTx (some (buildF503 s.params))) := rfl

theorem exec_encF504 :
    exec .encF504 s = .next (s.withTx (some (buildF504 s.params s.regs.bcmdSpeed s.regs.bcmdAngle))) := rfl

theorem exec_encF506 : exec .encF506 s = .next (s.withTx (some (buildF506 s.params s.regs.bcmdAngle))) := rfl

end

/-! ## The selections -/

theorem centi_toInt_eq_zero (x : Centi) : x.toInt = 0 ↔ x = 0 := by
  rw [← BitVec.toInt_inj]
  rfl

/-- The three tests of R151 exclude each other. -/
theorem gearOf_cases (speed angle : Centi) :
    (speed.toInt < 0 ∧ gearOf speed angle = .reverse) ∨
      ((speed = 0 ∧ angle = 0) ∧ gearOf speed angle = .neutral) ∨
      ((0 ≤ speed.toInt ∧ ¬(speed = 0 ∧ angle = 0)) ∧ gearOf speed angle = .drive) := by
  unfold gearOf
  simp only [centi_toInt_eq_zero]
  split
  case isTrue h => exact .inl ⟨h, rfl⟩
  case isFalse h =>
    split
    case isTrue h0 => exact .inr (.inl ⟨h0, rfl⟩)
    case isFalse h0 => exact .inr (.inr ⟨⟨Int.not_lt.mp h, h0⟩, rfl⟩)

/-- The three signs of R152. -/
theorem indicatorOf_cases (angle : Centi) :
    (angle.toInt < 0 ∧ indicatorOf angle = .right) ∨ (angle.toInt = 0 ∧ indicatorOf angle = .none) ∨
      (0 < angle.toInt ∧ indicatorOf angle = .left) := by
  unfold indicatorOf
  rcases Int.lt_trichotomy angle.toInt 0 with h | h | h
  · exact .inl ⟨h, if_pos h⟩
  · exact .inr (.inl ⟨h, by simp [h]⟩)
  · exact .inr (.inr ⟨h, by rw [if_neg (Int.lt_asymm h), if_pos h]⟩)

section
variable (speed angle : Centi)

theorem gearOf_eq_reverse_iff : gearOf speed angle = .reverse ↔ speed.toInt < 0 := by
  rcases gearOf_cases speed angle with ⟨h, e⟩ | ⟨⟨rfl, rfl⟩, e⟩ | ⟨⟨h, _⟩, e⟩ <;> rw [e]
  · exact iff_of_true rfl h
  · decide
  · exact iff_of_false (by decide) (Int.not_lt.mpr h)

theorem gearOf_eq_neutral_iff : gearOf speed angle = .neutral ↔ speed = 0 ∧ angle = 0 := by
  rcases gearOf_cases speed angle with ⟨h, e⟩ | ⟨h, e⟩ | ⟨⟨_, h⟩, e⟩ <;> rw [e]
  · exact iff_of_false (by decide) fun ⟨h0, _⟩ => Int.ne_of_lt h ((centi_toInt_eq_zero speed).mpr h0)
  · exact iff_of_true rfl h
  · exact iff_of_false (by decide) h

/-- Drive is the gear of what is neither Reverse nor Neutral. -/
theorem gearOf_eq_drive_iff :
    gearOf speed angle = .drive ↔ 0 ≤ speed.toInt ∧ ¬(speed = 0 ∧ angle = 0) := by
  rw [← gearOf_eq_neutral_iff, ← Int.not_lt, ← gearOf_eq_reverse_iff speed angle]
  rcases gearOf_cases speed angle with ⟨_, e⟩ | ⟨_, e⟩ | ⟨_, e⟩ <;> rw [e] <;> decide

theorem gearOf_ne_park : gearOf speed angle ≠ .park := by
  rcases gearOf_cases speed angle with ⟨_, e⟩ | ⟨_, e⟩ | ⟨_, e⟩ <;> rw [e] <;> decide

theorem indicatorOf_eq_right_iff : indicatorOf angle = .right ↔ angle.toInt < 0 := by
  rcases indicatorOf_cases angle with ⟨h, e⟩ | ⟨h, e⟩ | ⟨h, e⟩ <;> simp only [e, reduceCtorEq, true_iff, false_iff] <;>
    omega

theorem indicatorOf_eq_left_iff : indicatorOf angle = .left ↔ 0 < angle.toInt := by
  rcases indicatorOf_cases angle with ⟨h, e⟩ | ⟨h, e⟩ | ⟨h, e⟩ <;> simp only [e, reduceCtorEq, true_iff, false_iff] <;>
    omega

theorem indicatorOf_eq_none_iff : indicatorOf angle = .none ↔ angle = 0 := by
  rw [← centi_toInt_eq_zero]
  rcases indicatorOf_cases angle with ⟨h, e⟩ | ⟨h, e⟩ | ⟨h, e⟩ <;> simp only [e, reduceCtorEq, true_iff, false_iff] <;>
    omega

end

/-- The indicator is the sign of the angle (R152, R167). -/
theorem indicatorOf_eq_iff (a b : Centi) : indicatorOf a = indicatorOf b ↔ a.toInt.sign = b.toInt.sign := by
  rw [eq_comm, eq_comm (a := a.toInt.sign)]
  rcases indicatorOf_cases a with ⟨h, e⟩ | ⟨h, e⟩ | ⟨h, e⟩ <;> rw [e]
  · rw [indicatorOf_eq_right_iff, Int.sign_eq_neg_one_iff_neg.mpr h, Int.sign_eq_neg_one_iff_neg]
  · rw [indicatorOf_eq_none_iff, Int.sign_eq_zero_iff_zero.mpr h, Int.sign_eq_zero_iff_zero, centi_toInt_eq_zero]
  · rw [indicatorOf_eq_left_iff, Int.sign_eq_one_iff_pos.mpr h, Int.sign_eq_one_iff_pos]

/-- Of the angle the gear depends on whether it is zero alone (R151, R167). -/
theorem gearOf_congr (speed : Centi) {a b : Centi} (h : a = 0 ↔ b = 0) : gearOf speed a = gearOf speed b := by
  simp only [gearOf, centi_toInt_eq_zero, h]

/-- Settles O19: the gear and the indicator shown are `gearOf` and `indicatorOf` of the burst command. -/
theorem gearAndIndicatorSelection : Obligations.GearAndIndicatorSelection := fun s =>
  ⟨_, _, exec_encGear s, exec_encInd s, gearOf_eq_reverse_iff .., gearOf_eq_neutral_iff .., gearOf_eq_drive_iff ..,
    gearOf_ne_park _ _, indicatorOf_eq_right_iff _, indicatorOf_eq_left_iff _, indicatorOf_eq_none_iff _⟩

/-! ## The fields -/

theorem centi_toInt_bounds (x : Centi) : -2147483648 ≤ x.toInt ∧ x.toInt ≤ 2147483647 :=
  ⟨x.le_toInt, Int.le_of_lt_add_one x.toInt_lt⟩

/-- The greatest speed field is that of the speed -2^31 (R153). -/
theorem spdf_le (tie : RoundTie) (speed : Centi) : spdf tie speed ≤ 214748365 := by
  have hnear := rdiv10_near tie (speed.toInt.natAbs : Int)
  obtain ⟨hlo, hhi⟩ := centi_toInt_bounds speed
  unfold spdf
  omega

theorem strf_bounds (tie : RoundTie) (angle : Centi) :
    -214748065 ≤ strf tie angle ∧ strf tie angle ≤ 214748665 := by
  have hnear := rdiv10_near tie (angle.toInt + 3000)
  obtain ⟨hlo, hhi⟩ := centi_toInt_bounds angle
  unfold strf
  omega

/-- Settles O20: a rounded field is within half a unit of a tenth of its 32-bit operand. -/
theorem untruncatedFields : Obligations.UntruncatedFields := fun s =>
  have ⟨hlo, hhi⟩ := strf_bounds s.params.roundTie s.regs.bcmdAngle
  ⟨_, _, exec_encSpdf s, rfl, spdf_nonneg .., spdf_le .., exec_encStrf s, rfl, hlo, hhi⟩

/-- Above, a field overflows from 65535.5 on: a tie that both rules round away, the quotient being odd. -/
theorem lt_rdiv10_iff (tie : RoundTie) (n : Int) : 65535 < rdiv10 tie n ↔ 655355 ≤ n := by
  have htie : rdiv10 tie 655355 = 65536 := by cases tie <;> rfl
  have hnear := rdiv10_near tie n
  rcases eq_or_ne n 655355 with rfl | hn <;> omega

/-- Below, the tie -0.5 is where the rules differ: `half_even` rounds it to 0, `half_away` to -1. -/
theorem rdiv10_lt_zero_iff (tie : RoundTie) (n : Int) :
    rdiv10 tie n < 0 ↔ n ≤ (match tie with | .halfEven => -6 | .halfAway => -5) := by
  have hnear := rdiv10_near tie n
  rcases eq_or_ne n (-5) with rfl | hn
  · cases tie <;> decide
  · cases tie <;> dsimp only <;> omega

theorem fieldOverflows_spdf_iff (tie : RoundTie) (speed : Centi) :
    fieldOverflows (spdf tie speed) = true ↔ 655355 ≤ speed.toInt.natAbs := by
  rw [fieldOverflows_iff, ← spdf_overflow_iff tie]
  exact or_iff_right (Int.not_lt.mpr (spdf_nonneg tie speed))

theorem fieldOverflows_strf_iff (tie : RoundTie) (angle : Centi) :
    fieldOverflows (strf tie angle) = true ↔
      652355 ≤ angle.toInt ∨ angle.toInt ≤ (match tie with | .halfEven => -3006 | .halfAway => -3005) := by
  rw [fieldOverflows_iff, strf, lt_rdiv10_iff, rdiv10_lt_zero_iff]
  cases tie <;> dsimp only <;> omega

/-- The field in a frame is the integer mod 2^16 (R13, R156). -/
theorem toNat_trunc16 (x : Int) : ((trunc16 x).toNat : Int) = x % 65536 := by
  rw [trunc16, BitVec.toNat_ofInt, Int.toNat_of_nonneg (Int.emod_nonneg x (by decide))]
  rfl

theorem toNat_trunc16_of_fits (x : Int) (h : fieldOverflows x = false) : ((trunc16 x).toNat : Int) = x := by
  have hfits : ¬(x < 0 ∨ 65535 < x) := by rw [← fieldOverflows_iff, h]; decide
  rw [toNat_trunc16]
  omega

/-- Settles O21: each threshold is a tie of the rounding, decided by the rule, or the integer next to it. -/
theorem fieldOverflowThresholds : Obligations.FieldOverflowThresholds := fun tie speed angle =>
  ⟨fieldOverflows_spdf_iff tie speed, fieldOverflows_strf_iff tie angle,
    fun x => ⟨toNat_trunc16 x, toNat_trunc16_of_fits x⟩⟩

/-! ## Writing a byte and a word of a payload -/

/-- A byte written is the byte read (R54). -/
theorem byteAt_memWrite_byte (d : Bus) (i : Nat) (b : Byte) (h : i < 8) :
    byteAt (memWrite d i 1 (b.zeroExtend 16)) i = b := by
  have hb : b.toNat < 256 := b.isLt
  apply BitVec.eq_of_toNat_eq
  have hw := toNat_byteAt_memWrite_inside d i 1 0 (b.zeroExtend 16) (by omega) h
  rw [Nat.add_zero] at hw
  rw [hw, BitVec.toNat_setWidth]
  omega

/-- A word written is the little-endian word read (R54). -/
theorem wireWord_memWrite (d : Bus) (i : Nat) (v : BitVec 16) (h : i + 1 < 8) :
    wireWord (memWrite d i 2 v) i = v.toNat := by
  have hv : v.toNat < 65536 := v.isLt
  have hlow := toNat_byteAt_memWrite_inside d i 2 0 v (by omega) (by omega)
  have hhigh := toNat_byteAt_memWrite_inside d i 2 1 v (by omega) h
  rw [Nat.add_zero] at hlow
  rw [wireWord, hlow, hhigh]
  omega

/-! ## The frames -/

section
variable (p : Params) (speed angle : Centi)

theorem buildF502_field :
    (wireWord (buildF502 p angle).data 4 : Int) = rdiv10 p.roundTie (angle.toInt + 3000) % 65536 := by
  rw [buildF502, wireWord_memWrite _ _ _ (by omega), steeringField, toNat_trunc16, strf]

theorem buildF502_template (i : Nat) (hi : i < 8) (h4 : i ≠ 4) (h5 : i ≠ 5) :
    byteAt (buildF502 p angle).data i = byteAt p.wc.tpl502 i :=
  byteAt_memWrite_outside _ 4 2 i _ hi (by omega)

theorem buildF504_gear : byteAt (buildF504 p speed angle).data 3 = gearCode p.wc (gearOf speed angle) := by
  rw [buildF504, byteAt_memWrite_outside _ 6 2 3 _ (by omega) (by omega), byteAt_memWrite_byte _ _ _ (by omega)]

theorem buildF504_field :
    (wireWord (buildF504 p speed angle).data 6 : Int) = rdiv10 p.roundTie (speed.toInt.natAbs : Int) % 65536 := by
  rw [buildF504, wireWord_memWrite _ _ _ (by omega), speedField, toNat_trunc16, spdf]

theorem buildF504_template (i : Nat) (hi : i < 8) (h3 : i ≠ 3) (h6 : i ≠ 6) (h7 : i ≠ 7) :
    byteAt (buildF504 p speed angle).data i = byteAt p.wc.tpl504 i := by
  rw [buildF504, byteAt_memWrite_outside _ 6 2 i _ hi (by omega), byteAt_memWrite_outside _ 3 1 i _ hi (by omega)]

theorem buildF506_indicator : byteAt (buildF506 p angle).data 0 = indicatorCode p.wc (indicatorOf angle) :=
  byteAt_memWrite_byte _ 0 _ (by omega)

theorem buildF506_template (i : Nat) (hi : i < 8) (h0 : i ≠ 0) :
    byteAt (buildF506 p angle).data i = byteAt p.wc.tpl506 i :=
  byteAt_memWrite_outside _ 0 1 i _ hi (by omega)

end

/-- The three indicator codes of legal wire constants differ (R10). -/
theorem indicatorCode_eq_iff (w : WireConstants) (i j : Indicator) :
    indicatorCode w i = indicatorCode w j ↔ i = j := by
  obtain ⟨hne, hleft, hright, _⟩ := (wireFields_wf_iff _).mp w.legal
  have hleft0 : w.indLeft ≠ 0#8 := hleft
  have hright0 : w.indRight ≠ 0#8 := hright
  cases i <;> cases j <;> simp [indicatorCode, hne, hne.symm, hleft0, hleft0.symm, hright0, hright0.symm]

/-- Settles O23: the payloads are the templates themselves. -/
theorem constantFrames : Obligations.ConstantFrames := fun s =>
  ⟨⟨_, exec_encF501 s, ⟨rfl, rfl, rfl⟩, fun _ _ => rfl⟩, ⟨_, exec_encF503 s, ⟨rfl, rfl, rfl⟩, fun _ _ => rfl⟩⟩

/-- Settles O24: one word written to the template. -/
theorem steeringFrame : Obligations.SteeringFrame := fun s =>
  ⟨_, exec_encF502 s, ⟨rfl, rfl, rfl⟩, buildF502_field .., buildF502_template _ _⟩

/-- Settles O25: a byte and a word written to the template, the byte by the three cases of the gear. -/
theorem driveFrame : Obligations.DriveFrame := by
  intro s
  refine ⟨_, exec_encF504 s, ⟨rfl, rfl, rfl⟩, fun h => ?_, fun h => ?_, fun h h0 => ?_, buildF504_field ..,
    buildF504_template _ _ _⟩ <;> rw [buildF504_gear]
  · rw [(gearOf_eq_reverse_iff ..).mpr h, gearCode]
  · rw [(gearOf_eq_neutral_iff ..).mpr h, gearCode]
  · rw [(gearOf_eq_drive_iff ..).mpr ⟨h, h0⟩, gearCode]

/-- Settles O26: a byte written to the template, by the three cases of the indicator; the byte tells the indicator, and
the indicator tells the sign. -/
theorem indicatorFrame : Obligations.IndicatorFrame := by
  refine ⟨fun s => ⟨_, exec_encF506 s, ⟨rfl, rfl, rfl⟩, fun h => ?_, fun h => ?_, fun h => ?_, buildF506_template _ _⟩,
    fun p a b => ?_⟩
  · rw [buildF506_indicator, (indicatorOf_eq_none_iff _).mpr h]
    rfl
  · rw [buildF506_indicator, (indicatorOf_eq_left_iff _).mpr h, indicatorCode]
  · rw [buildF506_indicator, (indicatorOf_eq_right_iff _).mpr h, indicatorCode]
  · rw [buildF506_indicator, buildF506_indicator, indicatorCode_eq_iff, indicatorOf_eq_iff]

/-! ## The set -/

section
variable (p : Params) (speed angle : Centi)

theorem encodeSet_zero : (encodeSet p speed angle)[0]? = some (buildF501 p) := rfl
theorem encodeSet_one : (encodeSet p speed angle)[1]? = some (buildF502 p angle) := rfl
theorem encodeSet_two : (encodeSet p speed angle)[2]? = some (buildF503 p) := rfl
theorem encodeSet_three : (encodeSet p speed angle)[3]? = some (buildF504 p speed angle) := rfl
theorem encodeSet_four : (encodeSet p speed angle)[4]? = some (buildF506 p angle) := rfl

theorem map_id_encodeSet :
    (encodeSet p speed angle).map TxFrame.id = [0x501#29, 0x502#29, 0x503#29, 0x504#29, 0x506#29] := rfl

end

theorem buildF504_congr (p : Params) (speed : Centi) {a b : Centi} (h : a = 0 ↔ b = 0) :
    buildF504 p speed a = buildF504 p speed b := by
  rw [buildF504, buildF504, gearOf_congr speed h]

theorem buildF506_congr (p : Params) {a b : Centi} (h : a.toInt.sign = b.toInt.sign) :
    buildF506 p a = buildF506 p b := by
  rw [buildF506, buildF506, (indicatorOf_eq_iff a b).mpr h]

/-- The angle 0 is 300 in the steering field, the offset of 30.00 degrees (R154, R168). -/
theorem buildF502_field_zero (p : Params) : wireWord (buildF502 p 0).data 4 = 300 := by
  have hstrf : rdiv10 p.roundTie ((0 : Centi).toInt + 3000) = 300 := by cases p.roundTie <;> rfl
  have hfield := buildF502_field p 0
  rw [hstrf] at hfield
  omega

theorem buildF504_field_zero (p : Params) (angle : Centi) : wireWord (buildF504 p 0 angle).data 6 = 0 := by
  have hspdf : rdiv10 p.roundTie (((0 : Centi).toInt.natAbs : Nat) : Int) = 0 := by cases p.roundTie <;> rfl
  have hfield := buildF504_field p 0 angle
  rw [hspdf] at hfield
  omega

/-- Settles O27: frame by frame, the builder's arguments; and the set of a stop by the fields and codes at zero. -/
theorem framesDependOnTheirFields : Obligations.FramesDependOnTheirFields := by
  refine ⟨fun p speed angle speed' angle' => ⟨?_, ?_, ?_, ?_, ?_⟩, fun p => ⟨?_, ?_, ?_, ?_⟩⟩
  · rw [encodeSet_zero, encodeSet_zero]
  · rw [encodeSet_two, encodeSet_two]
  · rintro rfl
    rw [encodeSet_one, encodeSet_one]
  · intro h
    rw [encodeSet_four, encodeSet_four, buildF506_congr p h]
  · rintro rfl h
    rw [encodeSet_three, encodeSet_three, buildF504_congr p speed h]
  · exact buildF502_field_zero p
  · exact buildF504_field_zero p 0
  · rw [buildF504_gear, (gearOf_eq_neutral_iff 0 0).mpr ⟨rfl, rfl⟩, gearCode]
  · rw [buildF506_indicator, (indicatorOf_eq_none_iff 0).mpr rfl]
    rfl

/-- Settles O28: the port of a step is `txOut` of the state it starts from, in reset cycles too. -/
theorem offeredFrames : Obligations.OfferedFrames := by
  refine ⟨map_id_encodeSet, fun s t hst => ?_⟩
  obtain ⟨_, _, _, _, _, _, _, htx, _⟩ := step_parts s t hst
  rw [htx, txOut]
  exact ⟨fun h => if_neg h, fun h => if_pos h⟩

end Sys2Proof.Machine
end

