-- ==== Sys2Proof/Proofs/Scheduler.lean ====
section
/-! PROOFS. The scheduler statements (`42_scheduler.md`): what each command and event does to the registers (R193 to
R204), what a cycle does to the trigger and the log (R191, R199, R205), the agreement of a run with the event level
(R188, R208), and timing (R183, R191, R209, R265). -/

namespace Sys2Proof.Machine

/-! ## What the operations of the family answer -/

section
variable {s : State} (speed angle : Centi)

theorem commandOp_of_wait (accept : Regs → Regs) (hw : s.regs.seq = seqWait) :
    commandOp accept s = s.withRegs (accept s.regs) := by
  rcases commandOp_cases accept s with ⟨_, h⟩ | ⟨hb, _⟩
  · exact h
  · exact absurd hw hb

theorem commandOp_of_busy (accept : Regs → Regs) (hb : s.regs.seq ≠ seqWait) : commandOp accept s = s := by
  rcases commandOp_cases accept s with ⟨hw, _⟩ | ⟨_, h⟩
  · exact absurd hw hb
  · exact h

theorem exec_start : exec (.start speed angle) s = .next (commandOp (acceptStart s.params speed angle) s) := rfl

theorem exec_update : exec (.update speed angle) s = .next (commandOp (acceptUpdate s.params speed angle) s) := rfl

theorem exec_stop : exec (.stop speed angle) s = .next (commandOp (acceptStop s.params) s) := rfl

theorem exec_rsvd : exec (.rsvd speed angle) s = .next (commandOp (acceptRsvd s.params) s) := rfl

theorem exec_tick_of_due (h : tickWord s = 3#2) : exec .tick s = .next (s.withRegs (serviceTick s.params s.regs)) :=
  if_pos h

theorem exec_tick_of_notDue (h : tickWord s ≠ 3#2) : exec .tick s = .refused .notEnabled := if_neg h

theorem exec_burstSend_taken {fr : TxFrame} (hs : s.regs.seq = seqSend) (hy : s.pins.txReady = true)
    (hf : frameAt s.params s.regs.bcmdSpeed s.regs.bcmdAngle s.regs.burstIdx = some fr) :
    exec .burstSend s =
      .next ((s.logged fr).withRegs (frameTaken s.params s.pins.txErr (countCycle s.params s.regs))) := by
  simp [exec, execBurstSend, hs, hf, hy]

theorem exec_burstSend_stalled {fr : TxFrame} (hs : s.regs.seq = seqSend) (hy : s.pins.txReady = false)
    (hf : frameAt s.params s.regs.bcmdSpeed s.regs.bcmdAngle s.regs.burstIdx = some fr) :
    exec .burstSend s = .next (s.withRegs (countCycle s.params s.regs)) := by
  simp [exec, execBurstSend, hs, hf, hy]

theorem exec_burstSend_of_noFrame (hs : s.regs.seq = seqSend)
    (hf : frameAt s.params s.regs.bcmdSpeed s.regs.bcmdAngle s.regs.burstIdx = none) :
    exec .burstSend s = .fault .illegalBurstIndex := by
  simp [exec, execBurstSend, hs, hf]

theorem exec_burstSend_of_ne (hs : s.regs.seq ≠ seqSend) : exec .burstSend s = .refused .notEnabled := if_neg hs

theorem exec_burstGap_of_gap (hs : s.regs.seq = seqGap) (hi : frameIndexOk s.regs.burstIdx = true) :
    exec .burstGap s = .next (s.withRegs (gapStep s.params (countCycle s.params s.regs))) := by
  simp [exec, execBurstGap, hs, hi]

theorem exec_burstGap_of_badIndex (hs : s.regs.seq = seqGap) (hi : frameIndexOk s.regs.burstIdx = false) :
    exec .burstGap s = .fault .illegalBurstIndex := by
  simp [exec, execBurstGap, hs, hi]

theorem exec_burstGap_of_ne (hs : s.regs.seq ≠ seqGap) : exec .burstGap s = .refused .notEnabled := if_neg hs

end

theorem frameIndexOk_of_le {idx : BitVec 3} (h : idx.toNat ≤ 4) : frameIndexOk idx = true :=
  decide_eq_true (Nat.lt_succ_of_le h)

theorem frameIndexOk_of_ge {idx : BitVec 3} (h : 5 ≤ idx.toNat) : frameIndexOk idx = false :=
  decide_eq_false (Nat.not_lt.mpr h)

/-- The five frames end at index 4 (R25). -/
theorem frameAt_of_ge (p : Params) (speed angle : Centi) {idx : BitVec 3} (h : 5 ≤ idx.toNat) :
    frameAt p speed angle idx = none := List.getElem?_eq_none h

/-! ## The register transfers in the terms of the statements -/

theorem acceptUpdate_of_active (p : Params) (speed angle : Centi) {r : Regs} (h : r.st = .active) :
    acceptUpdate p speed angle r = { countCycle p r with cmdSpeed := speed, cmdAngle := angle } := by
  simp only [acceptUpdate, h]

theorem acceptUpdate_of_idle (p : Params) (speed angle : Centi) {r : Regs} (h : r.st = .idle) :
    acceptUpdate p speed angle r = { countCycle p r with flags := raiseFlag .cmdIgn r.flags } := by
  simp only [acceptUpdate, h]

theorem acceptStop_of_active (p : Params) {r : Regs} (h : r.st = .active) :
    acceptStop p r = burstBegin p 0 0 { r with st := .idle, timer := timerNext p r, tickPend := false } := by
  simp only [acceptStop, h]

theorem acceptStop_of_idle (p : Params) {r : Regs} (h : r.st = .idle) :
    acceptStop p r = { countCycle p r with flags := raiseFlag .cmdIgn r.flags } := by
  simp only [acceptStop, h]

/-- In IDLE no tick falls, so the pending bit stays (R191, R205). -/
theorem pendOf_of_idle {r : Regs} (h : r.st = .idle) : pendOf r = r.tickPend := by
  simp [pendOf, tickNow, h]

/-- A burst begin is a burst begun, over any earlier registers with the same flags. -/
theorem burstBegun_burstBegin (p : Params) (speed angle : Centi) {q r : Regs} (h : r.flags = q.flags) :
    BurstBegun p speed angle q (burstBegin p speed angle r) :=
  ⟨rfl, rfl, rfl, rfl, h ▸ burstFlags_overflowFlags p.roundTie speed angle r.flags⟩

theorem movesOn_nextFrame {q r : Regs} (h : r.burstIdx = q.burstIdx) (hi : q.burstIdx.toNat ≤ 4) :
    MovesOn q (nextFrame r) := by
  have hsucc : ∀ i : BitVec 3, i.toNat ≤ 4 → (i + 1#3).toNat = i.toNat + 1 := by decide
  rcases nextFrame_cases r with ⟨h4, e⟩ | ⟨h4, e⟩ <;> rw [e]
  · exact ⟨fun _ => ⟨rfl, h4⟩, fun hne => absurd (h ▸ h4) hne⟩
  · exact ⟨fun h' => absurd (h.trans h') h4, fun _ => ⟨rfl, by simp only [h, hsucc _ hi]⟩⟩

/-- The position after a taken frame where there are gaps (R199). -/
theorem frameTaken_of_gap {p : Params} (err : Bool) (r : Regs) (h : 0 < p.gapCycles) :
    (frameTaken p err r).seq = seqGap ∧ (frameTaken p err r).gapCnt = p.gapCycles ∧
      (frameTaken p err r).burstIdx = r.burstIdx := by
  rcases frameTaken_cases p err r with ⟨_, e⟩ | ⟨h0, _⟩
  · rw [e]
    exact ⟨rfl, rfl, rfl⟩
  · omega

/-- The position after a taken frame where there are none (R202). -/
theorem frameTaken_of_noGap {p : Params} (err : Bool) {q r : Regs} (h : p.gapCycles = 0)
    (hidx : r.burstIdx = q.burstIdx) (hi : q.burstIdx.toNat ≤ 4) :
    (frameTaken p err r).gapCnt = r.gapCnt ∧ MovesOn q (frameTaken p err r) := by
  rcases frameTaken_cases p err r with ⟨h0, _⟩ | ⟨_, e⟩
  · omega
  · rw [e]
    exact ⟨nextFrame_gapCnt _, movesOn_nextFrame hidx hi⟩

/-- The last cycle of a gap (R200, R201). -/
theorem gapStep_of_last (p : Params) {q r : Regs} (h : r.gapCnt = 1) (hidx : r.burstIdx = q.burstIdx)
    (hi : q.burstIdx.toNat ≤ 4) : (gapStep p r).gapCnt = 1 ∧ MovesOn q (gapStep p r) := by
  rcases gapStep_cases p r with ⟨_, e⟩ | ⟨hne, _⟩
  · rw [e]
    exact ⟨(nextFrame_gapCnt r).trans h, movesOn_nextFrame hidx hi⟩
  · exact absurd h hne

/-- A gap cycle before the last (R200). -/
theorem gapStep_of_counting (p : Params) {r : Regs} (h : r.gapCnt ≠ 1) :
    gapStep p r = { r with gapCnt := decrement p.gapW r.gapCnt } := by
  rcases gapStep_cases p r with ⟨h1, _⟩ | ⟨_, e⟩
  · exact absurd h1 h
  · exact e

/-! ## The commands and events -/

/-- Settles O29: START is a burst begin over the registers it loads. -/
theorem startAccepted : Obligations.StartAccepted := fun s speed angle hw =>
  ⟨acceptStart s.params speed angle s.regs, by rw [exec_start, commandOp_of_wait _ hw], rfl, rfl, rfl, rfl, rfl, rfl,
    burstBegun_burstBegin _ _ _ rfl⟩

/-- Settles O30, by `ST`: a new stored command in ACTIVE, a flag in IDLE, over a cycle that counts. -/
theorem updateAccepted : Obligations.UpdateAccepted := by
  intro s speed angle hw
  refine ⟨acceptUpdate s.params speed angle s.regs, by rw [exec_update, commandOp_of_wait _ hw], ?_⟩
  cases hst : s.regs.st with
  | active =>
    rw [acceptUpdate_of_active _ _ _ hst]
    exact ⟨⟨rfl, rfl, rfl, rfl, rfl⟩, hst, timerCounts_of _ _ _ rfl, pendOf_iff _, fun _ => ⟨rfl, rfl, rfl⟩, nofun⟩
  | idle =>
    rw [acceptUpdate_of_idle _ _ _ hst]
    exact ⟨⟨rfl, rfl, rfl, rfl, rfl⟩, hst, timerCounts_of _ _ _ rfl, pendOf_iff _, nofun,
      fun _ => ⟨⟨rfl, rfl, rfl⟩, pendOf_of_idle hst, raises_raiseFlag _ _⟩⟩

/-- Settles O31, by `ST`: a burst of the zero command in ACTIVE, which overflows nothing, and a flag in IDLE. -/
theorem stopAccepted : Obligations.StopAccepted := by
  intro s speed angle hw
  refine ⟨acceptStop s.params s.regs, by rw [exec_stop, commandOp_of_wait _ hw], ?_⟩
  cases hst : s.regs.st with
  | active =>
    rw [acceptStop_of_active _ hst]
    exact ⟨rfl, rfl, rfl, rfl, timerCounts_of _ _ _ rfl,
      fun _ => ⟨rfl, burstBegun_burstBegin _ _ _ rfl, overflowFlags_zero s.params.roundTie s.regs.flags⟩, nofun⟩
  | idle =>
    rw [acceptStop_of_idle _ hst]
    exact ⟨rfl, rfl, rfl, hst, timerCounts_of _ _ _ rfl, nofun,
      fun _ => ⟨⟨rfl, rfl, rfl, rfl, rfl⟩, pendOf_of_idle hst, raises_raiseFlag _ _⟩⟩

/-- Settles O32: RSVD is a counting cycle with a flag. -/
theorem rsvdAccepted : Obligations.RsvdAccepted := fun s speed angle hw =>
  ⟨acceptRsvd s.params s.regs, by rw [exec_rsvd, commandOp_of_wait _ hw], ⟨rfl, rfl, rfl, rfl, rfl⟩, ⟨rfl, rfl, rfl⟩,
    timerCounts_of _ _ _ rfl, pendOf_iff _, raises_raiseFlag _ _⟩

/-- Settles O34: TICK is a burst begin of the stored command. -/
theorem tickServiced : Obligations.TickServiced := fun s hw hc ha hp =>
  ⟨serviceTick s.params s.regs, exec_tick_of_due ((tickWord_iff s).mpr ⟨ha, hw, hc, hp⟩), ⟨rfl, rfl, rfl⟩,
    timerCounts_of _ _ _ rfl, rfl, rfl, burstBegun_burstBegin _ _ _ rfl⟩

/-- Settles O35: the frame at a legal index exists; taken, it is followed by a gap or the next frame, and otherwise the
cycle only counts. -/
theorem burstSendTakesTheFrameOrWaits : Obligations.BurstSendTakesTheFrameOrWaits := by
  intro s hs hi
  obtain ⟨fr, hf⟩ := frameAt_some s.params s.regs.bcmdSpeed s.regs.bcmdAngle _ (frameIndexOk_of_le hi)
  refine ⟨fun hy => ?_, fun hy => ?_⟩
  · obtain ⟨hst, hcs, hca, htimer, hpend, hbs, hba, hflags⟩ :=
      frameTaken_frame s.params s.pins.txErr (countCycle s.params s.regs)
    refine ⟨fr, _, hf, exec_burstSend_taken hs hy hf, ⟨hst, hcs, hca⟩, timerCounts_of _ _ _ htimer,
      hpend ▸ pendOf_iff _, hbs, hba, fun he => ?_, fun he => ?_, frameTaken_of_gap _ _,
      fun h0 => frameTaken_of_noGap _ h0 rfl hi⟩
    · rw [hflags, he]
      exact raises_raiseFlag _ _
    · rw [hflags, he]
      rfl
  · exact ⟨_, exec_burstSend_stalled hs hy hf, ⟨rfl, rfl, rfl, rfl, rfl⟩, ⟨rfl, rfl, rfl⟩, timerCounts_of _ _ _ rfl,
      pendOf_iff _, rfl⟩

/-- Settles O36, by whether the gap is in its last cycle. -/
theorem burstGapCounts : Obligations.BurstGapCounts := by
  intro s hs hi
  obtain ⟨hst, hcs, hca, htimer, hpend, hbs, hba, hflags⟩ :=
    gapStep_frame s.params (countCycle s.params s.regs)
  refine ⟨_, exec_burstGap_of_gap hs (frameIndexOk_of_le hi), ⟨hst, hcs, hca⟩, timerCounts_of _ _ _ htimer,
    hpend ▸ pendOf_iff _, hflags, hbs, hba, fun h1 => gapStep_of_last _ h1 rfl hi, fun h1 => ?_⟩
  rw [gapStep_of_counting (r := countCycle s.params s.regs) _ h1]
  exact ⟨countsDown_decrement _ _, rfl, rfl⟩

/-! ## Commands during a burst -/

/-- What a step depends on besides the state without its input ports. -/
theorem step_withPins_eq {s : State} {q : Pins} (hf : startStateFault (s.withPins q) = startStateFault s)
    (hd : decOut q = decOut s.pins) (hn : nextRegs (s.withPins q) = nextRegs s)
    (ht : takenFrame (s.withPins q) = takenFrame s) : step (s.withPins q) = step s := by
  cases hs : startStateFault s with
  | some f => simp only [step, clockCycle, hf, hs]
  | none =>
    have he : endCycle (afterCycle (s.withPins q)) = endCycle (afterCycle s) := by
      simp only [endCycle, afterCycle, nextPins, hn, ht, State.withPins_pins, hd]
      rfl
    rw [step_eq s hs, step_eq _ (hf.trans hs), he]

/-- Settles O33: in a burst neither the operations nor the registers after a cycle read the command port; and the word
is read only with `cmd_valid`. -/
theorem commandsAreHeldDuringABurst : Obligations.CommandsAreHeldDuringABurst := by
  refine ⟨fun s speed angle hb => ?_, fun s v w hb => ?_, fun s w hc => ?_⟩
  · rw [exec_start, exec_update, exec_stop, exec_rsvd]
    simp only [commandOp_of_busy _ hb, and_self]
  · exact step_withPins_eq rfl rfl (by simp only [nextRegs, State.withPins_regs, hb, if_false]; rfl) rfl
  · exact step_withPins_eq rfl rfl (by simp [nextRegs, hc, tickWord, tickDue]) rfl

/-! ## Outside their condition -/

theorem step_of_fault {s : State} {f : Fault} (h : startStateFault s = some f) : step s = .fault f := by
  simp only [step, clockCycle, h]

/-- Settles O38: each operation by its equation for that case, and the step by the fault of its start state. -/
theorem eventsOutsideTheirCondition : Obligations.EventsOutsideTheirCondition := by
  intro s
  refine ⟨fun h => exec_tick_of_notDue fun ht => ?_, exec_burstSend_of_ne,
    fun hs hi => exec_burstSend_of_noFrame hs (frameAt_of_ge _ _ _ hi), exec_burstGap_of_ne,
    fun hs hi => exec_burstGap_of_badIndex hs (frameIndexOk_of_ge hi), fun hr hs => step_of_fault ?_,
    fun hr hs hi => step_of_fault ?_⟩
  · obtain ⟨ha, hw, hc, hp⟩ := (tickWord_iff s).mp ht
    simp [ha, hw, hc, hp] at h
  · simp [startStateFault, hr, hs, phaseOk]
  · rcases hs with hs | hs <;> simp [startStateFault, hr, hs, phaseOk, frameIndexOk_of_ge hi]

/-! ## A step as the operations its select words decode to -/

/-- Whatever select words decode to is well formed (R96 to R99). -/
theorem wf_of_decodeAll {ws : List OpWord} {is : List Instr} (h : decodeAll ws = .ok is) : ∀ i ∈ is, i.wf = true := by
  induction ws generalizing is with
  | nil =>
    obtain rfl : [] = is := Except.ok.inj h
    simp
  | cons w ws ih =>
    simp only [decodeAll] at h
    split at h
    · simp at h
    next i hi =>
      split at h
      · simp at h
      next js hjs =>
        obtain rfl : i :: js = is := Except.ok.inj h
        obtain ⟨hwf, _⟩ := encodeOfDecode w i hi
        exact List.forall_mem_cons.mpr ⟨hwf, ih hjs⟩

/-- The words of every legal start state decode (R99, R229). -/
theorem decodeAll_fetch_eq_ok {s : State} (h : startStateFault s = none) : ∃ is, decodeAll (fetch s) = .ok is := by
  obtain ⟨ds, hd⟩ : ∃ ds, decodeAll (fetchDecoder s.pins) = .ok ds := by
    cases hv : s.pins.rxValid with
    | true => exact ⟨_, decodeAll_fetchDecoder _ hv⟩
    | false => exact ⟨[], by simp [fetchDecoder, hv, decodeAll]⟩
  exact ⟨_, decodeAll_append _ _ _ _ (decodeAll_append _ _ _ _ hd (decodeAll_fetchEncoder s h))
    (decodeAll_fetchScheduler s h)⟩

theorem step_eq_runCycle {s : State} {is : List Instr} (h : startStateFault s = none)
    (hd : decodeAll (fetch s) = .ok is) : step s = runCycle s is := by
  simp only [step, clockCycle, h, hd]

/-- Without an inbound frame a cycle runs the encoder's operations and the scheduler's (R143, R190). -/
theorem step_of_noInbound {s : State} (h : startStateFault s = none) (hv : s.pins.rxValid = false) :
    step s = runCycle s (encoderOps s ++ schedulerOps s) := by
  refine step_eq_runCycle h ?_
  have hfetch : fetch s = fetchEncoder s ++ fetchScheduler s := by simp [fetch, fetchDecoder, hv]
  rw [hfetch]
  exact decodeAll_append _ _ _ _ (decodeAll_fetchEncoder s h) (decodeAll_fetchScheduler s h)

theorem encoderOps_of_ne_send {s : State} (hs : s.regs.seq ≠ seqSend) : encoderOps s = [] := if_neg hs

theorem runCycle_of_schedulerOp {s : State} {i : Instr} (h : startStateFault s = none) (hi : schedulerOps s = [i])
    (is : List Instr) : runCycle s is = finish (runAll is (beginCycle s)) := by
  have hne : (fetchScheduler s).isEmpty = false := by rw [fetchScheduler_isEmpty s h, hi, List.isEmpty_cons]
  cases hx : runAll is (beginCycle s) <;> simp [runCycle, finish, hx, hne]

/-- A cycle outside SEND with one scheduler operation is that operation, carried to the end of the cycle. -/
theorem step_eq_finish_exec {s : State} {i : Instr} (h : startStateFault s = none) (hv : s.pins.rxValid = false)
    (hs : s.regs.seq ≠ seqSend) (hi : schedulerOps s = [i]) : step s = finish (exec i (beginCycle s)) := by
  rw [step_of_noInbound h hv, runCycle_of_schedulerOp h hi, encoderOps_of_ne_send hs, hi, List.nil_append, runAll_one]

/-- A cycle without an operation only counts the trigger (R191). -/
theorem step_of_noOp {s : State} (h : startStateFault s = none) (hv : s.pins.rxValid = false)
    (hs : s.regs.seq ≠ seqSend) (hi : schedulerOps s = []) :
    step s = .next (endCycle (quietCycle (beginCycle s))) := by
  have he : (fetchScheduler s).isEmpty = true := by rw [fetchScheduler_isEmpty s h, hi, List.isEmpty_nil]
  rw [step_of_noInbound h hv, encoderOps_of_ne_send hs, hi, List.nil_append]
  simp [runCycle, runAll, he]

theorem startStateFault_of_wait {s : State} (hw : s.regs.seq = seqWait) : startStateFault s = none := by
  simp [startStateFault, hw, phaseOk]

/-- In a burst every legal index is a legal start state (R103). -/
theorem startStateFault_of_burst {s : State} (hs : s.regs.seq = seqSend ∨ s.regs.seq = seqGap)
    (hi : frameIndexOk s.regs.burstIdx = true) : startStateFault s = none := by
  rcases hs with hs | hs <;> simp [startStateFault, hs, hi, phaseOk]

theorem frameIndexOk_of_selectTx {idx : BitVec 3} {b : Instr} (h : selectTx idx = some b) :
    frameIndexOk idx = true := by
  have hall : ∀ i : BitVec 3, selectTx i ≠ none → frameIndexOk i = true := by decide
  exact hall idx (by simp [h])

/-- Settles O39: the words of a start state decode to well-formed operations; and for each kind of cycle, which
operations the two lists of the cycle hold. -/
theorem stepRunsTheDecodedOperations : Obligations.StepRunsTheDecodedOperations := by
  refine ⟨fun s h => ?_, fun s hv => ⟨fun hr hs => ?_, fun hr hw => ⟨fun i hi hc => ?_, fun i hi hc => ?_,
    fun ht hc _ => ?_⟩, fun hr hs hidx i hi => ?_, fun hr hs b i hb hi => ?_⟩⟩
  · obtain ⟨is, hd⟩ := decodeAll_fetch_eq_ok h
    exact ⟨is, hd, wf_of_decodeAll hd, step_eq_runCycle h hd⟩
  · exact step_eq_finish_exec (startStateFault_of_rst hr) hv hs (by simp [schedulerOps, hr])
  · obtain rfl : selectCommand s.pins.cmd = i := Except.ok.inj hi
    exact step_eq_finish_exec (startStateFault_of_wait hw) hv (by simp [hw]) (by simp [schedulerOps, hr, hw, hc])
  · obtain ⟨ht, rfl⟩ := decode_tick_eq_ok hi
    exact step_eq_finish_exec (startStateFault_of_wait hw) hv (by simp [hw]) (by simp [schedulerOps, hr, hw, hc, ht])
  · exact step_of_noOp (startStateFault_of_wait hw) hv (by simp [hw]) (by simp [schedulerOps, hr, hw, hc, ht])
  · have hf := startStateFault_of_burst (.inr hs) (frameIndexOk_of_le hidx)
    obtain rfl : .burstGap = i := Except.ok.inj (hs ▸ hi)
    exact step_eq_finish_exec hf hv (by simp [hs]) (by simp [schedulerOps, hr, hs])
  · have hsel := (decode_txf_eq_ok_iff _ _).mp hb
    have hf := startStateFault_of_burst (.inl hs) (frameIndexOk_of_selectTx hsel)
    obtain rfl : .burstSend = i := Except.ok.inj (hs ▸ hi)
    have hsched : schedulerOps s = [.burstSend] := by simp [schedulerOps, hr, hs]
    rw [step_of_noInbound hf hv, runCycle_of_schedulerOp hf hsched, hsched]
    simp [encoderOps, hs, hsel]

/-! ## The trigger and the log in a cycle -/

/-- The pending bit after a cycle: the tick of the cycle, unless the cycle drops, cancels or services it (R205). -/
theorem CycleKind.tickPend_iff {s : State} {r : Regs} (hk : CycleKind s r) (h : Inv s.params s.regs) :
    r.tickPend = true ↔
      Pending s.regs ∧ ¬Accepts s 0#2 ∧ ¬(Accepts s 2#2 ∧ s.regs.st = .active) ∧ ¬ServicesTick s := by
  cases hk with
  | start ha => exact iff_of_false nofun fun ⟨_, hn, _⟩ => hn ha
  | stop ha hst => exact iff_of_false nofun fun ⟨_, _, hn, _⟩ => hn ⟨ha, hst⟩
  | tick ht _ => exact iff_of_false nofun fun ⟨_, _, _, hn⟩ => hn ht
  | update ha _ => simp [pendOf_iff, ha.iff_eq, ha.not_servicesTick]
  | ignored ha hst =>
    have ⟨h0, ht⟩ : ¬Accepts s 0#2 ∧ ¬ServicesTick s := by
      rcases ha with ha | ha <;> exact ⟨by simp [ha.iff_eq], ha.not_servicesTick⟩
    simp [pendOf_iff, hst, h0, ht]
  | rsvd ha => simp [acceptRsvd, pendOf_iff, ha.iff_eq, ha.not_servicesTick]
  | quiet hw hc hn =>
    have ht : ¬ServicesTick s := fun ht => hn ⟨h.active_of_servicesTick ht, ht.pending⟩
    simp [pendOf_iff, not_accepts_of_noCommand hc, ht]
  | taken ht =>
    obtain ⟨_, _, _, _, hp, _⟩ := frameTaken_frame s.params s.pins.txErr (countCycle s.params s.regs)
    simp [hp, pendOf_iff, Accepts, ServicesTick, ht.send]
  | stalled hs _ => simp [pendOf_iff, Accepts, ServicesTick, hs]
  | gap hs =>
    obtain ⟨_, _, _, _, hp, _⟩ := gapStep_frame s.params (countCycle s.params s.regs)
    simp [hp, pendOf_iff, Accepts, ServicesTick, hs]

/-- Settles O46: the timer by `nextRegs_timer`, the pending bit by the kind of the cycle. -/
theorem timerAndPendingTick : Obligations.TimerAndPendingTick := by
  intro s t hg h hr
  have hk := cycleKind_of_step h hr
  obtain ⟨_, hregs, _⟩ := step_parts s t h
  refine ⟨fun ha => ?_, fun hn => ?_, hk.tickPend_iff hg⟩
  · obtain ⟨_, hw, hc, hop⟩ := ha
    simp [hregs, nextRegs, hr, hw, hc, commandRegs, hop]
  · obtain ⟨ha, _⟩ | e := nextRegs_timer s hr
    · exact absurd ha hn
    · exact timerCounts_of _ _ _ (hregs ▸ e)

theorem takenFrame_of_takes {s : State} (h : TakesFrame s) :
    takenFrame s = frameAt s.params s.regs.bcmdSpeed s.regs.bcmdAngle s.regs.burstIdx := if_pos h

theorem takenFrame_of_not_takes {s : State} (h : ¬TakesFrame s) : takenFrame s = none := if_neg h

/-- Settles O47: the frame taken is the frame at the port. -/
theorem logGrowsByTheTakenFrames : Obligations.LogGrowsByTheTakenFrames := by
  intro s t h
  obtain ⟨hf, _⟩ := step_next s t h
  obtain ⟨hp, _, _, _, _, _, _, htx, hlog⟩ := step_parts s t h
  refine ⟨hp, fun hn => ?_, fun ht => ?_⟩
  · rw [hlog, takenFrame_of_not_takes hn, Option.toList_none, List.append_nil]
  · have htaken := takenFrame_of_takes ht
    obtain ⟨hr, hs, _⟩ := ht
    obtain ⟨fr, hfr⟩ := txOut_of_send hf hr hs
    have hat : frameAt s.params s.regs.bcmdSpeed s.regs.bcmdAngle s.regs.burstIdx = some fr :=
      (if_pos hs).symm.trans hfr
    exact ⟨fr, hat, htx.trans hfr, by rw [hlog, htaken, hat, Option.toList_some]⟩

/-! ## The event level -/

/-- One event: the next `ST`, and one set for each START, each STOP in Active and each TICK (R181 to R184, R187). -/
theorem eventStep_counts {p : Params} {failed : Bool} {ev : Event} {e e' : EventState}
    (h : eventStep p failed ev e = some e') :
    e'.st = stAfter e.st ev ∧ ∃ added, e'.log = e.log ++ added ∧ added.length = 5 * setsOf e.st ev := by
  cases ev with
  | start speed angle =>
    obtain rfl := Option.some.inj h
    exact ⟨rfl, encodeSet p speed angle, rfl, rfl⟩
  | rsvd =>
    obtain rfl := Option.some.inj h
    exact ⟨rfl, [], by simp, rfl⟩
  | update speed angle =>
    cases hst : e.st <;> simp only [eventStep, hst] at h <;> obtain rfl := Option.some.inj h
    all_goals exact ⟨rfl, [], by simp, rfl⟩
  | stop =>
    cases hst : e.st <;> simp only [eventStep, hst] at h <;> obtain rfl := Option.some.inj h
    · exact ⟨rfl, [], by simp, rfl⟩
    · exact ⟨rfl, encodeSet p 0 0, rfl, rfl⟩
  | tick =>
    cases hst : e.st <;> simp only [eventStep, hst] at h
    · simp at h
    · obtain rfl := Option.some.inj h
      exact ⟨hst, encodeSet p e.cmdSpeed e.cmdAngle, rfl, rfl⟩

theorem eventRun_cons_eq_some_iff {p : Params} {ev : Event} {failed : Bool} {rest : List (Event × Bool)}
    {e e' : EventState} :
    eventRun p ((ev, failed) :: rest) e = some e' ↔
      ∃ m, eventStep p failed ev e = some m ∧ eventRun p rest m = some e' := by
  cases h : eventStep p failed ev e <;> simp [eventRun, h]

/-- R188 for a run of any length. -/
theorem eventRun_counts {p : Params} {evs : List (Event × Bool)} {e e' : EventState} (h : eventRun p evs e = some e') :
    ∃ added, e'.log = e.log ++ added ∧ added.length = 5 * setsOfRun e.st evs := by
  induction evs generalizing e with
  | nil =>
    obtain rfl : e = e' := Option.some.inj h
    exact ⟨[], by simp, rfl⟩
  | cons ev rest ih =>
    obtain ⟨ev, failed⟩ := ev
    obtain ⟨m, hm, hrest⟩ := eventRun_cons_eq_some_iff.mp h
    obtain ⟨hst, first, hlog, hlen⟩ := eventStep_counts hm
    obtain ⟨others, hlog', hlen'⟩ := ih hrest
    refine ⟨first ++ others, by rw [hlog', hlog, List.append_assoc], ?_⟩
    rw [List.length_append, hlen, hlen', hst, setsOfRun, Nat.mul_add]

/-- Settles O52: the count by induction on the run, and the two events START and STOP evaluated. -/
theorem eventRunsCountSets : Obligations.EventRunsCountSets := by
  refine ⟨fun p evs e e' => eventRun_counts, fun p speed angle a b e _ => ⟨_, rfl, rfl, ?_⟩⟩
  exact List.append_assoc _ _ _

/-! ## The burst in progress, counted as sent -/

section
variable {p : Params} {r : Regs}

theorem framesToCome_of_wait (h : r.seq = seqWait) : framesToCome p r = [] := by
  simp [framesToCome, h]

theorem framesToCome_of_send (h : r.seq = seqSend) :
    framesToCome p r = (encodeSet p r.bcmdSpeed r.bcmdAngle).drop r.burstIdx.toNat := if_pos h

theorem framesToCome_of_gap (h : r.seq = seqGap) :
    framesToCome p r = (encodeSet p r.bcmdSpeed r.bcmdAngle).drop (r.burstIdx.toNat + 1) := by
  simp [framesToCome, h]

/-- After a frame and its gap the later frames are to come (R201). -/
theorem framesToCome_nextFrame (hi : r.burstIdx.toNat ≤ 4) :
    framesToCome p (nextFrame r) = (encodeSet p r.bcmdSpeed r.bcmdAngle).drop (r.burstIdx.toNat + 1) := by
  obtain ⟨_, _, _, _, _, hs, ha, _⟩ := nextFrame_frame r
  obtain ⟨hend, hnext⟩ := movesOn_nextFrame rfl hi
  by_cases h4 : r.burstIdx = 4#3
  · obtain ⟨hw, _⟩ := hend h4
    rw [framesToCome_of_wait hw, h4]
    rfl
  · obtain ⟨hsend, hidx⟩ := hnext h4
    rw [framesToCome_of_send hsend, hs, ha, hidx]

theorem framesToCome_frameTaken (err : Bool) (hi : r.burstIdx.toNat ≤ 4) :
    framesToCome p (frameTaken p err r) = (encodeSet p r.bcmdSpeed r.bcmdAngle).drop (r.burstIdx.toNat + 1) := by
  rcases frameTaken_cases p err r with ⟨_, e⟩ | ⟨_, e⟩ <;> rw [e]
  · exact framesToCome_of_gap rfl
  · exact framesToCome_nextFrame (r := { r with flags := raiseFlagIf err .txErr r.flags }) hi

theorem framesToCome_gapStep (hs : r.seq = seqGap) (hi : r.burstIdx.toNat ≤ 4) :
    framesToCome p (gapStep p r) = framesToCome p r := by
  rw [framesToCome_of_gap hs]
  rcases gapStep_cases p r with ⟨_, e⟩ | ⟨_, e⟩ <;> rw [e]
  · exact framesToCome_nextFrame hi
  · exact framesToCome_of_gap hs

/-- The frame at `BURST_IDX` is the first to come (R199). -/
theorem framesToCome_eq_cons {fr : TxFrame} (hs : r.seq = seqSend)
    (hf : frameAt p r.bcmdSpeed r.bcmdAngle r.burstIdx = some fr) :
    framesToCome p r = fr :: (encodeSet p r.bcmdSpeed r.bcmdAngle).drop (r.burstIdx.toNat + 1) := by
  obtain ⟨hlt, rfl⟩ := List.getElem?_eq_some_iff.mp hf
  rw [framesToCome_of_send hs, List.drop_eq_getElem_cons hlt]

end

theorem asEvent_of_wait {s : State} (hw : s.regs.seq = seqWait) :
    asEvent false s = { st := s.regs.st, cmdSpeed := s.regs.cmdSpeed, cmdAngle := s.regs.cmdAngle,
                        flags := s.regs.flags, log := s.log } := by
  rw [asEvent, framesToCome_of_wait hw, List.append_nil, raiseFlagIf, if_neg Bool.false_ne_true]

theorem raiseFlagIf_raiseFlagIf (a b : Bool) (c : FlagBit) (f : BitVec 5) :
    raiseFlagIf b c (raiseFlagIf a c f) = raiseFlagIf (a || b) c f := by
  refine flags_ext _ _ fun d => ?_
  simp only [flagSet_raiseFlagIf]
  cases a <;> cases b <;> simp

/-! ## A cycle as its event -/

theorem failsNow_of_not_takes {s : State} (h : ¬TakesFrame s) : failsNow s = false := by
  by_contra hf
  simp only [failsNow, Bool.not_eq_false, Bool.and_eq_true, Bool.not_eq_true', beq_iff_eq] at hf
  obtain ⟨⟨⟨hr, hs⟩, hy⟩, _⟩ := hf
  exact h ⟨hr, hs, hy⟩

theorem failsNow_of_takes {s : State} (h : TakesFrame s) : failsNow s = s.pins.txErr := by
  obtain ⟨hr, hs, hy⟩ := h
  simp [failsNow, hr, hs, hy]

theorem eventOf_of_busy {s : State} (h : s.regs.seq ≠ seqWait) : eventOf s = none := by
  simp [eventOf, h]

theorem Accepts.op {s : State} {a : BitVec 2} : Accepts s a → cwOp s.pins.cmd = a := fun ⟨_, _, _, h⟩ => h

theorem eventOf_of_accepts {s : State} {a : BitVec 2} (h : Accepts s a) :
    eventOf s = some (commandEvent s.pins.cmd) := by
  obtain ⟨hr, hw, hc, _⟩ := h
  simp [eventOf, hr, hw, hc]

theorem eventOf_servicesTick {s : State} (h : ServicesTick s) (ha : s.regs.st = .active) :
    eventOf s = some .tick := by
  obtain ⟨hr, hw, hc, hp⟩ := h
  simp [eventOf, hr, hw, hc, (tickWord_iff s).mpr ⟨ha, hw, hc, hp⟩]

theorem eventOf_of_quiet {s : State} (hc : s.pins.cmdValid = false) (hn : ¬(s.regs.st = .active ∧ Pending s.regs)) :
    eventOf s = none := by
  have ht : tickWord s ≠ 3#2 := fun ht => by
    obtain ⟨ha, _, _, hp⟩ := (tickWord_iff s).mp ht
    exact hn ⟨ha, hp⟩
  simp [eventOf, hc, ht]

/-- The event of an accepted command, by its `cmd_op` (R98, R208). -/
theorem eventOf_start {s : State} (h : Accepts s 0#2) :
    eventOf s = some (.start (cwSpeed s.pins.cmd) (cwAngle s.pins.cmd)) := by
  simp [eventOf_of_accepts h, commandEvent, h.op]

theorem eventOf_update {s : State} (h : Accepts s 1#2) :
    eventOf s = some (.update (cwSpeed s.pins.cmd) (cwAngle s.pins.cmd)) := by
  simp [eventOf_of_accepts h, commandEvent, h.op]

theorem eventOf_stop {s : State} (h : Accepts s 2#2) : eventOf s = some .stop := by
  simp [eventOf_of_accepts h, commandEvent, h.op]

theorem eventOf_rsvd {s : State} (h : Accepts s 3#2) : eventOf s = some .rsvd := by
  simp [eventOf_of_accepts h, commandEvent, h.op]

/-- A state that has just begun a burst, read at the event level: the whole burst is sent (R189, R197). -/
theorem asEvent_of_burstBegin {p : Params} {speed angle : Centi} {r : Regs} {t : State} (willFail : Bool)
    (hp : t.params = p) (hr : t.regs = burstBegin p speed angle r) :
    asEvent willFail t = eventBurst p speed angle willFail
      { st := r.st, cmdSpeed := r.cmdSpeed, cmdAngle := r.cmdAngle, flags := r.flags, log := t.log } := by
  rw [asEvent, hp, hr]
  rfl

/-- A cycle read at the event level (R208): no event and no change, where a frame of the cycle that fails is one that
was still to be taken before it; or one event, whose burst is all still to be taken after it. -/
def CycleRefines (s t : State) (willFail : Bool) : Prop :=
  (eventOf s = none ∧ asEvent willFail t = asEvent (failsNow s || willFail) s) ∨
    ∃ ev, eventOf s = some ev ∧ eventStep s.params willFail ev (asEvent false s) = some (asEvent willFail t)

/-- A cycle that is no event and takes no frame: the event level sees no change if the registers it reads, and what is
to come of the burst, are as before. -/
theorem cycleRefines_of_unchanged {s t : State} {r : Regs} (willFail : Bool) (h : step s = .next t) (hr : t.regs = r)
    (he : eventOf s = none) (hn : ¬TakesFrame s) (hst : r.st = s.regs.st) (hs : r.cmdSpeed = s.regs.cmdSpeed)
    (ha : r.cmdAngle = s.regs.cmdAngle) (hfl : r.flags = s.regs.flags)
    (hcome : framesToCome s.params r = framesToCome s.params s.regs) : CycleRefines s t willFail := by
  obtain ⟨hp, hkept, _⟩ := logGrowsByTheTakenFrames s t h
  refine .inl ⟨he, ?_⟩
  simp only [asEvent, hp, hr, hst, hs, ha, hfl, hkept hn, hcome, failsNow_of_not_takes hn, Bool.false_or]

/-- A cycle that takes a frame moves it from the frames to come to the log, and its failure from the failures to come to
TXERR (R199). -/
theorem cycleRefines_of_takes {s t : State} (willFail : Bool) (hi : s.regs.burstIdx.toNat ≤ 4) (ht : TakesFrame s)
    (h : step s = .next t) (hr : t.regs = frameTaken s.params s.pins.txErr (countCycle s.params s.regs)) :
    CycleRefines s t willFail := by
  obtain ⟨hp, _, hlog⟩ := logGrowsByTheTakenFrames s t h
  obtain ⟨fr, hfr, _, hlog⟩ := hlog ht
  obtain ⟨hst, hs, ha, _, _, _, _, hfl⟩ := frameTaken_frame s.params s.pins.txErr (countCycle s.params s.regs)
  refine .inl ⟨eventOf_of_busy (by simp [ht.send]), ?_⟩
  simp only [asEvent, hp, hr, hst, hs, ha, hfl, hlog, framesToCome_eq_cons ht.send hfr, countCycle_st,
    countCycle_cmdSpeed, countCycle_cmdAngle, countCycle_flags, raiseFlagIf_raiseFlagIf, failsNow_of_takes ht,
    List.append_assoc, List.singleton_append]
  rw [framesToCome_frameTaken (r := countCycle s.params s.regs) _ hi]
  rfl

/-- R208 for every cycle without reset, by its kind: an event either begins a burst, all of which is then to come, or
leads from WAIT to WAIT, where nothing is to come. -/
theorem cycleRefines_of_step {s t : State} {willFail : Bool} (hg : s.Good) (hrst : s.pins.rst = false)
    (h : step s = .next t) (hwait : t.regs.seq = seqWait → willFail = false) : CycleRefines s t willFail := by
  have hk := cycleKind_of_step h hrst
  obtain ⟨hp, hkept, _⟩ := logGrowsByTheTakenFrames s t h
  have hlog : s.regs.seq = seqWait → t.log = s.log := fun hw => hkept (not_takesFrame_of_wait hw)
  generalize hr : t.regs = r at hk
  cases hk with
  | start ha =>
    refine .inr ⟨_, eventOf_start ha, ?_⟩
    rw [asEvent_of_burstBegin willFail hp hr, asEvent_of_wait ha.wait, hlog ha.wait]
    rfl
  | stop ha hst =>
    refine .inr ⟨_, eventOf_stop ha, ?_⟩
    rw [asEvent_of_burstBegin willFail hp hr, asEvent_of_wait ha.wait, hlog ha.wait]
    simp [eventStep, hst, eventBurst]
  | tick ht hst =>
    refine .inr ⟨_, eventOf_servicesTick ht hst, ?_⟩
    rw [asEvent_of_burstBegin willFail hp hr, asEvent_of_wait ht.wait, hlog ht.wait]
    simp [eventStep, hst]
  | update ha hst =>
    have hw : t.regs.seq = seqWait := by rw [hr]; exact ha.wait
    refine .inr ⟨_, eventOf_update ha, ?_⟩
    rw [hwait hw, asEvent_of_wait hw, asEvent_of_wait ha.wait, hlog ha.wait, hr]
    simp [eventStep, hst]
  | ignored ha hst =>
    have hws : s.regs.seq = seqWait := ha.elim Accepts.wait Accepts.wait
    have hw : t.regs.seq = seqWait := by rw [hr]; exact hws
    have hev : ∃ ev, eventOf s = some ev ∧ ∀ e : EventState, e.st = .idle →
        eventStep s.params false ev e = some { e with flags := raiseFlag .cmdIgn e.flags } := by
      rcases ha with ha | ha
      · exact ⟨_, eventOf_update ha, fun e he => by simp [eventStep, he]⟩
      · exact ⟨_, eventOf_stop ha, fun e he => by simp [eventStep, he]⟩
    obtain ⟨ev, hev, hstep⟩ := hev
    refine .inr ⟨ev, hev, ?_⟩
    rw [hwait hw, asEvent_of_wait hw, asEvent_of_wait hws, hlog hws, hr, hstep _ hst]
    rfl
  | rsvd ha =>
    have hw : t.regs.seq = seqWait := by rw [hr]; exact ha.wait
    refine .inr ⟨_, eventOf_rsvd ha, ?_⟩
    rw [hwait hw, asEvent_of_wait hw, asEvent_of_wait ha.wait, hlog ha.wait, hr]
    rfl
  | quiet hw hc hn =>
    exact cycleRefines_of_unchanged willFail h hr (eventOf_of_quiet hc hn) (not_takesFrame_of_wait hw) rfl rfl rfl
      rfl rfl
  | taken ht => exact cycleRefines_of_takes willFail hg.index ht h hr
  | stalled hs hy =>
    exact cycleRefines_of_unchanged willFail h hr (eventOf_of_busy (by simp [hs])) (by simp [TakesFrame, hy]) rfl rfl
      rfl rfl rfl
  | gap hs =>
    obtain ⟨hst, hcs, hca, _, _, _, _, hfl⟩ := gapStep_frame s.params (countCycle s.params s.regs)
    exact cycleRefines_of_unchanged willFail h hr (eventOf_of_busy (by simp [hs])) (by simp [TakesFrame, hs]) hst hcs
      hca hfl (framesToCome_gapStep (r := countCycle s.params s.regs) hs hg.index)

/-- Settles O50: a cycle is one event or none, so each half is one of the two readings of the cycle. -/
theorem cycleRefinesTheEventLevel : Obligations.CycleRefinesTheEventLevel := by
  intro s t willFail hg hrst h hwait
  rcases cycleRefines_of_step hg hrst h hwait with ⟨hnone, he⟩ | ⟨ev, hev, he⟩
  · exact ⟨fun _ => he, fun ev' hev' => absurd (hnone.symm.trans hev') (Option.some_ne_none ev').symm⟩
  · refine ⟨fun hnone => absurd (hnone.symm.trans hev) (Option.some_ne_none ev).symm, fun ev' hev' => ?_⟩
    obtain rfl := Option.some.inj (hev.symm.trans hev')
    exact he

/-! ## Runs -/

theorem startStateFault_of_good {s : State} (hg : s.Good) : startStateFault s = none := by
  rcases hg.phase with hw | hs | hs
  · exact startStateFault_of_wait hw
  · exact startStateFault_of_burst (.inl hs) (frameIndexOk_of_le hg.index)
  · exact startStateFault_of_burst (.inr hs) (frameIndexOk_of_le hg.index)

/-- A good state always has a next one (R230). -/
theorem step_of_good {s : State} (hg : s.Good) : ∃ t, step s = .next t := ⟨_, step_eq s (startStateFault_of_good hg)⟩

theorem run_succ_of_step {s t : State} (h : step s = .next t) (n : Nat) : run (n + 1) s = run n t := by
  rw [run_succ, h]

/-- A run is one step longer at its end. -/
theorem run_snoc {n : Nat} {s t : State} (h : run n s = .next t) : run (n + 1) s = step t := by
  induction n generalizing s with
  | zero =>
    obtain rfl : s = t := Host.Outcome.next.inj h
    rw [run_succ]
    cases step s <;> rfl
  | succ n ih =>
    rw [run_succ] at h ⊢
    cases hs : step s with
    | next u =>
      rw [hs] at h
      exact ih h
    | fault f => simp [hs] at h
    | refused f => simp [hs] at h

/-- What the inputs of the next n + 1 cycles satisfy, the first one's and the others' after a step. -/
theorem forall_inputIn_succ {s t : State} (h : step s = .next t) (P : Pins → Prop) (n : Nat) :
    (∀ k < n + 1, P (inputIn s k)) ↔ P s.pins ∧ ∀ k < n, P (inputIn t k) := by
  simp only [Nat.forall_lt_succ_left, inputIn_step s t h]
  rfl

theorem noReset_succ {s t : State} (h : step s = .next t) (n : Nat) :
    NoReset s (n + 1) ↔ s.pins.rst = false ∧ NoReset t n := forall_inputIn_succ h (·.rst = false) n

theorem noCommand_succ {s t : State} (h : step s = .next t) (n : Nat) (ops : List (BitVec 2)) :
    NoCommand s (n + 1) ops ↔ (s.pins.cmdValid = true → cwOp s.pins.cmd ∉ ops) ∧ NoCommand t n ops :=
  forall_inputIn_succ h (fun p => p.cmdValid = true → cwOp p.cmd ∉ ops) n

/-- After n cycles the input at the port is the one scheduled for cycle n. -/
theorem pins_of_run {n : Nat} {s t : State} (h : run n s = .next t) (hg : s.Good) : t.pins = inputIn s n := by
  induction n generalizing s with
  | zero =>
    obtain rfl : s = t := Host.Outcome.next.inj h
    rfl
  | succ n ih =>
    obtain ⟨u, hu⟩ := step_of_good hg
    rw [run_succ_of_step hu] at h
    rw [ih h (step_good hu hg), inputIn_step s u hu]

/-- The induction over the cycles of a run from a good state: a property of the number of cycles run and the state they
lead to holds along the run if it holds at its start and every cycle, with its scheduled input, keeps it. -/
theorem run_induction {s : State} {N : Nat} (P : Nat → State → Prop) (hg : s.Good) (h0 : P 0 s)
    (hstep : ∀ m < N, ∀ t u : State, t.Good → t.params = s.params → t.pins = inputIn s m → step t = .next u → P m t →
      P (m + 1) u) :
    ∀ n ≤ N, ∃ t, run n s = .next t ∧ t.Good ∧ t.params = s.params ∧ P n t := by
  intro n
  induction n with
  | zero => exact fun _ => ⟨s, rfl, hg, rfl, h0⟩
  | succ n ih =>
    intro hn
    obtain ⟨t, hrun, hgt, hp, hP⟩ := ih (by omega)
    obtain ⟨u, hu⟩ := step_of_good hgt
    obtain ⟨hpu, _⟩ := step_parts t u hu
    exact ⟨u, (run_snoc hrun).trans hu, step_good hu hgt, hpu.trans hp,
      hstep n (by omega) t u hgt hp (pins_of_run hrun hg) hu hP⟩

/-! ## Every run is a run of the event level -/

theorem burstFails_of_wait (n : Nat) {s : State} (hw : s.regs.seq = seqWait) : burstFails n s = false := by
  cases n <;> simp [burstFails, hw]

theorem burstFails_of_busy {n : Nat} {s t : State} (h : step s = .next t) (hb : s.regs.seq ≠ seqWait) :
    burstFails (n + 1) s = (failsNow s || burstFails n t) := by
  simp [burstFails, h, hb]

theorem eventsOfRun_of_noEvent {n : Nat} {s t : State} (h : step s = .next t) (he : eventOf s = none) :
    eventsOfRun (n + 1) s = eventsOfRun n t := by
  simp [eventsOfRun, h, he]

theorem eventsOfRun_of_event {n : Nat} {s t : State} {ev : Event} (h : step s = .next t) (he : eventOf s = some ev) :
    eventsOfRun (n + 1) s = (ev, burstFails n t) :: eventsOfRun n t := by
  simp [eventsOfRun, h, he]

theorem wait_of_eventOf {s : State} {ev : Event} (h : eventOf s = some ev) : s.regs.seq = seqWait := by
  by_contra hb
  simp [eventOf_of_busy hb] at h

theorem nextRegs_of_quiet {s : State} (hr : s.pins.rst = false) (hw : s.regs.seq = seqWait)
    (hc : s.pins.cmdValid = false) (ht : tickWord s ≠ 3#2) : nextRegs s = countCycle s.params s.regs := by
  simp [nextRegs, hr, hw, hc, ht]

theorem nextRegs_of_due {s : State} (hr : s.pins.rst = false) (ht : tickWord s = 3#2) :
    nextRegs s = serviceTick s.params s.regs := by
  obtain ⟨_, hw, hc, _⟩ := (tickWord_iff s).mp ht
  simp [nextRegs, hr, hw, hc, ht]

/-- A WAIT cycle without an event leads to WAIT. -/
theorem wait_of_noEvent {s t : State} (h : step s = .next t) (hr : s.pins.rst = false) (hw : s.regs.seq = seqWait)
    (he : eventOf s = none) : t.regs.seq = seqWait := by
  obtain ⟨_, hregs, _⟩ := step_parts s t h
  have hc : s.pins.cmdValid = false := by
    cases hc : s.pins.cmdValid with
    | false => rfl
    | true => simp [eventOf, hr, hw, hc] at he
  have ht : tickWord s ≠ 3#2 := fun ht => by simp [eventOf, hr, hw, hc, ht] at he
  rw [hregs, nextRegs_of_quiet hr hw hc ht, countCycle_seq, hw]

/-- What a cycle without an event leaves for the transport to answer: the failures to come are those of this cycle and
of the cycles after it. -/
theorem burstFails_of_noEvent {n : Nat} {s t : State} (h : step s = .next t) (hr : s.pins.rst = false)
    (he : eventOf s = none) : burstFails (n + 1) s = (failsNow s || burstFails n t) := by
  by_cases hw : s.regs.seq = seqWait
  · rw [burstFails_of_wait _ hw, burstFails_of_wait _ (wait_of_noEvent h hr hw he),
      failsNow_of_not_takes (not_takesFrame_of_wait hw), Bool.or_false]
  · exact burstFails_of_busy h hw

/-- R208 for every run, by induction on its cycles: the first cycle is no event, or the first of the run's events. -/
theorem eventRun_eventsOfRun (n : Nat) {s : State} (hg : s.Good) (hn : NoReset s n) :
    ∃ t, run n s = .next t ∧
      eventRun s.params (eventsOfRun n s) (asEvent (burstFails n s) s) = some (asEvent false t) := by
  induction n generalizing s with
  | zero => exact ⟨s, rfl, rfl⟩
  | succ n ih =>
    obtain ⟨u, hu⟩ := step_of_good hg
    obtain ⟨hr, hnu⟩ := (noReset_succ hu n).mp hn
    obtain ⟨hp, _⟩ := step_parts s u hu
    obtain ⟨t, ht, hrun⟩ := ih (step_good hu hg) hnu
    refine ⟨t, (run_succ_of_step hu n).trans ht, ?_⟩
    rw [hp] at hrun
    rcases cycleRefines_of_step hg hr hu (burstFails_of_wait n) with ⟨he, hsame⟩ | ⟨ev, he, hstep⟩
    · rw [eventsOfRun_of_noEvent hu he, burstFails_of_noEvent hu hr he, ← hsame, hrun]
    · rw [eventsOfRun_of_event hu he, burstFails_of_wait _ (wait_of_eventOf he)]
      exact eventRun_cons_eq_some_iff.mpr ⟨_, hstep, hrun⟩

/-- Settles O51: the run by induction over its cycles; in WAIT a state reads as it stands. -/
theorem runsRefineTheEventLevel : Obligations.RunsRefineTheEventLevel := by
  intro n s hg hn
  obtain ⟨t, ht, hrun⟩ := eventRun_eventsOfRun n hg hn
  refine ⟨t, ht, hrun, fun hs hw => ?_⟩
  rw [burstFails_of_wait n hs, asEvent_of_wait hs, asEvent_of_wait hw] at hrun
  exact hrun

/-! ## Idle -/

/-- In Idle and WAIT with no START, a cycle changes neither, makes no tick pending and sends nothing (R183). -/
theorem idle_of_step {s t : State} (h : step s = .next t) (hi : s.regs.st = .idle)
    (hw : s.regs.seq = seqWait) (hn : ¬Accepts s 0#2) : t.regs.st = .idle ∧ t.regs.seq = seqWait ∧ t.log = s.log := by
  obtain ⟨_, hkept, _⟩ := logGrowsByTheTakenFrames s t h
  have hlog := hkept (not_takesFrame_of_wait hw)
  obtain ⟨_, hregs, _⟩ := step_parts s t h
  cases hr : s.pins.rst with
  | true =>
    rw [hregs, nextRegs_of_rst hr]
    exact ⟨rfl, rfl, hlog⟩
  | false =>
    have hk := cycleKind_of_step h hr
    generalize t.regs = r at hk
    cases hk with
    | start ha => exact absurd ha hn
    | update _ ha | stop _ ha | tick _ ha => simp [hi] at ha
    | ignored _ _ | rsvd _ | quiet _ _ _ => exact ⟨hi, hw, hlog⟩
    | taken ht => exact absurd ht (not_takesFrame_of_wait hw)
    | stalled hs _ | gap hs => simp [hw] at hs

/-- A pending tick is there only in ACTIVE (R41). -/
theorem Inv.tickPend_of_idle {p : Params} {r : Regs} (h : Inv p r) (hi : r.st = .idle) : r.tickPend = false := by
  by_contra hp
  simp [h.pending (by simpa using hp)] at hi

theorem not_accepts_of_input {s t : State} {n m : Nat} {ops : List (BitVec 2)} (hn : NoCommand s n ops) (hm : m < n)
    (hp : t.pins = inputIn s m) {a : BitVec 2} (ha : a ∈ ops) : ¬Accepts t a := fun ⟨_, _, hc, hop⟩ => by
  rw [hp] at hc hop
  exact hn m hm hc (hop ▸ ha)

/-- Settles O56: `idle_of_step` along the run. -/
theorem idleStaysSilent : Obligations.IdleStaysSilent := by
  intro n s hg hi hw hn
  obtain ⟨t, ht, hgt, _, hit, hwt, hlog⟩ := run_induction (N := n)
    (fun _ t => t.regs.st = .idle ∧ t.regs.seq = seqWait ∧ t.log = s.log) hg ⟨hi, hw, rfl⟩
    (fun m hm t u _ _ hpins hu ⟨hit, hwt, hlog⟩ => by
      obtain ⟨hiu, hwu, hlogu⟩ := idle_of_step hu hit hwt (not_accepts_of_input hn hm hpins (by simp))
      exact ⟨hiu, hwu, hlogu.trans hlog⟩) n le_rfl
  exact ⟨t, ht, hit, hwt, hgt.tickPend_of_idle hit, hlog⟩

/-! ## The timer -/

/-- In ACTIVE a cycle without START takes the timer down by one modulo PERIOD_CYCLES (R191). -/
theorem timerNext_modEq {p : Params} {r : Regs} (ha : r.st = .active) (h1 : 1 ≤ r.timer) (hle : r.timer ≤ p.period) :
    timerNext p r + 1 ≡ r.timer [MOD p.period] := by
  have hw := period_lt p
  by_cases ht : r.timer = 1
  · simp [timerNext, ha, ht, Nat.ModEq]
  · simp only [timerNext, ha, ht, if_false, decrement_of_pos p.timerW r.timer h1 (by omega)]
    rw [Nat.sub_add_cancel h1]

/-- In ACTIVE the cycle with TIMER = 1 is told by the timer modulo PERIOD_CYCLES. -/
theorem tickNow_iff_modEq {p : Params} {r : Regs} (ha : r.st = .active) (h1 : 1 ≤ r.timer) (hle : r.timer ≤ p.period) :
    tickNow r = true ↔ 1 ≡ r.timer [MOD p.period] := by
  have htick : tickNow r = true ↔ r.timer - 1 = 0 := by
    simp only [tickNow, ha, beq_self_eq_true, Bool.true_and, beq_iff_eq]
    omega
  rw [htick, Nat.modEq_iff_dvd' h1]
  exact ⟨fun h0 => h0 ▸ Nat.dvd_zero _, fun hd => Nat.eq_zero_of_dvd_of_lt hd (by omega)⟩

/-- In ACTIVE with no START and no STOP, a cycle counts the timer and keeps ACTIVE, whatever the burst does. -/
theorem active_of_step {s t : State} (hg : s.Good) (h : step s = .next t) (hr : s.pins.rst = false)
    (ha : s.regs.st = .active) (h0 : ¬Accepts s 0#2) (h2 : ¬Accepts s 2#2) :
    t.regs.st = .active ∧ t.regs.timer + 1 ≡ s.regs.timer [MOD s.params.period] := by
  obtain ⟨_, hregs, _⟩ := step_parts s t h
  constructor
  · rcases (cycleKind_of_step h hr).st_cases with hst | ⟨hs, _⟩ | ⟨hs, _⟩
    · exact hst.trans ha
    · exact absurd hs h0
    · exact absurd hs h2
  · obtain ⟨h1, hle⟩ := hg.timer ha
    rcases nextRegs_timer s hr with ⟨hs, _⟩ | e
    · exact absurd hs h0
    · rw [hregs, e]
      exact timerNext_modEq ha h1 hle

/-- Settles O54: along the run the timer and the number of cycles run have a fixed sum modulo PERIOD_CYCLES. -/
theorem ticksAreOnePeriodApart : Obligations.TicksAreOnePeriodApart := by
  intro n s hg ha hn hc
  obtain ⟨t, ht, hgt, hp, hat, hsum⟩ := run_induction (N := n)
    (fun m t => t.regs.st = .active ∧ t.regs.timer + m ≡ s.regs.timer [MOD s.params.period]) hg ⟨ha, rfl⟩
    (fun m hm t u hgt hp hpins hu ⟨hat, hsum⟩ => by
      obtain ⟨hau, hcount⟩ := active_of_step hgt hu (hpins ▸ hn m hm) hat (not_accepts_of_input hc hm hpins (by simp))
        (not_accepts_of_input hc hm hpins (by simp))
      refine ⟨hau, ?_⟩
      rw [hp] at hcount
      rw [Nat.add_comm m 1, ← Nat.add_assoc]
      exact (hcount.add_right m).trans hsum) n le_rfl
  obtain ⟨h1, hle⟩ := hgt.timer hat
  refine ⟨t, ht, hat, ?_⟩
  rw [tickNow_iff_modEq hat h1 hle, hp, Nat.add_comm n 1]
  exact ⟨fun h => (h.add_right n).trans hsum, fun h => Nat.ModEq.add_right_cancel' n (h.trans hsum.symm)⟩

/-! ## The heartbeat -/

/-- With no command presented in the next cycle at all, none is accepted in it. -/
theorem cmdValid_of_noCommand {p : Pins} (h : p.cmdValid = true → cwOp p.cmd ∉ [0#2, 1#2, 2#2, 3#2]) :
    p.cmdValid = false := by
  have hall : ∀ q : BitVec 2, q ∈ [0#2, 1#2, 2#2, 3#2] := by decide
  by_contra hc
  exact h (by simpa using hc) (hall _)

/-- A WAIT cycle in ACTIVE without a command and without a due tick counts the timer down, and nothing else happens. -/
theorem waiting_of_step {s t : State} (hg : s.Good) (h : step s = .next t) (hr : s.pins.rst = false)
    (ha : s.regs.st = .active) (hw : s.regs.seq = seqWait) (hc : s.pins.cmdValid = false) (hn : ¬Pending s.regs) :
    t.regs.st = .active ∧ t.regs.seq = seqWait ∧ t.regs.timer + 1 = s.regs.timer ∧
      t.regs.cmdSpeed = s.regs.cmdSpeed ∧ t.regs.cmdAngle = s.regs.cmdAngle := by
  obtain ⟨_, hregs, _⟩ := step_parts s t h
  have ht : tickWord s ≠ 3#2 := fun ht => by
    obtain ⟨_, _, _, hp⟩ := (tickWord_iff s).mp ht
    exact hn hp
  obtain ⟨h1, hle⟩ := hg.timer ha
  have hlt := period_lt s.params
  have hne : s.regs.timer ≠ 1 := fun h1 => hn (.inr ⟨ha, h1⟩)
  have htimer : timerNext s.params s.regs = s.regs.timer - 1 := by
    simp only [timerNext, ha, hne, if_false]
    exact decrement_of_pos _ _ h1 (by omega)
  rw [hregs, nextRegs_of_quiet hr hw hc ht]
  exact ⟨ha, hw, by rw [countCycle_timer, htimer, Nat.sub_add_cancel h1], rfl, rfl⟩

/-- The heartbeat, by induction on the timer: a due tick begins the burst now, and otherwise the timer counts (R184). -/
theorem heartbeat_of_timer (k : Nat) {s : State} (hg : s.Good) (ha : s.regs.st = .active) (hw : s.regs.seq = seqWait)
    (hk : s.regs.timer = k) (hr : NoReset s k) (hc : NoCommand s k [0#2, 1#2, 2#2, 3#2]) :
    ∃ n t, 1 ≤ n ∧ n ≤ k ∧ run n s = .next t ∧ t.regs.seq = seqSend ∧ t.regs.burstIdx = 0 ∧
      t.regs.bcmdSpeed = s.regs.cmdSpeed ∧ t.regs.bcmdAngle = s.regs.cmdAngle ∧ t.log = s.log := by
  induction k generalizing s with
  | zero =>
    obtain ⟨h1, _⟩ := hg.timer ha
    omega
  | succ k ih =>
    obtain ⟨u, hu⟩ := step_of_good hg
    obtain ⟨hrst, hru⟩ := (noReset_succ hu k).mp hr
    obtain ⟨hcmd, hcu⟩ := (noCommand_succ hu k _).mp hc
    have hcv := cmdValid_of_noCommand hcmd
    obtain ⟨_, hkept, _⟩ := logGrowsByTheTakenFrames s u hu
    have hlog := hkept (not_takesFrame_of_wait hw)
    by_cases hp : Pending s.regs
    · obtain ⟨_, hregs, _⟩ := step_parts s u hu
      have hdue := nextRegs_of_due hrst ((tickWord_iff s).mpr ⟨ha, hw, hcv, hp⟩)
      refine ⟨1, u, le_rfl, Nat.succ_pos k, (run_succ_of_step hu 0).trans (run_zero u), ?_⟩
      rw [hregs, hdue]
      exact ⟨rfl, rfl, rfl, rfl, hlog⟩
    · obtain ⟨hau, hwu, htimer, hs, hang⟩ := waiting_of_step hg hu hrst ha hw hcv hp
      obtain ⟨n, t, h1, hn, hrun, hseq, hidx, hbs, hba, hlogt⟩ := ih (step_good hu hg) hau hwu (by omega) hru hcu
      exact ⟨n + 1, t, Nat.succ_pos n, Nat.succ_le_succ hn, (run_succ_of_step hu n).trans hrun, hseq, hidx,
        hbs.trans hs, hba.trans hang, hlogt.trans hlog⟩

/-- Settles O55: the induction from the timer of the state. -/
theorem heartbeatBurst : Obligations.HeartbeatBurst := fun _ hg ha hw hr hc => heartbeat_of_timer _ hg ha hw rfl hr hc

/-! ## The timing of a burst -/

/-- Where an unhindered burst is m cycles after its first one, with g gap cycles after each frame: it offers the frame
at `BURST_IDX`, it is in cycle j of the gap after that frame, or it has ended (R200 to R202). -/
inductive BurstAt (g m : Nat) (r : Regs) : Prop
  | offering : r.seq = seqSend → m = r.burstIdx.toNat * (1 + g) → BurstAt g m r
  | gap (j : Nat) : r.seq = seqGap → 1 ≤ j → r.gapCnt + j = 1 + g → m = r.burstIdx.toNat * (1 + g) + j → BurstAt g m r
  | ended : r.seq = seqWait → r.burstIdx = 4#3 → m = 5 * (1 + g) → BurstAt g m r

theorem burstAt_of_movesOn {g m : Nat} {q r : Regs} (h : MovesOn q r) (hm : m = (q.burstIdx.toNat + 1) * (1 + g)) :
    BurstAt g m r := by
  obtain ⟨hend, hnext⟩ := h
  by_cases h4 : q.burstIdx = 4#3
  · obtain ⟨hw, hidx⟩ := hend h4
    exact .ended hw hidx (by rw [hm, h4]; rfl)
  · obtain ⟨hs, hidx⟩ := hnext h4
    exact .offering hs (by rw [hm, hidx])

theorem BurstAt.busy {g m : Nat} {r : Regs} (h : BurstAt g m r) (hm : m < 5 * (1 + g)) : r.seq ≠ seqWait := by
  cases h with
  | offering hs _ | gap _ hs _ _ _ => simp [hs]
  | ended _ _ he => omega

theorem BurstAt.ended_of_eq {s : State} (hg : s.Good)
    (h : BurstAt s.params.gapCycles (5 * (1 + s.params.gapCycles)) s.regs) :
    s.regs.seq = seqWait ∧ s.regs.burstIdx = 4#3 := by
  have hmul := Nat.mul_le_mul_right (1 + s.params.gapCycles) hg.index
  cases h with
  | offering _ he => omega
  | gap j hs _ hj he =>
    obtain ⟨hcnt, _⟩ := hg.gap hs
    omega
  | ended hw h4 _ => exact ⟨hw, h4⟩

/-- The port in a cycle of an unhindered burst (R66, R209). -/
theorem BurstAt.txOut_eq {m : Nat} {s : State} (h : BurstAt s.params.gapCycles m s.regs) (hg : s.Good)
    (hm : m < 5 * (1 + s.params.gapCycles)) :
    txOut s = if m % (1 + s.params.gapCycles) = 0 then
      (encodeSet s.params s.regs.bcmdSpeed s.regs.bcmdAngle)[m / (1 + s.params.gapCycles)]? else none := by
  cases h with
  | offering hs he =>
    rw [he, Nat.mul_mod_left, if_pos rfl, Nat.mul_div_cancel _ (by omega), txOut, if_pos hs]
    rfl
  | gap j hs h1 hj he =>
    obtain ⟨hcnt, _⟩ := hg.gap hs
    have hmod : m % (1 + s.params.gapCycles) = j := by
      rw [he, Nat.add_comm, Nat.add_mul_mod_self_right, Nat.mod_eq_of_lt (by omega)]
    rw [hmod, if_neg (by omega), txOut, if_neg (by simp [hs])]
  | ended _ _ he => omega

theorem nextRegs_of_taken {s : State} (hr : s.pins.rst = false) (hs : s.regs.seq = seqSend)
    (hy : s.pins.txReady = true) :
    nextRegs s = frameTaken s.params s.pins.txErr (countCycle s.params s.regs) := by
  simp [nextRegs, hr, hs, hy]

theorem nextRegs_of_gap {s : State} (hr : s.pins.rst = false) (hs : s.regs.seq = seqGap) :
    nextRegs s = gapStep s.params (countCycle s.params s.regs) := by
  simp [nextRegs, hr, hs]

/-- A cycle of an unhindered burst: the frame is taken at once, and the gap counts. -/
theorem BurstAt.step {m : Nat} {s t : State} (hb : BurstAt s.params.gapCycles m s.regs) (hg : s.Good)
    (h : step s = .next t) (hr : s.pins.rst = false) (hy : s.pins.txReady = true)
    (hm : m < 5 * (1 + s.params.gapCycles)) : BurstAt s.params.gapCycles (m + 1) t.regs := by
  obtain ⟨_, hregs, _⟩ := step_parts s t h
  have hi := hg.index
  cases hb with
  | offering hs he =>
    rw [hregs, nextRegs_of_taken hr hs hy]
    rcases Nat.eq_zero_or_pos s.params.gapCycles with h0 | hpos
    · obtain ⟨_, hmoves⟩ := frameTaken_of_noGap s.pins.txErr (r := countCycle s.params s.regs) h0 rfl hi
      exact burstAt_of_movesOn hmoves (by simp [he, h0])
    · obtain ⟨hseq, hcnt, hidx⟩ := frameTaken_of_gap s.pins.txErr (countCycle s.params s.regs) hpos
      exact .gap 1 hseq le_rfl (by omega) (by rw [he, hidx]; rfl)
  | gap j hs h1 hj he =>
    obtain ⟨hcnt, hle⟩ := hg.gap hs
    rw [hregs, nextRegs_of_gap hr hs]
    by_cases hlast : s.regs.gapCnt = 1
    · obtain ⟨_, hmoves⟩ := gapStep_of_last s.params (r := countCycle s.params s.regs) hlast rfl hi
      refine burstAt_of_movesOn hmoves ?_
      rw [he, countCycle_burstIdx, Nat.succ_mul]
      omega
    · have hlt := gapCycles_lt s.params
      rw [gapStep_of_counting (r := countCycle s.params s.regs) _ hlast]
      refine .gap (j + 1) hs (by omega) ?_ (by simp [he, Nat.add_assoc])
      simp only [countCycle_gapCnt, decrement_of_pos s.params.gapW s.regs.gapCnt hcnt (by omega)]
      omega
  | ended _ _ he => omega

/-- In a burst, what is in the log and what is still to come of the burst are together the same before and after every
cycle: the event level sees no change of the log. -/
theorem log_of_busy_step {s t : State} (hg : s.Good) (h : step s = .next t) (hr : s.pins.rst = false)
    (hb : s.regs.seq ≠ seqWait) :
    t.log ++ framesToCome t.params t.regs = s.log ++ framesToCome s.params s.regs := by
  obtain ⟨hsame, _⟩ := cycleRefinesTheEventLevel s t false hg hr h fun _ => rfl
  exact congrArg EventState.log (hsame (eventOf_of_busy hb))

/-- An unhindered burst that began in `s`, m cycles on. -/
structure BurstRun (s : State) (m : Nat) (t : State) : Prop where
  speed : t.regs.bcmdSpeed = s.regs.bcmdSpeed
  angle : t.regs.bcmdAngle = s.regs.bcmdAngle
  log : t.log ++ framesToCome t.params t.regs = s.log ++ encodeSet s.params s.regs.bcmdSpeed s.regs.bcmdAngle
  position : BurstAt s.params.gapCycles m t.regs

theorem burstRun_zero {s : State} (hs : s.regs.seq = seqSend) (hi : s.regs.burstIdx = 0) : BurstRun s 0 s where
  speed := rfl
  angle := rfl
  log := by
    rw [framesToCome_of_send hs, hi]
    rfl
  position := .offering hs (by simp [hi])

theorem BurstRun.step {s t u : State} {m : Nat} (hb : BurstRun s m t) (hm : m < 5 * (1 + s.params.gapCycles))
    (hg : t.Good) (hp : t.params = s.params) (h : Machine.step t = .next u) (hr : t.pins.rst = false)
    (hy : t.pins.txReady = true) : BurstRun s (m + 1) u := by
  have hbusy := hb.position.busy hm
  obtain ⟨hspeed, hangle⟩ :=
    (cycleKind_of_step h hr).bcmd_cases.resolve_left fun ⟨hw, _⟩ => hbusy hw
  refine ⟨hspeed.trans hb.speed, hangle.trans hb.angle, (log_of_busy_step hg h hr hbusy).trans hb.log, ?_⟩
  have hpos := hb.position
  rw [← hp] at hpos hm ⊢
  exact hpos.step hg h hr hy hm

/-- The states of a burst from frame 0 under a transport that is always ready. -/
theorem burstRun_of_run {s : State} (hg : s.Good) (hs : s.regs.seq = seqSend) (hi : s.regs.burstIdx = 0)
    (hr : NoReset s (5 * (1 + s.params.gapCycles))) (hy : AlwaysReady s (5 * (1 + s.params.gapCycles))) :
    ∀ m ≤ 5 * (1 + s.params.gapCycles), ∃ t, run m s = .next t ∧ t.Good ∧ t.params = s.params ∧ BurstRun s m t :=
  run_induction (BurstRun s) hg (burstRun_zero hs hi) fun m hm _ _ hgt hp hpins hu hb =>
    hb.step hm hgt hp hu (hpins ▸ hr m hm) (hpins ▸ hy m hm)

/-- Settles O53: where the burst is in each of its cycles, what the port shows there, and the log from what is to
come. -/
theorem burstTiming : Obligations.BurstTiming := by
  intro s hg hs hi hr hy
  have hrun := burstRun_of_run hg hs hi hr hy
  refine ⟨fun m hm => ?_, ?_⟩
  · obtain ⟨t, ht, hgt, hp, hb⟩ := hrun m hm.le
    obtain ⟨u, hu⟩ := step_of_good hgt
    obtain ⟨_, _, _, _, _, _, _, htx, _⟩ := step_parts t u hu
    have hpos := hb.position
    rw [← hp] at hpos
    refine ⟨t, u, ht, hu, by simp [cmdReady, hb.position.busy hm], ?_⟩
    rw [htx, hpos.txOut_eq hgt (hp ▸ hm), hp, hb.speed, hb.angle]
  · obtain ⟨t, ht, hgt, hp, hb⟩ := hrun _ le_rfl
    have hpos := hb.position
    rw [← hp] at hpos
    obtain ⟨hw, h4⟩ := hpos.ended_of_eq hgt
    refine ⟨t, ht, hw, h4, ?_⟩
    have hlog := hb.log
    rwa [framesToCome_of_wait hw, List.append_nil] at hlog

end Sys2Proof.Machine
end

section
/-! PROOFS. The exception statements (`60_exceptions.md`): the fields that do not overflow follow the command (R226), no
condition of the spec stops a good state (R222, R230), and only reset clears a flag (R232). -/

namespace Sys2Proof.Machine

/-! ## Fields that do not overflow -/

section
variable (p : Params) (speed angle : Centi)

/-- A speed field that fits is on the wire as it is (R156). -/
theorem buildF504_field_of_fits (h : fieldOverflows (spdf p.roundTie speed) = false) :
    (wireWord (buildF504 p speed angle).data 6 : Int) = spdf p.roundTie speed := by
  rw [buildF504, wireWord_memWrite _ _ _ (by omega), speedField, toNat_trunc16_of_fits _ h]

/-- A steering field that fits is on the wire as it is (R156). -/
theorem buildF502_field_of_fits (h : fieldOverflows (strf p.roundTie angle) = false) :
    (wireWord (buildF502 p angle).data 4 : Int) = strf p.roundTie angle := by
  rw [buildF502, wireWord_memWrite _ _ _ (by omega), steeringField, toNat_trunc16_of_fits _ h]

end

theorem spdf_fits (tie : RoundTie) {speed : Centi} (h : speed.toInt.natAbs < 655355) :
    fieldOverflows (spdf tie speed) = false := by
  rw [← Bool.not_eq_true, fieldOverflows_spdf_iff]
  omega

/-- Between the thresholds of both tie rules the steering field fits: -3004 is the least angle that both round to a
field that is not negative. -/
theorem strf_fits (tie : RoundTie) {angle : Centi} (hlo : -3004 ≤ angle.toInt) (hhi : angle.toInt < 652355) :
    fieldOverflows (strf tie angle) = false := by
  rw [← Bool.not_eq_true, fieldOverflows_strf_iff]
  cases tie <;> dsimp only <;> omega

/-- Settles O22: a field that fits is the rounded tenth of its command, and rounding moves it by half a unit at most. -/
theorem wireFieldsFollowTheCommand : Obligations.WireFieldsFollowTheCommand := by
  refine fun p speed angle => ⟨fun h => ?_, fun hlo hhi => ?_⟩
  · rw [buildF504_field_of_fits p speed angle (spdf_fits _ h)]
    exact rdiv10_near p.roundTie speed.toInt.natAbs
  · rw [buildF502_field_of_fits p angle (strf_fits _ hlo hhi)]
    exact rdiv10_near p.roundTie (angle.toInt + 3000)

/-! ## Progress -/

/-- Settles O40: the invariants (a) and (b) of R41 exclude the two start states the step refuses. -/
theorem goodStatesAlwaysStep : Obligations.GoodStatesAlwaysStep := fun _ => step_of_good

/-! ## Flags are sticky -/

/-- Every flag set in `q` is set in `r` (R232). -/
def KeepsFlags (q r : Regs) : Prop := ∀ b, flagSet q.flags b = true → flagSet r.flags b = true

theorem keepsFlags_of_eq {q r : Regs} (h : r.flags = q.flags) : KeepsFlags q r := fun _ hb => h ▸ hb

theorem keepsFlags_of_raiseFlagIf {q r : Regs} {c : Bool} {f : FlagBit} (h : r.flags = raiseFlagIf c f q.flags) :
    KeepsFlags q r := fun b hb => by
  rw [h, flagSet_raiseFlagIf, hb, Bool.true_or]

theorem keepsFlags_of_raiseFlag {q r : Regs} {f : FlagBit} (h : r.flags = raiseFlag f q.flags) : KeepsFlags q r :=
  keepsFlags_of_raiseFlagIf (c := true) h

/-- A burst begin only adds the overflow flags (R206). -/
theorem keepsFlags_burstBegin (p : Params) (speed angle : Centi) {q r : Regs} (h : r.flags = q.flags) :
    KeepsFlags q (burstBegin p speed angle r) := fun b hb => by
  rw [burstBegin_flags, flagSet_overflowFlags, h, hb, Bool.true_or, Bool.true_or]

section
variable (p : Params) (speed angle : Centi) (r : Regs)

theorem keepsFlags_acceptUpdate : KeepsFlags r (acceptUpdate p speed angle r) := by
  cases h : r.st with
  | active => exact keepsFlags_of_eq (by rw [acceptUpdate_of_active p speed angle h, countCycle_flags])
  | idle => exact keepsFlags_of_raiseFlag (by rw [acceptUpdate_of_idle p speed angle h])

theorem keepsFlags_acceptStop : KeepsFlags r (acceptStop p r) := by
  cases h : r.st with
  | active =>
    rw [acceptStop_of_active p h]
    exact keepsFlags_burstBegin p 0 0 rfl
  | idle => exact keepsFlags_of_raiseFlag (by rw [acceptStop_of_idle p h])

theorem keepsFlags_frameTaken (err : Bool) : KeepsFlags r (frameTaken p err (countCycle p r)) := by
  obtain ⟨_, _, _, _, _, _, _, hf⟩ := frameTaken_frame p err (countCycle p r)
  exact keepsFlags_of_raiseFlagIf hf

theorem keepsFlags_gapStep : KeepsFlags r (gapStep p (countCycle p r)) := by
  obtain ⟨_, _, _, _, _, _, _, hf⟩ := gapStep_frame p (countCycle p r)
  exact keepsFlags_of_eq hf

end

/-- A command keeps the flags if its register transfer does: held, it changes nothing (R196). -/
theorem keepsFlags_commandOp {s : State} {accept : Regs → Regs} (h : KeepsFlags s.regs (accept s.regs)) :
    KeepsFlags s.regs (commandOp accept s).regs := by
  rcases commandOp_cases accept s with ⟨_, e⟩ | ⟨_, e⟩ <;> rw [e]
  · exact h
  · exact keepsFlags_of_eq rfl

section
variable {s t : State}

/-- What TICK leaves where it happens (R198). -/
theorem regs_of_exec_tick (h : exec .tick s = .next t) : t.regs = serviceTick s.params s.regs := by
  by_cases hw : tickWord s = 3#2
  · rw [exec_tick_of_due hw] at h
    exact Host.Outcome.next.inj h ▸ rfl
  · rw [exec_tick_of_notDue hw] at h
    nomatch h

/-- What BURST.SEND leaves where it happens: a frame taken, or a wait for the transport (R199). -/
theorem regs_of_exec_burstSend (h : exec .burstSend s = .next t) :
    t.regs = frameTaken s.params s.pins.txErr (countCycle s.params s.regs) ∨
      t.regs = countCycle s.params s.regs := by
  by_cases hs : s.regs.seq = seqSend
  · cases hf : frameAt s.params s.regs.bcmdSpeed s.regs.bcmdAngle s.regs.burstIdx with
    | none =>
      rw [exec_burstSend_of_noFrame hs hf] at h
      nomatch h
    | some fr =>
      cases hy : s.pins.txReady with
      | true =>
        rw [exec_burstSend_taken hs hy hf] at h
        exact .inl (Host.Outcome.next.inj h ▸ rfl)
      | false =>
        rw [exec_burstSend_stalled hs hy hf] at h
        exact .inr (Host.Outcome.next.inj h ▸ rfl)
  · rw [exec_burstSend_of_ne hs] at h
    nomatch h

/-- What BURST.GAP leaves where it happens (R200). -/
theorem regs_of_exec_burstGap (h : exec .burstGap s = .next t) :
    t.regs = gapStep s.params (countCycle s.params s.regs) := by
  by_cases hs : s.regs.seq = seqGap
  · cases hi : frameIndexOk s.regs.burstIdx with
    | true =>
      rw [exec_burstGap_of_gap hs hi] at h
      exact Host.Outcome.next.inj h ▸ rfl
    | false =>
      rw [exec_burstGap_of_badIndex hs hi] at h
      nomatch h
  · rw [exec_burstGap_of_ne hs] at h
    nomatch h

/-- Every operation but RESET keeps the flags. The rows of the decoder and the encoder write no register (R32, R150). -/
theorem keepsFlags_of_exec {i : Instr} (h : exec i s = .next t) (hi : i ≠ .reset) : KeepsFlags s.regs t.regs := by
  cases i with
  | start speed angle =>
    rw [exec_start] at h
    exact Host.Outcome.next.inj h ▸ keepsFlags_commandOp (keepsFlags_burstBegin _ _ _ rfl)
  | update speed angle =>
    rw [exec_update] at h
    exact Host.Outcome.next.inj h ▸ keepsFlags_commandOp (keepsFlags_acceptUpdate _ _ _ _)
  | stop speed angle =>
    rw [exec_stop] at h
    exact Host.Outcome.next.inj h ▸ keepsFlags_commandOp (keepsFlags_acceptStop _ _)
  | rsvd speed angle =>
    rw [exec_rsvd] at h
    exact Host.Outcome.next.inj h ▸ keepsFlags_commandOp (keepsFlags_of_raiseFlag rfl)
  | tick =>
    rw [regs_of_exec_tick h]
    exact keepsFlags_burstBegin _ _ _ rfl
  | burstSend =>
    rcases regs_of_exec_burstSend h with e | e <;> rw [e]
    · exact keepsFlags_frameTaken _ _ _
    · exact keepsFlags_of_eq (countCycle_flags ..)
  | burstGap =>
    rw [regs_of_exec_burstGap h]
    exact keepsFlags_gapStep _ _
  | reset => exact absurd rfl hi
  | _ =>
    obtain rfl := Host.Outcome.next.inj h
    exact keepsFlags_of_eq rfl

end

/-- Settles O43: an operation by its kind; a cycle because a flag that was set is set after it, whatever the causes. -/
theorem flagsAreSticky : Obligations.FlagsAreSticky :=
  ⟨fun _ _ _ h hi => keepsFlags_of_exec h hi,
    fun _ _ h hr b hb => ((cycleKind_of_step h hr).flagSet_iff b).mpr (.inl hb)⟩

end Sys2Proof.Machine
end
